-- ==== Sys2Proof/Word.lean ====
section
/-! DEFINITION. The widths of AED2-CORE's values (00_scope.md R7, R9). All values are unsigned. -/

namespace Sys2Proof

/-- A command word or the data of an output word: 32 bits (R55, R63). -/
abbrev Word := BitVec 32

/-- A symbol, `SYM_W` = 8 bits (R7). -/
abbrev Byte := BitVec 8

/-- A dictionary code, `CODE_W` = 12 bits (R7). -/
abbrev Code := BitVec 12

/-- An index of the node arena, `NODE_W` = 9 bits (R7, R31). -/
abbrev NodeIdx := BitVec 9

/-- `zext_32` of R9: widen a narrower value with zero bits. -/
def zext32 {n : Nat} (v : BitVec n) : Word := v.setWidth 32

end Sys2Proof
end

