-- ==== Sys2Proof/Syntax.lean ====
section
/-! DEFINITION. The command set of AED2-CORE: one constructor per row of spec/opcode_table.json (30_encoding.md R59). -/

namespace Sys2Proof

/-- A command with its operand fields, each of the width its format gives it (R56, R57). -/
inductive Instr where
  /-- `NOP` (R104) -/
  | nop
  /-- `RDREG r` (R105) -/
  | rdreg (r : BitVec 8)
  /-- `WRCTRL v` (R106) -/
  | wrctrl (v : BitVec 2)
  /-- `CLRERR` (R107) -/
  | clrerr
  /-- `SOFTRESET` (R108) -/
  | softreset
  /-- `LE.BYTE b` (R70) -/
  | leByte (b : Byte)
  /-- `LE.END` (R72) -/
  | leEnd
  /-- `LD.CODE c` (R76) -/
  | ldCode (c : Code)
  /-- `LD.BYTE b` (R77) -/
  | ldByte (b : Byte)
  /-- `LD.END` (R78) -/
  | ldEnd
  /-- `BP.PUT c` (R83) -/
  | bpPut (c : Code)
  /-- `BP.FLUSH` (R84) -/
  | bpFlush
  /-- `BU.PUT b` (R85) -/
  | buPut (b : Byte)
  /-- `BU.END` (R86) -/
  | buEnd
  /-- `HF.CLEAR` (R88) -/
  | hfClear
  /-- `HF.COUNT b` (R89) -/
  | hfCount (b : Byte)
  /-- `HF.SETFREQ s, count` (R90): the one command of two words -/
  | hfSetfreq (s : Byte) (count : Word)
  /-- `HF.BUILD` (R93) -/
  | hfBuild
  /-- `HF.ENC b` (R98) -/
  | hfEnc (b : Byte)
  /-- `HF.ENCEND` (R99) -/
  | hfEncend
  /-- `HF.DECBITS n, b` (R100) -/
  | hfDecbits (n : BitVec 4) (b : Byte)
  /-- `HF.DECEND` (R101) -/
  | hfDecend
  /-- `HF.RDFREQ s` (R94) -/
  | hfRdfreq (s : Byte)
  /-- `HF.RDLEN s` (R95) -/
  | hfRdlen (s : Byte)
  /-- `HF.RDCODE s, w` (R96) -/
  | hfRdcode (s : Byte) (w : BitVec 3)
  deriving DecidableEq, Repr

end Sys2Proof
end

