-- ==== Sys2Proof/Decode.lean ====
section
/-! DEFINITION. Decoding (30_encoding.md R55 to R62), total on any sequence of command words, and the encoder written from the
same formats. Ports carry whole 32-bit words, so no byte order arises (R46). -/

namespace Sys2Proof

/-! ## Formats and fields -/

/-- The eight formats of R56. -/
inductive Format where
  /-- no operand -/
  | F0
  /-- a byte or symbol -/
  | FB
  /-- a register number -/
  | FR
  /-- a 12-bit code -/
  | FC
  /-- a 2-bit value -/
  | FV
  /-- a bit count and a byte -/
  | FN
  /-- a word select and a symbol -/
  | FW
  /-- a symbol, and a count in a second word -/
  | FS
  deriving DecidableEq, Repr

/-- The reserved operand bits of a format, which must be 0 (R56, R58). -/
def Format.reserved : Format → Word
  | .F0 => 0x00FFFFFF#32
  | .FB => 0x00FFFF00#32
  | .FR => 0x00FFFF00#32
  | .FC => 0x00FFF000#32
  | .FV => 0x00FFFFFC#32
  | .FN => 0x00FFF000#32
  | .FW => 0x00FFF800#32
  | .FS => 0x00FFFF00#32

/-- `mask` of R62: bits 31:24 and every reserved bit. -/
def Format.mask (f : Format) : Word := 0xFF000000#32 ||| f.reserved

/-- `OPC`, bits 31:24 (R55). -/
def opcField (w : Word) : BitVec 8 := w.extractLsb' 24 8

/-- `b`, `s` or `r`: bits 7:0 (R57). -/
def byteField (w : Word) : Byte := w.extractLsb' 0 8

/-- `c`: bits 11:0 (R57). -/
def codeField (w : Word) : Code := w.extractLsb' 0 12

/-- `v`: bits 1:0 (R57). -/
def valueField (w : Word) : BitVec 2 := w.extractLsb' 0 2

/-- `n`: bits 11:8 (R57). -/
def bitsField (w : Word) : BitVec 4 := w.extractLsb' 8 4

/-- `w_sel`: bits 10:8 (R57). -/
def selectField (w : Word) : BitVec 3 := w.extractLsb' 8 3

/-- A row of the opcode map R59: the format, and the command its first word and its second word (for `FS`) give. -/
structure OpRow where
  format : Format
  build : Word → Word → Instr

/-- The opcode map of R59. The other 231 opcodes are unassigned (R60). -/
def opRow (opc : BitVec 8) : Option OpRow :=
  match opc.toNat with
  | 0x00 => some ⟨.F0, fun _ _ => .nop⟩
  | 0x01 => some ⟨.FR, fun w _ => .rdreg (byteField w)⟩
  | 0x02 => some ⟨.FV, fun w _ => .wrctrl (valueField w)⟩
  | 0x03 => some ⟨.F0, fun _ _ => .clrerr⟩
  | 0x04 => some ⟨.F0, fun _ _ => .softreset⟩
  | 0x10 => some ⟨.FB, fun w _ => .leByte (byteField w)⟩
  | 0x11 => some ⟨.F0, fun _ _ => .leEnd⟩
  | 0x18 => some ⟨.FC, fun w _ => .ldCode (codeField w)⟩
  | 0x19 => some ⟨.FB, fun w _ => .ldByte (byteField w)⟩
  | 0x1A => some ⟨.F0, fun _ _ => .ldEnd⟩
  | 0x20 => some ⟨.FC, fun w _ => .bpPut (codeField w)⟩
  | 0x21 => some ⟨.F0, fun _ _ => .bpFlush⟩
  | 0x28 => some ⟨.FB, fun w _ => .buPut (byteField w)⟩
  | 0x29 => some ⟨.F0, fun _ _ => .buEnd⟩
  | 0x30 => some ⟨.F0, fun _ _ => .hfClear⟩
  | 0x31 => some ⟨.FB, fun w _ => .hfCount (byteField w)⟩
  | 0x32 => some ⟨.FS, fun w w2 => .hfSetfreq (byteField w) w2⟩
  | 0x33 => some ⟨.F0, fun _ _ => .hfBuild⟩
  | 0x34 => some ⟨.FB, fun w _ => .hfEnc (byteField w)⟩
  | 0x35 => some ⟨.F0, fun _ _ => .hfEncend⟩
  | 0x36 => some ⟨.FN, fun w _ => .hfDecbits (bitsField w) (byteField w)⟩
  | 0x37 => some ⟨.F0, fun _ _ => .hfDecend⟩
  | 0x38 => some ⟨.FB, fun w _ => .hfRdfreq (byteField w)⟩
  | 0x39 => some ⟨.FB, fun w _ => .hfRdlen (byteField w)⟩
  | 0x3A => some ⟨.FW, fun w _ => .hfRdcode (byteField w) (selectField w)⟩
  | _ => none

/-! ## Decoding -/

/-- Why a command word is illegal before any command runs (R110, `E_ILLEGAL`). -/
inductive IllegalWord where
  /-- an opcode outside R59: INFO = 0 (R60) -/
  | unassignedOpcode
  /-- a reserved operand bit is set: INFO = 1 (R58) -/
  | reservedBits
  deriving DecidableEq, Repr

/-- The INFO that an illegal word records (R110). -/
def IllegalWord.info : IllegalWord → BitVec 16
  | .unassignedOpcode => 0
  | .reservedBits => 1

/-- What the head of the command stream is (R62). -/
inductive Decoded where
  /-- a command, and the words after it -/
  | instr (i : Instr) (rest : List Word)
  /-- an illegal command with opcode `opc`, and the words after it -/
  | illegal (why : IllegalWord) (opc : BitVec 8) (rest : List Word)
  /-- the command's last word has not arrived (R61) -/
  | incomplete
  deriving DecidableEq, Repr

/-- The length of a command in words, by its opcode byte alone, legal or not (R61). -/
def wordsOf (opc : BitVec 8) : Nat := if opc = 0x32#8 then 2 else 1

/-- No reserved bit of the row's format is set in `w`. R62 prints `(w AND NOT mask(opc)) != match(opc)`; by its own
definition of `mask` and by R58 the test is `(w AND mask(opc)) != match(opc)`. DEDUCED, log 4. -/
def reservedClear (f : Format) (w : Word) : Bool := w &&& f.mask == zext32 (opcField w) <<< 24

/-- `decode` of R62 at the head of the words not yet consumed. An illegal `HF.SETFREQ` too takes its second word (R61). -/
def decode : List Word → Decoded
  | [] => .incomplete
  | w :: ws =>
    match opRow (opcField w) with
    | none => .illegal .unassignedOpcode (opcField w) ws
    | some row =>
      match row.format, ws with
      | .FS, [] => .incomplete
      | .FS, w2 :: ws' => if reservedClear .FS w then .instr (row.build w w2) ws' else .illegal .reservedBits (opcField w) ws'
      | f, ws => if reservedClear f w then .instr (row.build w 0) ws else .illegal .reservedBits (opcField w) ws

/-! ## Encoding -/

/-- The opcode byte of a command (R59). -/
def Instr.opcode : Instr → BitVec 8
  | .nop => 0x00
  | .rdreg _ => 0x01
  | .wrctrl _ => 0x02
  | .clrerr => 0x03
  | .softreset => 0x04
  | .leByte _ => 0x10
  | .leEnd => 0x11
  | .ldCode _ => 0x18
  | .ldByte _ => 0x19
  | .ldEnd => 0x1A
  | .bpPut _ => 0x20
  | .bpFlush => 0x21
  | .buPut _ => 0x28
  | .buEnd => 0x29
  | .hfClear => 0x30
  | .hfCount _ => 0x31
  | .hfSetfreq _ _ => 0x32
  | .hfBuild => 0x33
  | .hfEnc _ => 0x34
  | .hfEncend => 0x35
  | .hfDecbits _ _ => 0x36
  | .hfDecend => 0x37
  | .hfRdfreq _ => 0x38
  | .hfRdlen _ => 0x39
  | .hfRdcode _ _ => 0x3A

/-- The length of a command in words (R61). -/
def Instr.length (i : Instr) : Nat := wordsOf i.opcode

/-- The operand area, bits 23:0, of a command's first word (R56). -/
def Instr.operands : Instr → Word
  | .rdreg r => zext32 r
  | .wrctrl v => zext32 v
  | .leByte b => zext32 b
  | .ldCode c => zext32 c
  | .ldByte b => zext32 b
  | .bpPut c => zext32 c
  | .buPut b => zext32 b
  | .hfCount b => zext32 b
  | .hfSetfreq s _ => zext32 s
  | .hfEnc b => zext32 b
  | .hfDecbits n b => zext32 n <<< 8 ||| zext32 b
  | .hfRdfreq s => zext32 s
  | .hfRdlen s => zext32 s
  | .hfRdcode s w => zext32 w <<< 8 ||| zext32 s
  | .nop => 0
  | .clrerr => 0
  | .softreset => 0
  | .leEnd => 0
  | .ldEnd => 0
  | .bpFlush => 0
  | .buEnd => 0
  | .hfClear => 0
  | .hfBuild => 0
  | .hfEncend => 0
  | .hfDecend => 0

/-- The first word of a command: `OPC` in bits 31:24, the operand area below (R55). -/
def Instr.word (i : Instr) : Word := zext32 i.opcode <<< 24 ||| i.operands

/-- The words of a command (R55, R56, R61). -/
def encode (i : Instr) : List Word :=
  match i with
  | .hfSetfreq _ count => [i.word, count]
  | _ => [i.word]

/-! ## The opcode table's numbering -/

/-- The two words of an instruction given as one number, the first word in bits 31:0; bits at and above `nbits` are 0. -/
def tableWords (nbits w : Nat) : List Word :=
  [BitVec.ofNat 32 (w % 2 ^ nbits), BitVec.ofNat 32 (w % 2 ^ nbits / 2 ^ 32)]

/-- The instruction the decoder reads from a row of spec/opcode_table.json given as one number. -/
def decodeTableWord (nbits w : Nat) : Option Instr :=
  match decode (tableWords nbits w) with
  | .instr i _ => some i
  | .illegal _ _ _ => none
  | .incomplete => none

end Sys2Proof
end

