-- ==== Sys2Proof/Config.lean ====
section
/-! DEFINITION. The implementation parameters of 00_scope.md R7. -/

namespace Sys2Proof.Config

/-- `NSYM`: the number of symbols and of singleton entries (R7). -/
def nsym : Nat := 256

/-- `DICT_CAP`: the dictionary capacity, singletons included (R7, D40). -/
def dictCap : Nat := 4096

/-- `STR_MAX`: the longest decoded dictionary string, and the depth of LD's string stack (R7, R75). -/
def strMax : Nat := 3841

/-- `ID_VALUE` (R7, R24). -/
def idValue : Word := 0x41454432#32

/-- The largest value of a frequency counter and of the Huffman bit count: `2^32 - 1` (R7, R89, R98). -/
def countMax : Nat := 2 ^ 32 - 1

/-- The first index of the arena's internal nodes (R31). -/
def nodeLo : Nat := 256

/-- The last index of the arena's internal nodes (R31). -/
def nodeHi : Nat := 510

/-- `OUT_DEPTH - 1`, which the spec leaves OPEN (R7, D29): an uninterpreted constant. Only `cmdReady` (R15) reads it; no step
depends on it, because the model's queue is unbounded (R36, R131). DESIGN CHOICE, unsafe in one respect: log 8. -/
opaque outDepthPred : Nat

/-- `OUT_DEPTH >= 1` (R7). -/
def outDepth : Nat := outDepthPred + 1

end Sys2Proof.Config
end

