-- ==== Sys2Proof/Machine/State.lean ====
section
/-! DEFINITION. The architectural state of AED2-CORE (10_state.md R19 to R36) as plain data, and the reset state S0 (R127). -/

namespace Sys2Proof.Machine

/-- An internal memory (20_memory.md R37): (index, entry) pairs in one canonical form, indices strictly rising and no entry equal
to what an unlisted index reads as (`Memory.wf`, Machine/Ops.lean; log 16). -/
abbrev Memory (α : Type) := List (Nat × α)

/-! ## Entries -/

/-- An entry of the LE dictionary CAM: the code names `String(prefix) ++ [byte]` (R27, R38). -/
structure LeEntry where
  pre : Code
  byte : Byte
  deriving DecidableEq, Repr

/-- An entry of the LD dictionary SRAM: `(prefix, byte, first, len)` (R28, R39). -/
structure LdEntry where
  pre : Code
  byte : Byte
  first : Byte
  len : BitVec 12
  deriving DecidableEq, Repr

/-- An internal node of the arena; `none` is the spec's NONE (R31). -/
structure Node where
  left : Option NodeIdx
  right : Option NodeIdx
  deriving DecidableEq, Repr

/-- What an LE entry never written reads as: any value will do (U11, R127). DESIGN CHOICE, log 6. -/
def LeEntry.blank : LeEntry := ⟨0, 0⟩

/-- What an LD entry never written reads as: any value will do (U11, R127). DESIGN CHOICE, log 6. -/
def LdEntry.blank : LdEntry := ⟨0, 0, 0, 0⟩

/-- What an arena entry never written reads as: any value will do (U11, R127). DESIGN CHOICE, log 6. -/
def Node.blank : Node := ⟨none, none⟩

/-! ## Units -/

/-- HI: control and error state (R22, R25, R35). -/
structure HiUnit where
  leRaw : Bool
  irqEn : Bool
  errPending : Bool
  errMulti : Bool
  errinfo : Word
  deriving DecidableEq, Repr

/-- LE, the dictionary encoder (R27). -/
structure LeUnit where
  curValid : Bool
  cur : Code
  next : BitVec 13
  ncodes : Word
  dict : Memory LeEntry
  deriving DecidableEq, Repr

/-- LD, the dictionary decoder (R28). -/
structure LdUnit where
  prevValid : Bool
  prev : Code
  next : BitVec 13
  nbytes : Word
  dict : Memory LdEntry
  deriving DecidableEq, Repr

/-- BP, the BitPacker (R29). -/
structure BpUnit where
  buf : BitVec 8
  n : BitVec 3
  deriving DecidableEq, Repr

/-- BU, the BitUnpacker (R29). -/
structure BuUnit where
  buf : BitVec 12
  n : BitVec 4
  deriving DecidableEq, Repr

/-- HT, the tree builder: frequencies (R30), arena (R31) and codebook (R32). -/
structure HtUnit where
  freq : Memory (BitVec 32)
  treeValid : Bool
  nleaves : BitVec 9
  root : Option NodeIdx
  node : Memory Node
  codeLen : Memory (BitVec 8)
  codeBits : Memory (BitVec 256)
  deriving DecidableEq, Repr

/-- HE, the Huffman coder (R33). -/
structure HeUnit where
  buf : BitVec 8
  n : BitVec 3
  bitcount : Word
  deriving DecidableEq, Repr

/-- HD, the Huffman decoder (R34). -/
structure HdUnit where
  pos : Option NodeIdx
  nsyms : Word
  deriving DecidableEq, Repr

/-! ## Output words and the host's actions -/

/-- The assigned tags of R63. The reserved tags 11 to 14 have no constructor: they are never pushed (U7). -/
inductive Tag where
  /-- 0: a register, frequency, length or code read -/
  | reg
  /-- 1: a packed byte of the dictionary wire format -/
  | lbyte
  /-- 2: an emitted code, raw -/
  | code
  /-- 3: a decoded byte -/
  | dbyte
  /-- 4: a packed byte of the Huffman bit string -/
  | hbyte
  /-- 5: the length of the Huffman bit string -/
  | hbits
  /-- 6: a decoded symbol -/
  | hsym
  /-- 7: end of an encode call, with its number of codes -/
  | leDone
  /-- 8: end of a decode call, with its number of bytes -/
  | ldDone
  /-- 9: end of a Huffman decode call, with its number of symbols -/
  | hdDone
  /-- 10: an unpacked code -/
  | ucode
  /-- 15: an error -/
  | err
  deriving DecidableEq, Repr

/-- An output word `(tag, data)` (R63). -/
structure OutWord where
  tag : Tag
  data : Word
  deriving DecidableEq, Repr

/-- One action of the host at the ports (R8): it lands between two commands, never inside one (R48). -/
inductive HostAct where
  /-- a command word transfers on `cmd_data` (R15) -/
  | send (w : Word)
  /-- the host takes the oldest output word (R16) -/
  | take
  /-- the host holds `rst_n = 0` and releases it (R18, R125) -/
  | reset
  deriving DecidableEq, Repr

/-! ## The state -/

/-- The record S of R20, by unit (R2), with the host's half of the interface as plain data (`cmds`, `host`: logs 1 and 2). -/
structure State where
  /-- the command pointer: command words consumed since reset (R21) -/
  cp : Nat
  hi : HiUnit
  le : LeUnit
  ld : LdUnit
  bp : BpUnit
  bu : BuUnit
  ht : HtUnit
  he : HeUnit
  hd : HdUnit
  /-- the output queue, oldest first (R36) -/
  out : List OutWord
  /-- MODEL: command words transferred and not yet consumed; the head is `words[cp]` of R62 (log 1) -/
  cmds : List Word
  /-- MODEL: the host's actions still to come, the next one first (log 2) -/
  host : List HostAct
  deriving DecidableEq, Repr

/-- Why the machine stops. Both are accesses to an entry that the spec says does not exist; both can happen only in a state
outside the invariants of R28, R31 and R34, which no run reaches (log 9). -/
inductive Fault where
  /-- `LD.CODE` or `LD.BYTE`: the chain of prefixes is longer than the string stack, 3841 bytes (R37, R75). Safe. -/
  | stringStackOverflow
  /-- `HF.DECBITS`: the traversal engine reads an arena index outside the internal nodes 256 to 510 (R31). Safe. -/
  | arenaIndex
  deriving DecidableEq, Repr

/-- Why an instruction has no meaning. No arm of `exec` uses it. -/
inductive Refusal where
  /-- an instruction whose meaning is not written yet, by its mnemonic; raised by `exec`'s arm. Safe. -/
  | notModelled (mnemonic : String)
  deriving DecidableEq, Repr

/-! ## Reset values -/

/-- R22, R25. -/
def HiUnit.reset : HiUnit := ⟨false, false, false, false, 0⟩

/-- R27; the dictionary is unspecified and unreachable (log 6). -/
def LeUnit.reset : LeUnit := ⟨false, 0, 256, 0, []⟩

/-- R28; the dictionary is unspecified and unreachable (log 6). -/
def LdUnit.reset : LdUnit := ⟨false, 0, 256, 0, []⟩

/-- R29. -/
def BpUnit.reset : BpUnit := ⟨0, 0⟩

/-- R29. -/
def BuUnit.reset : BuUnit := ⟨0, 0⟩

/-- R30, R31, R32; the arena and the codebook are unspecified and unreachable (log 6). -/
def HtUnit.reset : HtUnit := ⟨[], false, 0, none, [], [], []⟩

/-- R33. -/
def HeUnit.reset : HeUnit := ⟨0, 0, 0⟩

/-- R34: the root is NONE at reset. -/
def HdUnit.reset : HdUnit := ⟨none, 0⟩

/-- The reset state S0 (R127). -/
def State.reset : State where
  cp := 0
  hi := HiUnit.reset
  le := LeUnit.reset
  ld := LdUnit.reset
  bp := BpUnit.reset
  bu := BuUnit.reset
  ht := HtUnit.reset
  he := HeUnit.reset
  hd := HdUnit.reset
  out := []
  cmds := []
  host := []

end Sys2Proof.Machine
end

