-- ==== Sys2Proof/Machine/Ops.lean ====
section
/-! DEFINITION. The shared operations: internal memories (20_memory.md R37 to R41), pushing output words (R49), error entry
(60_exceptions.md R111) and the acknowledgement beside it (R116), the end of a command (R62), and placing a command where the
core takes its next one. -/

namespace Sys2Proof.Machine

/-! ## Internal memories -/

/-- `MemRead(M, i)` (R11): entry `k`, or `d` where nothing is listed. -/
def Memory.read {α : Type} (d : α) (m : Memory α) (k : Nat) : α :=
  match m with
  | [] => d
  | (a, v) :: m' => if a = k then v else Memory.read d m' k

/-- List `v` at `k`, in rising order of index. -/
def Memory.put {α : Type} (m : Memory α) (k : Nat) (v : α) : Memory α :=
  match m with
  | [] => [(k, v)]
  | (a, w) :: m' =>
    if k < a then (k, v) :: (a, w) :: m' else if k = a then (k, v) :: m' else (a, w) :: Memory.put m' k v

/-- List nothing at `k`. -/
def Memory.erase {α : Type} (m : Memory α) (k : Nat) : Memory α := m.filter (fun e => e.1 != k)

/-- `MemWrite(M, i, v)` (R11): an entry equal to what an unlisted index reads as is not listed. -/
def Memory.write {α : Type} [DecidableEq α] (d : α) (m : Memory α) (k : Nat) (v : α) : Memory α :=
  if v = d then Memory.erase m k else Memory.put m k v

/-- Indices rise strictly. -/
def Memory.rising {α : Type} : Memory α → Bool
  | [] => true
  | [_] => true
  | e :: e' :: m => decide (e.1 < e'.1) && Memory.rising (e' :: m)

/-- The canonical form: indices rise strictly and no listed entry is what an unlisted index reads as. -/
def Memory.wf {α : Type} [DecidableEq α] (d : α) (m : Memory α) : Bool :=
  Memory.rising m && m.all (fun e => decide (e.2 ≠ d))

/-- Every listed index lies in `lo .. hi`: the entries the memory has (R37). -/
def Memory.within {α : Type} (lo hi : Nat) (m : Memory α) : Bool :=
  m.all (fun e => decide (lo ≤ e.1) && decide (e.1 ≤ hi))

/-! ## The output queue and the command pointer -/

/-- `push(tag, data)` (R49): it appends and never fails. -/
def State.push (s : State) (t : Tag) (data : Word) : State := { s with out := s.out ++ [⟨t, data⟩] }

/-- Push one word for each byte, in order, the byte in bits 7:0 (R46, R63). -/
def State.pushBytes (s : State) (t : Tag) (bytes : List Byte) : State :=
  { s with out := s.out ++ bytes.map (fun b => ⟨t, zext32 b⟩) }

/-- `cp <- cp + n` (R11, R21). -/
def State.advance (s : State) (n : Nat) : State := { s with cp := s.cp + n }

/-! ## Errors -/

/-- The errors of R110. -/
inductive ErrorKind where
  /-- `E_ILLEGAL` -/
  | illegal
  /-- `E_DECODE`, the document's `DecodeError` -/
  | decode
  /-- `E_MALFORMED`, the document's `MalformedStreamError` -/
  | malformed
  /-- `E_NOTREE` -/
  | noTree
  /-- `E_NOCODE` -/
  | noCode
  /-- `E_OVERFLOW` -/
  | overflow
  deriving DecidableEq, Repr

/-- The error codes of R110. -/
def ErrorKind.code : ErrorKind → BitVec 8
  | .illegal => 1
  | .decode => 2
  | .malformed => 3
  | .noTree => 4
  | .noCode => 5
  | .overflow => 6

/-- The word of R111: `info * 2^16 + OPC * 2^8 + code(E)`. -/
def errorWord (e : ErrorKind) (info : BitVec 16) (opc : BitVec 8) : Word :=
  BitVec.ofNat 32 (info.toNat * 2 ^ 16 + opc.toNat * 2 ^ 8 + e.code.toNat)

/-- Latch the first error; a later one only sets `ERR_MULTI` (R111, R117). -/
def HiUnit.record (h : HiUnit) (w : Word) : HiUnit :=
  if h.errPending then { h with errMulti := true } else { h with errinfo := w, errPending := true }

/-- Error entry, `raise E(info)` (R111), for the command whose opcode is `opc`: latch the error and push the `ERR` word. Nothing
else is saved and control does not transfer. -/
def raise (e : ErrorKind) (info : BitVec 16) (opc : BitVec 8) (s : State) : State :=
  { s with hi := s.hi.record (errorWord e info opc) }.push .err (errorWord e info opc)

/-- The acknowledgement that takes the place of a return from an exception (R107, R116). -/
def acknowledge (s : State) : State :=
  { s with hi := { s.hi with errPending := false, errMulti := false, errinfo := 0 } }

/-! ## The end of a command -/

/-- How the body of a command ends: at its last line, at a `raise` in the state its abort action left (R12, R112), or at an access
to an entry that does not exist (log 9). -/
inductive Effect where
  | done (s : State)
  | error (e : ErrorKind) (info : BitVec 16) (s : State)
  | stop (f : Fault)
  deriving DecidableEq, Repr

/-- Go on with `f` unless the command has ended (R12). -/
def Effect.bind (r : Effect) (f : State → Effect) : Effect :=
  match r with
  | .done s => f s
  | .error e info s => .error e info s
  | .stop flt => .stop flt

/-- The end of the command `i` (R62, R111): raise its error if it has one, then `cp <- cp + len`. -/
def complete (i : Instr) (r : Effect) : Host.Outcome State Fault Refusal :=
  match r with
  | .done s => .next (s.advance i.length)
  | .error e info s => .next ((raise e info i.opcode s).advance i.length)
  | .stop flt => .fault flt

/-- An illegal word (R58, R60, R112): `E_ILLEGAL` before any step of a command, and `cp` advances by the length the opcode gives. -/
def rejectIllegal (why : IllegalWord) (opc : BitVec 8) (s : State) : Host.Outcome State Fault Refusal :=
  .next ((raise .illegal why.info opc s).advance (wordsOf opc))

/-! ## The command stream -/

/-- `s` with a whole command at the head of the words the core consumes next. -/
def placeCommand (s : State) (nbits w : Nat) : State := { s with cmds := tableWords nbits w ++ s.cmds.drop 2 }

end Sys2Proof.Machine
end

