-- ==== Sys2Proof/Machine/Flags.lean ====
section
/-! DEFINITION. The flags of STATUS (10_state.md R23), each a function of other state, and the interrupt line (60_exceptions.md
R115). -/

namespace Sys2Proof.Machine

/-- `irq = S.err_pending AND S.ctrl_irq_en` (R17, R115); it is also `STATUS.IRQ`. -/
def irq (s : State) : Bool := s.hi.errPending && s.hi.irqEn

/-- `STATUS.HD_AT_ROOT`: both NONE counts as equal (R23). -/
def hdAtRoot (s : State) : Bool := decide (s.hd.pos = s.ht.root)

/-- `STATUS.LE_FULL` (R23). -/
def leFull (s : State) : Bool := decide (s.le.next.toNat = Config.dictCap)

/-- `STATUS.LD_FULL` (R23). -/
def ldFull (s : State) : Bool := decide (s.ld.next.toNat = Config.dictCap)

/-- A word with bit `i` equal to `b` and the others 0. -/
def flagBit (b : Bool) (i : Nat) : Word := if b then 1#32 <<< i else 0

/-- `STATUS` (R23); bits 31:9 read 0. -/
def statusWord (s : State) : Word :=
  flagBit s.hi.errPending 0 ||| flagBit s.hi.errMulti 1 ||| flagBit (irq s) 2 ||| flagBit s.le.curValid 3 |||
    flagBit s.ld.prevValid 4 ||| flagBit s.ht.treeValid 5 ||| flagBit (hdAtRoot s) 6 ||| flagBit (leFull s) 7 |||
    flagBit (ldFull s) 8

end Sys2Proof.Machine
end

