-- ==== Sys2Proof/Machine/Operands.lean ====
section
/-! DEFINITION. What a command's operand stands for: a register number (10_state.md R26), the bits of a byte (44_huffman_coder.md
R100), a word of a code (43_huffman_tree.md R96), a value widened to the state it feeds (30_encoding.md R57). -/

namespace Sys2Proof.Machine

/-- `CTRL` (R22); bits 31:2 read 0. -/
def ctrlWord (s : State) : Word := flagBit s.hi.leRaw 0 ||| flagBit s.hi.irqEn 1

/-- Bit 31 is `valid`; the bits below show `v` if valid, else 0 (R26: `LE_CUR`, `LD_PREV`). -/
def validWord {n : Nat} (valid : Bool) (v : BitVec n) : Word := if valid then 0x80000000#32 ||| zext32 v else 0

/-- Bit 31 says whether there is a node; bits 8:0 show its index, else 0 (R26: `HF_ROOT`, `HD_NODE`). -/
def nodeWord (i : Option NodeIdx) : Word :=
  match i with
  | none => 0
  | some v => 0x80000000#32 ||| zext32 v

/-- A bit buffer in bits 16 up and its bit count in bits 3:0 (R26: `BP_STATE`, `BU_STATE`, `HE_STATE`). -/
def bufferWord {m k : Nat} (buf : BitVec m) (n : BitVec k) : Word := zext32 buf <<< 16 ||| zext32 n

/-- `reg_value(r)`: the register space of R26; `none` for the unassigned numbers `0x12` to `0xFF`. -/
def regValue (r : BitVec 8) (s : State) : Option Word :=
  match r.toNat with
  | 0x00 => some Config.idValue
  | 0x01 => some (ctrlWord s)
  | 0x02 => some (statusWord s)
  | 0x03 => some s.hi.errinfo
  | 0x04 => some (zext32 s.le.next)
  | 0x05 => some (validWord s.le.curValid s.le.cur)
  | 0x06 => some s.le.ncodes
  | 0x07 => some (zext32 s.ld.next)
  | 0x08 => some (validWord s.ld.prevValid s.ld.prev)
  | 0x09 => some s.ld.nbytes
  | 0x0A => some (bufferWord s.bp.buf s.bp.n)
  | 0x0B => some (bufferWord s.bu.buf s.bu.n)
  | 0x0C => some (zext32 s.ht.nleaves)
  | 0x0D => some (nodeWord s.ht.root)
  | 0x0E => some s.he.bitcount
  | 0x0F => some (bufferWord s.he.buf s.he.n)
  | 0x10 => some (nodeWord s.hd.pos)
  | 0x11 => some s.hd.nsyms
  | _ => none

/-- Bits 0 to `n - 1` of `v`, bit 0 first (R98, R100). -/
def lowBits {m : Nat} (n : Nat) (v : BitVec m) : List Bool := (List.range n).map v.getLsbD

/-- Code bits `32w + 31` down to `32w` (R96). -/
def codeSlice (bits : BitVec 256) (w : BitVec 3) : Word := bits.extractLsb' (32 * w.toNat) 32

/-- `S.freq[s]` (R40). -/
def HtUnit.freqOf (u : HtUnit) (s : Nat) : BitVec 32 := u.freq.read 0 s

/-- `S.code_len[s]` (R32). -/
def HtUnit.lenOf (u : HtUnit) (s : Nat) : BitVec 8 := u.codeLen.read 0 s

/-- `S.code_bits[s]` (R32). -/
def HtUnit.bitsOf (u : HtUnit) (s : Nat) : BitVec 256 := u.codeBits.read 0 s

/-- The code of symbol `s`, its first bit first: bits 0 to `code_len[s] - 1` of `code_bits[s]` (R32). -/
def HtUnit.codeOf (u : HtUnit) (s : Nat) : List Bool := lowBits (u.lenOf s).toNat (u.bitsOf s)

/-- `S.node[i]` (R31), for the internal nodes 256 to 510; no other index has an entry (log 9). -/
def HtUnit.nodeAt (u : HtUnit) (i : NodeIdx) : Option Node :=
  if Config.nodeLo ≤ i.toNat ∧ i.toNat ≤ Config.nodeHi then some (u.node.read Node.blank i.toNat) else none

end Sys2Proof.Machine
end

