-- ==== Sys2Proof/Machine/BitPack.lean ====
section
/-! DEFINITION. The BitPacker and the BitUnpacker (42_bitpack.md R80 to R86). -/

namespace Sys2Proof.Machine

/-- The `k` lowest bytes of `buf`, lowest first: what the loop of R80 pushes in `k` rounds. -/
def lowBytes : Nat → Nat → List Byte
  | 0, _ => []
  | k + 1, buf => BitVec.ofNat 8 buf :: lowBytes k (buf / 256)

/-- `bp_put(c)` (R80). The loop runs `n / 8` times; the buffer inside the operation is up to 19 bits wide. -/
def bpPut (c : Code) (s : State) : State :=
  let buf := s.bp.buf.toNat + c.toNat * 2 ^ s.bp.n.toNat
  let n := s.bp.n.toNat + 12
  { s with bp := ⟨BitVec.ofNat 8 (buf / 256 ^ (n / 8)), BitVec.ofNat 3 (n % 8)⟩ }.pushBytes .lbyte (lowBytes (n / 8) buf)

/-- `bp_flush()` (R81). -/
def bpFlush (s : State) : State :=
  if 0 < s.bp.n.toNat then { s with bp := ⟨0, 0⟩ }.push .lbyte (zext32 s.bp.buf) else s

/-- `bu_feed(b)` (R82): the code that `b` completes, if any, and the unpacker after it. -/
def buFeed (b : Byte) (u : BuUnit) : Option Code × BuUnit :=
  let buf := u.buf.toNat + b.toNat * 2 ^ u.n.toNat
  let n := u.n.toNat + 8
  if 12 ≤ n then (some (BitVec.ofNat 12 buf), ⟨BitVec.ofNat 12 (buf / 4096), BitVec.ofNat 4 (n - 12)⟩)
  else (none, ⟨BitVec.ofNat 12 buf, BitVec.ofNat 4 n⟩)

/-- `BP.PUT c` (R83). -/
def execBpPut (c : Code) (s : State) : Host.Outcome State Fault Refusal := complete (.bpPut c) (.done (bpPut c s))

/-- `BP.FLUSH` (R84). -/
def execBpFlush (s : State) : Host.Outcome State Fault Refusal := complete .bpFlush (.done (bpFlush s))

/-- `BU.PUT b` (R85). -/
def execBuPut (b : Byte) (s : State) : Host.Outcome State Fault Refusal :=
  complete (.buPut b) (match buFeed b s.bu with
    | (none, u) => .done { s with bu := u }
    | (some c, u) => .done ({ s with bu := u }.push .ucode (zext32 c)))

/-- `BU.END` (R86). -/
def execBuEnd (s : State) : Host.Outcome State Fault Refusal := complete .buEnd (.done { s with bu := ⟨0, 0⟩ })

end Sys2Proof.Machine
end

