-- ==== Sys2Proof/Machine/Control.lean ====
section
/-! DEFINITION. The host-interface commands (45_control.md R104 to R108). -/

namespace Sys2Proof.Machine

/-- `NOP` (R104). -/
def execNop (s : State) : Host.Outcome State Fault Refusal := complete .nop (.done s)

/-- `RDREG r` (R105). Reading has no side effect. -/
def execRdreg (r : BitVec 8) (s : State) : Host.Outcome State Fault Refusal :=
  complete (.rdreg r) (match regValue r s with
    | none => .error .illegal 2 s
    | some v => .done (s.push .reg v))

/-- `WRCTRL v` (R106). -/
def execWrctrl (v : BitVec 2) (s : State) : Host.Outcome State Fault Refusal :=
  complete (.wrctrl v) (.done { s with hi := { s.hi with leRaw := v.getLsbD 0, irqEn := v.getLsbD 1 } })

/-- `CLRERR` (R107). -/
def execClrerr (s : State) : Host.Outcome State Fault Refusal := complete .clrerr (.done (acknowledge s))

/-- Every field at its reset value, except the output queue and the command pointer (R108, R128); the words and actions the host
still has to offer are the host's. The memories that R126 leaves unspecified are emptied (log 7). -/
def softReset (s : State) : State := { State.reset with cp := s.cp, out := s.out, cmds := s.cmds, host := s.host }

/-- `SOFTRESET` (R108). -/
def execSoftreset (s : State) : Host.Outcome State Fault Refusal := complete .softreset (.done (softReset s))

end Sys2Proof.Machine
end

