-- ==== Sys2Proof/Machine/HuffmanTree.lean ====
section
/-! DEFINITION. The Huffman tree builder HT (43_huffman_tree.md R88 to R96). -/

namespace Sys2Proof.Machine

/-! ## The tree builder, `build_tree` (R91) -/

/-- A live node of `build_tree`: its weight, exact (40 bits suffice, R7, R91; log 13), and its index. -/
structure LiveNode where
  weight : Nat
  idx : NodeIdx
  deriving DecidableEq, Repr

/-- The order `(weight, idx)`: lower weight first, then lower index (R91, D13). -/
def LiveNode.before (x y : LiveNode) : Bool :=
  decide (x.weight < y.weight ∨ (x.weight = y.weight ∧ x.idx.toNat < y.idx.toNat))

/-- The least member in the order `(weight, idx)`, and the others (R91). -/
def takeLeast : List LiveNode → Option (LiveNode × List LiveNode)
  | [] => none
  | x :: xs =>
    match takeLeast xs with
    | none => some (x, [])
    | some (y, rest) => if x.before y then some (x, y :: rest) else some (y, x :: rest)

/-- The symbols with a non-zero frequency, ascending: `L` of R91. -/
def leavesOf (u : HtUnit) : List Nat := (List.range Config.nsym).filter (fun s => decide (u.freqOf s ≠ 0))

/-- The first `live`: one leaf per symbol of `L`, its index the symbol (R91). -/
def liveLeaves (u : HtUnit) : List LiveNode :=
  (leavesOf u).map (fun s => ⟨(u.freqOf s).toNat, BitVec.ofNat 9 s⟩)

/-- The loop of R91: while two members are live, combine the two least into node `k`, the first removed on the left. A round
removes one member, so `rounds` = the number of members is enough. The answer is the members left and the arena. -/
def combine : Nat → List LiveNode → Nat → Memory Node → List LiveNode × Memory Node
  | 0, live, _, arena => (live, arena)
  | rounds + 1, live, k, arena =>
    match takeLeast live with
    | none => (live, arena)
    | some (x, rest) =>
      match takeLeast rest with
      | none => (live, arena)
      | some (y, rest') =>
        combine rounds (⟨x.weight + y.weight, BitVec.ofNat 9 k⟩ :: rest') (k + 1)
          (arena.write Node.blank k ⟨some x.idx, some y.idx⟩)

/-- `build_tree()` (R91): no leaf, an empty tree; one leaf, a root with only a left child (D15); else the loop. -/
def buildTree (u : HtUnit) : HtUnit :=
  let n := BitVec.ofNat 9 (leavesOf u).length
  match liveLeaves u with
  | [] => { u with nleaves := n, root := none }
  | [x] => { u with nleaves := n, root := some 256, node := u.node.write Node.blank 256 ⟨some x.idx, none⟩ }
  | x :: y :: live =>
    let r := combine (x :: y :: live).length (x :: y :: live) Config.nodeLo u.node
    { u with nleaves := n, root := r.1.head?.map (fun z => z.idx), node := r.2 }

/-! ## The codebook generator, `gen_codebook` (R92) -/

/-- The value of a bit string whose first bit is bit 0. -/
def bitsValue : List Bool → Nat
  | [] => 0
  | b :: bs => b.toNat + 2 * bitsValue bs

/-- The length of a path and its bits, as `code_len` and `code_bits` hold them (R32, R92). -/
def HtUnit.setCode (u : HtUnit) (s : Nat) (path : List Bool) : HtUnit :=
  { u with
    codeLen := u.codeLen.write 0 s (BitVec.ofNat 8 path.length)
    codeBits := u.codeBits.write 0 s (BitVec.ofNat 256 (bitsValue path)) }

/-- `walk(i, path)` (R92): label the leaves below node `i`. A built tree has depth at most 255, so a walk with `depth` = 256 at the
root never reaches 0 (log 10). -/
def walk : Nat → Option NodeIdx → List Bool → HtUnit → HtUnit
  | 0, _, _, u => u
  | _ + 1, none, _, u => u
  | depth + 1, some i, path, u =>
    if i.toNat < Config.nsym then u.setCode i.toNat path
    else
      let e := u.node.read Node.blank i.toNat
      walk depth e.right (path ++ [true]) (walk depth e.left (path ++ [false]) u)

/-- `gen_codebook()` (R92). -/
def genCodebook (u : HtUnit) : HtUnit := walk Config.nsym u.root [] { u with codeLen := [], codeBits := [] }

/-! ## Commands -/

/-- HE's fresh state (R33), which is also what `he_abort` leaves (R98). -/
def HeUnit.fresh : HeUnit := ⟨0, 0, 0⟩

/-- The body of `HF.CLEAR` (R88): the arena and the codebook keep their contents. -/
def hfClear (s : State) : State :=
  { s with
    ht := { s.ht with freq := [], treeValid := false, nleaves := 0, root := none }
    he := HeUnit.fresh
    hd := ⟨none, 0⟩ }

/-- `S.freq[b] <- v ; S.tree_valid <- 0` (R89, R90). -/
def setFreq (b : Byte) (v : Word) (s : State) : State :=
  { s with ht := { s.ht with freq := s.ht.freq.write 0 b.toNat v, treeValid := false } }

/-- The body of `HF.BUILD` (R93): the tree, the codebook, and HE and HD fresh. -/
def hfBuild (s : State) : State :=
  let t := { genCodebook (buildTree s.ht) with treeValid := true }
  { s with ht := t, he := HeUnit.fresh, hd := ⟨t.root, 0⟩ }

/-- `HF.CLEAR` (R88). -/
def execHfClear (s : State) : Host.Outcome State Fault Refusal := complete .hfClear (.done (hfClear s))

/-- `HF.COUNT b` (R89). -/
def execHfCount (b : Byte) (s : State) : Host.Outcome State Fault Refusal :=
  complete (.hfCount b)
    (if (s.ht.freqOf b.toNat).toNat = Config.countMax then .error .overflow (0x0100#16 + b.setWidth 16) s
    else .done (setFreq b (s.ht.freqOf b.toNat + 1) s))

/-- `HF.SETFREQ s, count` (R90). -/
def execHfSetfreq (b : Byte) (count : Word) (s : State) : Host.Outcome State Fault Refusal :=
  complete (.hfSetfreq b count) (.done (setFreq b count s))

/-- `HF.BUILD` (R93). -/
def execHfBuild (s : State) : Host.Outcome State Fault Refusal := complete .hfBuild (.done (hfBuild s))

/-- `HF.RDFREQ s` (R94). The tree need not be valid. -/
def execHfRdfreq (b : Byte) (s : State) : Host.Outcome State Fault Refusal :=
  complete (.hfRdfreq b) (.done (s.push .reg (s.ht.freqOf b.toNat)))

/-- `HF.RDLEN s` (R95). -/
def execHfRdlen (b : Byte) (s : State) : Host.Outcome State Fault Refusal :=
  complete (.hfRdlen b) (if s.ht.treeValid then .done (s.push .reg (zext32 (s.ht.lenOf b.toNat))) else .error .noTree 0 s)

/-- `HF.RDCODE s, w` (R96). -/
def execHfRdcode (b : Byte) (w : BitVec 3) (s : State) : Host.Outcome State Fault Refusal :=
  complete (.hfRdcode b w)
    (if s.ht.treeValid then .done (s.push .reg (codeSlice (s.ht.bitsOf b.toNat) w)) else .error .noTree 0 s)

end Sys2Proof.Machine
end

