-- ==== Sys2Proof/Machine/HuffmanCoder.lean ====
section
/-! DEFINITION. The Huffman coder HE and the Huffman decoder HD (44_huffman_coder.md R98 to R101). -/

namespace Sys2Proof.Machine

/-! ## The coder -/

/-- `he_abort()` (R98): HE fresh. -/
def heAbort (s : State) : State := { s with he := HeUnit.fresh }

/-- One round of the loop of R98: append one bit, and push a complete byte. -/
def heBit (s : State) (bit : Bool) : State :=
  let buf := BitVec.ofNat 8 (s.he.buf.toNat + bit.toNat * 2 ^ s.he.n.toNat)
  if s.he.n.toNat + 1 = 8 then { s with he := { s.he with buf := 0, n := 0 } }.push .hbyte (zext32 buf)
  else { s with he := { s.he with buf := buf, n := s.he.n + 1 } }

/-- The body of `HF.ENC b` (R98); the errors in the order R114 gives. -/
def hfEnc (b : Byte) (s : State) : Effect :=
  let len := (s.ht.lenOf b.toNat).toNat
  if s.ht.treeValid = false then .error .noTree 0 (heAbort s)
  else if len = 0 then .error .noCode (b.setWidth 16) (heAbort s)
  else if Config.countMax < s.he.bitcount.toNat + len then .error .overflow (0x0200#16 + b.setWidth 16) (heAbort s)
  else
    let t := (s.ht.codeOf b.toNat).foldl heBit s
    .done { t with he := { t.he with bitcount := t.he.bitcount + BitVec.ofNat 32 len } }

/-- The body of `HF.ENCEND` (R99). -/
def hfEncend (s : State) : State :=
  let t := if 0 < s.he.n.toNat then s.push .hbyte (zext32 s.he.buf) else s
  { t with he := HeUnit.fresh }.push .hbits s.he.bitcount

/-- `HF.ENC b` (R98). -/
def execHfEnc (b : Byte) (s : State) : Host.Outcome State Fault Refusal := complete (.hfEnc b) (hfEnc b s)

/-- `HF.ENCEND` (R99). -/
def execHfEncend (s : State) : Host.Outcome State Fault Refusal := complete .hfEncend (.done (hfEncend s))

/-! ## The decoder -/

/-- `hd_abort()` (R100): HD fresh (R34). -/
def hdAbort (s : State) : State := { s with hd := ⟨s.ht.root, 0⟩ }

/-- Move to a child: a leaf gives its symbol and the engine returns to the root (R100). -/
def hdMove (child : NodeIdx) (s : State) : State :=
  if child.toNat < Config.nsym then { s with hd := ⟨s.ht.root, s.hd.nsyms + 1⟩ }.push .hsym (zext32 child)
  else { s with hd := { s.hd with pos := some child } }

/-- One round of the loop of R100: consume one bit. -/
def hdBit (bit : Bool) (s : State) : Effect :=
  match s.hd.pos with
  | none => .error .malformed 1 (hdAbort s)
  | some i =>
    match s.ht.nodeAt i with
    | none => .stop .arenaIndex
    | some e =>
      match (if bit then e.right else e.left) with
      | none => .error .malformed 1 (hdAbort s)
      | some child => .done (hdMove child s)

/-- The loop of R100; the bits after a failing one are not consumed. -/
def hdBits : List Bool → State → Effect
  | [], s => .done s
  | bit :: bits, s => (hdBit bit s).bind (hdBits bits)

/-- The body of `HF.DECBITS n, b` (R100). With no tree the error comes before any bit, whatever `n` is (log 12). -/
def hfDecbits (n : BitVec 4) (b : Byte) (s : State) : Effect :=
  if 8 < n.toNat then .error .illegal 2 s
  else if s.ht.treeValid = false then .error .noTree 0 (hdAbort s)
  else hdBits (lowBits n.toNat b) s

/-- The body of `HF.DECEND` (R101). The tree need not be valid. -/
def hfDecend (s : State) : Effect :=
  if s.hd.pos = s.ht.root then .done ({ s with hd := { s.hd with nsyms := 0 } }.push .hdDone s.hd.nsyms)
  else .error .malformed 0 (hdAbort s)

/-- `HF.DECBITS n, b` (R100). -/
def execHfDecbits (n : BitVec 4) (b : Byte) (s : State) : Host.Outcome State Fault Refusal :=
  complete (.hfDecbits n b) (hfDecbits n b s)

/-- `HF.DECEND` (R101). -/
def execHfDecend (s : State) : Host.Outcome State Fault Refusal := complete .hfDecend (hfDecend s)

end Sys2Proof.Machine
end

