-- ==== Sys2Proof/Machine/LzwDecoder.lean ====
section
/-! DEFINITION. The dictionary decoder LD (41_lzw_decoder.md R74 to R78). -/

namespace Sys2Proof.Machine

/-- `MemRead(ld_dict, k)` (R37). -/
def LdUnit.entry (u : LdUnit) (k : Nat) : LdEntry := u.dict.read LdEntry.blank k

/-- `First(k)` (R39): the first byte of the string the code names. -/
def LdUnit.firstOf (u : LdUnit) (k : Code) : Byte :=
  if k.toNat < Config.nsym then k.setWidth 8 else (u.entry k.toNat).first

/-- `Len(k)` (R39): the length of the string the code names. -/
def LdUnit.lenOf (u : LdUnit) (k : Code) : BitVec 12 := if k.toNat < Config.nsym then 1 else (u.entry k.toNat).len

/-- The loop of `output_string` (R75) on a stack with room for `room` more bytes: push the last bytes of the chain of prefixes
until the singleton at its bottom. `none` where the stack is full. -/
def LdUnit.unwind (u : LdUnit) : Nat → Code → List Byte → Option (List Byte)
  | 0, _, _ => none
  | room + 1, k, stack =>
    if k.toNat < Config.nsym then some (k.setWidth 8 :: stack)
    else LdUnit.unwind u room (u.entry k.toNat).pre ((u.entry k.toNat).byte :: stack)

/-- The bytes of `String_LD(k)`, first byte first (R39, R75), read through the stack of `STR_MAX` bytes (R37). -/
def LdUnit.stringOf (u : LdUnit) (k : Code) : Option (List Byte) := u.unwind Config.strMax k []

/-- `output_string(k)` (R75): push the bytes and count them modulo `2^32`. -/
def outputString (k : Code) (s : State) : Effect :=
  match s.ld.stringOf k with
  | none => .stop .stringStackOverflow
  | some bytes =>
    .done ({ s with ld := { s.ld with nbytes := s.ld.nbytes + BitVec.ofNat 32 bytes.length } }.pushBytes .dbyte bytes)

/-- LD's fresh state (R28): the dictionary entries stay and become unreachable. -/
def LdUnit.refresh (u : LdUnit) : LdUnit := { u with prevValid := false, prev := 0, next := 256, nbytes := 0 }

/-- `ld_abort()` (R74): LD fresh, and the unpacker cleared. -/
def ldAbort (s : State) : State := { s with ld := s.ld.refresh, bu := ⟨0, 0⟩ }

/-- Insert `String(prev) ++ [f]` at the next code, if the capacity is not exhausted (R74). -/
def ldInsert (f : Byte) (u : LdUnit) : LdUnit :=
  if u.next.toNat < Config.dictCap then
    { u with
      dict := u.dict.write LdEntry.blank u.next.toNat ⟨u.prev, f, u.firstOf u.prev, u.lenOf u.prev + 1⟩
      next := u.next + 1 }
  else u

/-- `S.ld_prev <- c`, valid (R74). -/
def ldSetPrev (c : Code) (s : State) : State := { s with ld := { s.ld with prevValid := true, prev := c } }

/-- The part of `ld_step` after the code is resolved: insert an entry ending in `f`, output the string of `c`, keep `c` (R74). -/
def ldResolve (c : Code) (f : Byte) (s : State) : Effect :=
  (outputString c { s with ld := ldInsert f s.ld }).bind (fun t => .done (ldSetPrev c t))

/-- `raise E_DECODE(info = c)` after `ld_abort` (R74, R110). -/
def ldFail (c : Code) (s : State) : Effect := .error .decode (c.setWidth 16) (ldAbort s)

/-- `ld_step(c)` (R74): the first code of a call; a code that names an entry; the self-referential case; any other code. -/
def ldStep (c : Code) (s : State) : Effect :=
  if s.ld.prevValid then
    if c.toNat < s.ld.next.toNat then ldResolve c (s.ld.firstOf c) s
    else if c.toNat = s.ld.next.toNat then ldResolve c (s.ld.firstOf s.ld.prev) s
    else ldFail c s
  else if Config.nsym ≤ c.toNat then ldFail c s
  else (outputString c s).bind (fun t => .done (ldSetPrev c t))

/-- `LD.CODE c` (R76). -/
def execLdCode (c : Code) (s : State) : Host.Outcome State Fault Refusal := complete (.ldCode c) (ldStep c s)

/-- `LD.BYTE b` (R77). -/
def execLdByte (b : Byte) (s : State) : Host.Outcome State Fault Refusal :=
  complete (.ldByte b) (match buFeed b s.bu with
    | (none, u) => .done { s with bu := u }
    | (some c, u) => ldStep c { s with bu := u })

/-- The body of `LD.END` (R78): the residue is discarded whatever its bits are. -/
def ldEnd (s : State) : State := { s with bu := ⟨0, 0⟩, ld := s.ld.refresh }.push .ldDone s.ld.nbytes

/-- `LD.END` (R78). -/
def execLdEnd (s : State) : Host.Outcome State Fault Refusal := complete .ldEnd (.done (ldEnd s))

end Sys2Proof.Machine
end

