-- ==== Sys2Proof/Machine/LzwEncoder.lean ====
section
/-! DEFINITION. The dictionary encoder LE (40_lzw_encoder.md R70 to R72) and its CAM (20_memory.md R43). -/

namespace Sys2Proof.Machine

/-- `MemRead(le_dict, k)` (R37). -/
def LeUnit.entry (u : LeUnit) (k : Nat) : LeEntry := u.dict.read LeEntry.blank k

/-- `CamFind(le_dict, key, lo, hi)` (R43): the index `k` with `lo <= k < hi` whose entry is `key`. At most one matches (R38); where
more would, in states no run reaches, the lowest is taken (log 11). -/
def camFind (u : LeUnit) (key : LeEntry) (lo hi : Nat) : Option Code :=
  ((List.range' lo (hi - lo)).find? (fun k => decide (u.entry k = key))).map (BitVec.ofNat 12)

/-- `emit_code(c)` (R71): to the output queue if `CTRL.LE_RAW`, else to the packer. -/
def emitCode (c : Code) (s : State) : State :=
  let t := if s.hi.leRaw then s.push .code (zext32 c) else bpPut c s
  { t with le := { t.le with ncodes := t.le.ncodes + 1 } }

/-- Insert `(prefix, byte)` at the next free code, if the capacity is not exhausted (R70). -/
def leInsert (e : LeEntry) (u : LeUnit) : LeUnit :=
  if u.next.toNat < Config.dictCap then { u with dict := u.dict.write LeEntry.blank u.next.toNat e, next := u.next + 1 } else u

/-- Restart the accumulator as the singleton `b` (R70). -/
def leRestart (b : Byte) (u : LeUnit) : LeUnit := { u with curValid := true, cur := b.setWidth 12 }

/-- The body of `LE.BYTE b` (R70). The lookup and the insertion use the accumulator as it was. -/
def leByte (b : Byte) (s : State) : State :=
  if s.le.curValid then
    match camFind s.le ⟨s.le.cur, b⟩ Config.nsym s.le.next.toNat with
    | some k => { s with le := { s.le with cur := k } }
    | none =>
      let t := emitCode s.le.cur s
      { t with le := leRestart b (leInsert ⟨s.le.cur, b⟩ t.le) }
  else { s with le := leRestart b s.le }

/-- LE's fresh state (R27): the dictionary entries stay and become unreachable. -/
def LeUnit.refresh (u : LeUnit) : LeUnit := { u with curValid := false, cur := 0, next := 256, ncodes := 0 }

/-- The body of `LE.END` (R72). -/
def leEnd (s : State) : State :=
  let t := if s.le.curValid then emitCode s.le.cur s else s
  let t' := if s.hi.leRaw then t else bpFlush t
  { t' with le := t'.le.refresh }.push .leDone t'.le.ncodes

/-- `LE.BYTE b` (R70). -/
def execLeByte (b : Byte) (s : State) : Host.Outcome State Fault Refusal := complete (.leByte b) (.done (leByte b s))

/-- `LE.END` (R72). -/
def execLeEnd (s : State) : Host.Outcome State Fault Refusal := complete .leEnd (.done (leEnd s))

end Sys2Proof.Machine
end

