-- ==== Sys2Proof/Machine/Dispatch.lean ====
section
/-! DEFINITION. One arm per command of the opcode map (30_encoding.md R59). -/

namespace Sys2Proof.Machine

def exec (i : Instr) (s : State) : Host.Outcome State Fault Refusal :=
  match i with
  | .nop => Sys2Proof.Machine.execNop s
  | .rdreg r => Sys2Proof.Machine.execRdreg r s
  | .wrctrl v => Sys2Proof.Machine.execWrctrl v s
  | .clrerr => Sys2Proof.Machine.execClrerr s
  | .softreset => Sys2Proof.Machine.execSoftreset s
  | .leByte b => Sys2Proof.Machine.execLeByte b s
  | .leEnd => Sys2Proof.Machine.execLeEnd s
  | .ldCode c => Sys2Proof.Machine.execLdCode c s
  | .ldByte b => Sys2Proof.Machine.execLdByte b s
  | .ldEnd => Sys2Proof.Machine.execLdEnd s
  | .bpPut c => Sys2Proof.Machine.execBpPut c s
  | .bpFlush => Sys2Proof.Machine.execBpFlush s
  | .buPut b => Sys2Proof.Machine.execBuPut b s
  | .buEnd => Sys2Proof.Machine.execBuEnd s
  | .hfClear => Sys2Proof.Machine.execHfClear s
  | .hfCount b => Sys2Proof.Machine.execHfCount b s
  | .hfSetfreq b count => Sys2Proof.Machine.execHfSetfreq b count s
  | .hfBuild => Sys2Proof.Machine.execHfBuild s
  | .hfEnc b => Sys2Proof.Machine.execHfEnc b s
  | .hfEncend => Sys2Proof.Machine.execHfEncend s
  | .hfDecbits n b => Sys2Proof.Machine.execHfDecbits n b s
  | .hfDecend => Sys2Proof.Machine.execHfDecend s
  | .hfRdfreq b => Sys2Proof.Machine.execHfRdfreq b s
  | .hfRdlen b => Sys2Proof.Machine.execHfRdlen b s
  | .hfRdcode b w => Sys2Proof.Machine.execHfRdcode b w s

end Sys2Proof.Machine
end

