-- ==== Sys2Proof/Machine/HostPort.lean ====
section
/-! DEFINITION. The ports (10_state.md R14 to R18) as the host sees them between two commands, and what a host action does. -/

namespace Sys2Proof.Machine

/-- The value of a tag on `out_tag` (R14, R63). -/
def Tag.number : Tag → BitVec 4
  | .reg => 0
  | .lbyte => 1
  | .code => 2
  | .dbyte => 3
  | .hbyte => 4
  | .hbits => 5
  | .hsym => 6
  | .leDone => 7
  | .ldDone => 8
  | .hdDone => 9
  | .ucode => 10
  | .err => 15

/-- `out_valid`: the output queue is not empty (R16). -/
def outValid (s : State) : Bool := !s.out.isEmpty

/-- `out_tag` and `out_data` while `out_valid = 1`: the oldest word (R16). -/
def outPort (s : State) : Option (BitVec 4 × Word) := s.out.head?.map (fun o => (o.tag.number, o.data))

/-- No whole command waits: the core is not about to execute one. -/
def coreIdle (s : State) : Bool := decide (decode s.cmds = .incomplete)

/-- `cmd_ready` between commands (R15): the core executes none and the output queue, `OUT_DEPTH` words deep in hardware, is not
full. An observation only: in the model `push` never waits (R131, log 8). -/
def cmdReady (s : State) : Bool := coreIdle s && decide (s.out.length < Config.outDepth)

/-- A command word transfers (R15): it joins the command stream. -/
def hostSend (w : Word) (s : State) : State := { s with cmds := s.cmds ++ [w] }

/-- The host takes the oldest output word (R16); with the queue empty `out_valid = 0` and nothing transfers. -/
def hostTake (s : State) : State := { s with out := s.out.drop 1 }

/-- `rst_n` (R18, R125): the reset state; a first word of `HF.SETFREQ` waiting for its second is discarded (R61, R128). What the
host will do afterwards is the host's. -/
def hostReset (s : State) : State := { State.reset with host := s.host }

/-- The effect of one host action. -/
def hostAct (a : HostAct) (s : State) : State :=
  match a with
  | .send w => hostSend w s
  | .take => hostTake s
  | .reset => hostReset s

/-- With no whole command to execute, the host's next action happens; with none, the core is idle and keeps its state (R124). -/
def hostTurn (s : State) : State :=
  match s.host with
  | [] => s
  | a :: rest => hostAct a { s with host := rest }

end Sys2Proof.Machine
end

