-- ==== Sys2Proof/Machine/Step.lean ====
section
/-! DEFINITION. One step: the core executes the command at the head of the stream, whole (00_scope.md R3, 20_memory.md R48, R50);
with none there, the host's next action happens (logs 1 to 3). -/

namespace Sys2Proof.Machine

def step (s : State) : Host.Outcome State Fault Refusal :=
  match decode s.cmds with
  | .instr i rest => exec i { s with cmds := rest }
  | .illegal why opc rest => rejectIllegal why opc { s with cmds := rest }
  | .incomplete => .next (hostTurn s)

/-- `s` with an instruction of the opcode table, given as one number, where `step` takes its next command. -/
def State.withFetchWord (s : State) (nbits w : Nat) : State := placeCommand s nbits w

end Sys2Proof.Machine
end

