-- ==== Sys2Proof/Machine/Assembler.lean ====
section
/-! DEFINITION. The assembler syntax of command streams (30_encoding.md R66) and the pseudo-instructions (R67). -/

namespace Sys2Proof.Machine

/-! ## Operands -/

/-- The operand kinds of R66. -/
inductive OperandKind where
  /-- `b` or `s`, 0..255 -/
  | byte
  /-- `c`, 0..4095 -/
  | code
  /-- `r`, 0..255 or a register name -/
  | reg
  /-- `v`, 0..3 or a name of CTRL's fields -/
  | value
  /-- `n`, 0..15 -/
  | bits
  /-- `w`, 0..7 -/
  | select
  /-- `count`, 0..2^32 - 1 -/
  | count
  deriving DecidableEq, Repr

/-- The largest operand of a kind (R66). -/
def OperandKind.limit : OperandKind → Nat
  | .byte => 255
  | .code => 4095
  | .reg => 255
  | .value => 3
  | .bits => 15
  | .select => 7
  | .count => 2 ^ 32 - 1

/-- The value of a decimal or hexadecimal digit. -/
def digitValue (c : Char) : Option Nat :=
  if '0' ≤ c ∧ c ≤ '9' then some (c.toNat - '0'.toNat)
  else if 'a' ≤ c ∧ c ≤ 'f' then some (c.toNat - 'a'.toNat + 10)
  else if 'A' ≤ c ∧ c ≤ 'F' then some (c.toNat - 'A'.toNat + 10)
  else none

/-- Read digits below `base`, the most significant first, after a number `acc` already read. -/
def readDigits (base : Nat) : Nat → List Char → Option Nat
  | acc, [] => some acc
  | acc, c :: cs =>
    match digitValue c with
    | some d => if d < base then readDigits base (acc * base + d) cs else none
    | none => none

/-- A number: decimal, hexadecimal with `0x`, or a character in single quotes standing for its ASCII byte value (R66, GK2). -/
def readNumber : List Char → Option Nat
  | ['\'', c, '\''] => if c.toNat < 128 then some c.toNat else none
  | '0' :: 'x' :: c :: cs => readDigits 16 0 (c :: cs)
  | c :: cs => readDigits 10 0 (c :: cs)
  | [] => none

/-- The register names of 10_state.md R26. -/
def registerNumber (name : List Char) : Option Nat :=
  match String.ofList name with
  | "ID" => some 0x00
  | "CTRL" => some 0x01
  | "STATUS" => some 0x02
  | "ERRINFO" => some 0x03
  | "LE_NEXT" => some 0x04
  | "LE_CUR" => some 0x05
  | "LE_NCODES" => some 0x06
  | "LD_NEXT" => some 0x07
  | "LD_PREV" => some 0x08
  | "LD_NBYTES" => some 0x09
  | "BP_STATE" => some 0x0A
  | "BU_STATE" => some 0x0B
  | "HF_NLEAVES" => some 0x0C
  | "HF_ROOT" => some 0x0D
  | "HF_BITCOUNT" => some 0x0E
  | "HE_STATE" => some 0x0F
  | "HD_NODE" => some 0x10
  | "HD_NSYMS" => some 0x11
  | _ => none

/-- The names `v` may have (R66). -/
def valueNumber (name : List Char) : Option Nat :=
  match String.ofList name with
  | "LE_RAW" => some 1
  | "IRQ_EN" => some 2
  | "LE_RAW|IRQ_EN" => some 3
  | _ => none

/-- An operand's value; `none`, an assembly error, where it is no operand of the kind or does not fit its field (R66). -/
def readOperand (kind : OperandKind) (text : List Char) : Option Nat :=
  let v := match kind with
    | .reg => (registerNumber text).orElse (fun _ => readNumber text)
    | .value => (valueNumber text).orElse (fun _ => readNumber text)
    | .byte | .code | .bits | .select | .count => readNumber text
  v.filter (fun n => decide (n ≤ kind.limit))

/-! ## One command -/

/-- A byte operand as an instruction takes it. -/
def byteOperand (f : Byte → Instr) (text : List Char) : Option Instr :=
  (readOperand .byte text).map (fun n => f (BitVec.ofNat 8 n))

/-- A code operand as an instruction takes it. -/
def codeOperand (f : Code → Instr) (text : List Char) : Option Instr :=
  (readOperand .code text).map (fun n => f (BitVec.ofNat 12 n))

/-- The command of a mnemonic and its operands (R59, R66). -/
def assemble (mnemonic : List Char) (operands : List (List Char)) : Option Instr :=
  match String.ofList mnemonic, operands with
  | "NOP", [] => some .nop
  | "RDREG", [r] => (readOperand .reg r).map (fun n => .rdreg (BitVec.ofNat 8 n))
  | "WRCTRL", [v] => (readOperand .value v).map (fun n => .wrctrl (BitVec.ofNat 2 n))
  | "CLRERR", [] => some .clrerr
  | "SOFTRESET", [] => some .softreset
  | "LE.BYTE", [b] => byteOperand .leByte b
  | "LE.END", [] => some .leEnd
  | "LD.CODE", [c] => codeOperand .ldCode c
  | "LD.BYTE", [b] => byteOperand .ldByte b
  | "LD.END", [] => some .ldEnd
  | "BP.PUT", [c] => codeOperand .bpPut c
  | "BP.FLUSH", [] => some .bpFlush
  | "BU.PUT", [b] => byteOperand .buPut b
  | "BU.END", [] => some .buEnd
  | "HF.CLEAR", [] => some .hfClear
  | "HF.COUNT", [b] => byteOperand .hfCount b
  | "HF.SETFREQ", [s, count] =>
    (readOperand .byte s).bind (fun n => (readOperand .count count).map (fun v => .hfSetfreq (BitVec.ofNat 8 n) (BitVec.ofNat 32 v)))
  | "HF.BUILD", [] => some .hfBuild
  | "HF.ENC", [b] => byteOperand .hfEnc b
  | "HF.ENCEND", [] => some .hfEncend
  | "HF.DECBITS", [n, b] =>
    (readOperand .bits n).bind (fun k => (readOperand .byte b).map (fun v => .hfDecbits (BitVec.ofNat 4 k) (BitVec.ofNat 8 v)))
  | "HF.DECEND", [] => some .hfDecend
  | "HF.RDFREQ", [s] => byteOperand .hfRdfreq s
  | "HF.RDLEN", [s] => byteOperand .hfRdlen s
  | "HF.RDCODE", [s, w] =>
    (readOperand .byte s).bind (fun n => (readOperand .select w).map (fun v => .hfRdcode (BitVec.ofNat 8 n) (BitVec.ofNat 3 v)))
  | _, _ => none

/-! ## Pseudo-instructions (R67) on their operands -/

/-- `LZW.ENCODE bytes`. -/
def Pseudo.lzwEncode (bytes : List Byte) : List Instr := bytes.map .leByte ++ [.leEnd]

/-- `LZW.DECODE codes`. -/
def Pseudo.lzwDecode (codes : List Code) : List Instr := codes.map .ldCode ++ [.ldEnd]

/-- `LZW.DECODEPACKED bytes`. -/
def Pseudo.lzwDecodePacked (bytes : List Byte) : List Instr := bytes.map .ldByte ++ [.ldEnd]

/-- `PACK codes`. -/
def Pseudo.pack (codes : List Code) : List Instr := codes.map .bpPut ++ [.bpFlush]

/-- `UNPACK bytes`. -/
def Pseudo.unpack (bytes : List Byte) : List Instr := bytes.map .buPut ++ [.buEnd]

/-- `HF.FREQS s0:v0, s1:v1, ...`. -/
def Pseudo.hfFreqs (pairs : List (Byte × Word)) : List Instr :=
  [.hfClear] ++ pairs.map (fun p => .hfSetfreq p.1 p.2) ++ [.hfBuild]

/-- `HF.COUNTMSG bytes`. -/
def Pseudo.hfCountMsg (bytes : List Byte) : List Instr := [.hfClear] ++ bytes.map .hfCount ++ [.hfBuild]

/-- `HF.ENCODE bytes`. -/
def Pseudo.hfEncode (bytes : List Byte) : List Instr := bytes.map .hfEnc ++ [.hfEncend]

/-- The `HF.DECBITS` commands of `HF.DECODE nbits, bytes`: 8 bits of each byte, and the bits left over of the last. -/
def Pseudo.hfDecodeBits : Nat → List Byte → List Instr
  | _, [] => []
  | nbits, b :: bytes =>
    if 8 ≤ nbits then .hfDecbits 8 b :: Pseudo.hfDecodeBits (nbits - 8) bytes
    else [.hfDecbits (BitVec.ofNat 4 nbits) b]

/-- `HF.DECODE nbits, bytes`; an assembly error unless there are `ceil(nbits / 8)` bytes. -/
def Pseudo.hfDecode (nbits : Nat) (bytes : List Byte) : Option (List Instr) :=
  if bytes.length = (nbits + 7) / 8 then some (Pseudo.hfDecodeBits nbits bytes ++ [.hfDecend]) else none

/-! ## Lines -/

/-- Without the spaces at both ends. -/
def trim (cs : List Char) : List Char :=
  ((cs.dropWhile (fun c => c == ' ')).reverse.dropWhile (fun c => c == ' ')).reverse

/-- The double quote, which opens and closes a string (R66). -/
def doubleQuote : Char := Char.ofNat 34

/-- The parts of a text between the separators `sep`, those in quotes or in square brackets aside (log 17); `quoted` and `listed` say
whether the text starts inside a string or a list, `cur` is the part being read, reversed. -/
def splitText (sep : Char) (quoted listed : Bool) (cur : List Char) : List Char → List (List Char)
  | [] => [trim cur.reverse]
  | '\'' :: c :: '\'' :: cs =>
    if quoted then splitText sep quoted listed ('\'' :: cur) (c :: '\'' :: cs)
    else splitText sep quoted listed ('\'' :: c :: '\'' :: cur) cs
  | c :: cs =>
    if c = doubleQuote then splitText sep (!quoted) listed (c :: cur) cs
    else if quoted then splitText sep quoted listed (c :: cur) cs
    else if c = sep ∧ listed = false then trim cur.reverse :: splitText sep quoted listed [] cs
    else splitText sep quoted (if c = '[' then true else if c = ']' then false else listed) (c :: cur) cs

/-- The text before the last character, if that is `close`. -/
def dropClose (close : Char) (text : List Char) : Option (List Char) :=
  if text.getLast? = some close then some text.dropLast else none

/-- The numbers of a list in square brackets, separated by commas, each an operand of `kind` (the form of 95_test_vectors.md,
log 17); a string in double quotes, for its bytes in order, where bytes are expected (R66, GK3). -/
def readList (kind : OperandKind) (text : List Char) : Option (List Nat) :=
  match text with
  | '[' :: cs => (dropClose ']' cs).bind (fun body =>
      if trim body = [] then some [] else (splitText ',' false false [] body).mapM (readOperand kind))
  | c :: cs =>
    if c = doubleQuote ∧ kind = .byte then
      (dropClose doubleQuote cs).bind (fun body => body.mapM (fun x => if x.toNat < 128 then some x.toNat else none))
    else none
  | [] => none

/-- A list of bytes. -/
def readBytes (text : List Char) : Option (List Byte) := (readList .byte text).map (fun ns => ns.map (BitVec.ofNat 8))

/-- A list of codes. -/
def readCodes (text : List Char) : Option (List Code) := (readList .code text).map (fun ns => ns.map (BitVec.ofNat 12))

/-- `s:v`, a symbol and its frequency (R67). -/
def readPair (text : List Char) : Option (Byte × Word) :=
  match splitText ':' false false [] text with
  | [s, v] =>
    (readOperand .byte s).bind (fun n => (readOperand .count v).map (fun k => (BitVec.ofNat 8 n, BitVec.ofNat 32 k)))
  | _ => none

/-- The commands of a mnemonic and its operands: a pseudo-instruction expands to several (R67), any other is one. R66 and R67 give no
range for the `nbits` of `HF.DECODE`; it is read as a `count`, so a value above `2^32 - 1` is an assembly error. DESIGN CHOICE, safe:
log 17. -/
def assembleAll (mnemonic : List Char) (operands : List (List Char)) : Option (List Instr) :=
  match String.ofList mnemonic, operands with
  | "LZW.ENCODE", [bytes] => (readBytes bytes).map Pseudo.lzwEncode
  | "LZW.DECODE", [codes] => (readCodes codes).map Pseudo.lzwDecode
  | "LZW.DECODEPACKED", [bytes] => (readBytes bytes).map Pseudo.lzwDecodePacked
  | "PACK", [codes] => (readCodes codes).map Pseudo.pack
  | "UNPACK", [bytes] => (readBytes bytes).map Pseudo.unpack
  | "HF.FREQS", pairs => (pairs.mapM readPair).map Pseudo.hfFreqs
  | "HF.COUNTMSG", [bytes] => (readBytes bytes).map Pseudo.hfCountMsg
  | "HF.ENCODE", [bytes] => (readBytes bytes).map Pseudo.hfEncode
  | "HF.DECODE", [nbits, bytes] =>
    (readOperand .count nbits).bind (fun n => (readBytes bytes).bind (Pseudo.hfDecode n))
  | _, _ => (assemble mnemonic operands).map (fun i => [i])

/-- The commands of one line (R66): `some []` for a line with none, `none` for an assembly error, which yields no word. `;` starts a
comment, except in quotes (log 17). -/
def assembleLine (line : List Char) : Option (List Instr) :=
  let text := (splitText ';' false false [] line).headD []
  let mnemonic := text.takeWhile (fun c => c != ' ')
  let rest := trim (text.dropWhile (fun c => c != ' '))
  if text = [] then some [] else assembleAll mnemonic (if rest = [] then [] else splitText ',' false false [] rest)

end Sys2Proof.Machine
end

