-- ==== Sys2Proof/Machine/Reference.lean ====
section
/-! DEFINITION. The document's functions on whole inputs, which the commands compute one step at a time: LZW_encode
(40_lzw_encoder.md R68), LZW_decode (41_lzw_decoder.md R74), the packed streams (20_memory.md R44, R45), HF_encode and HF_decode
(44_huffman_coder.md R102). No command calls them; statements compare the machine with them. DESIGN
CHOICE, safe: log 18. -/

namespace Sys2Proof.Machine

/-! ## The dictionary codec. A dictionary is the list of the strings learned, the string of code `256 + j` at place `j`. -/

/-- `D(t)`, the code of a string, if it is a key: a singleton's code is its byte (R68). -/
def codeOfString (learned : List (List Byte)) (t : List Byte) : Option Nat :=
  match t with
  | [b] => some b.toNat
  | _ => (learned.findIdx? (fun u => u == t)).map (fun j => Config.nsym + j)

/-- The strings learned after one more, "only if capacity (4096) is not exhausted" (R68, R74). -/
def learn (learned : List (List Byte)) (t : List Byte) : List (List Byte) :=
  if Config.nsym + learned.length < Config.dictCap then learned ++ [t] else learned

/-- The loop of `LZW_encode` (R68) with the strings learned and the accumulator `cur`: the codes of the rest of the input. -/
def lzwEncodeFrom (learned : List (List Byte)) (cur : List Byte) : List Byte → List Code
  | [] => if cur = [] then [] else [BitVec.ofNat 12 ((codeOfString learned cur).getD 0)]
  | x :: xs =>
    if (codeOfString learned (cur ++ [x])).isSome then lzwEncodeFrom learned (cur ++ [x]) xs
    else BitVec.ofNat 12 ((codeOfString learned cur).getD 0) :: lzwEncodeFrom (learn learned (cur ++ [x])) [x] xs

/-- `LZW_encode(input)` (R68). -/
def lzwEncode (input : List Byte) : List Code := lzwEncodeFrom [] [] input

/-- `D(c)`, the string of a code below the next code (R74). -/
def stringOfCode (learned : List (List Byte)) (c : Code) : Option (List Byte) :=
  if c.toNat < Config.nsym then some [c.setWidth 8] else learned[c.toNat - Config.nsym]?

/-- The entry a code after the first resolves to: an existing one, or the self-referential case (R74). -/
def resolveCode (learned : List (List Byte)) (prev : List Byte) (c : Code) : Option (List Byte) :=
  if c.toNat < Config.nsym + learned.length then stringOfCode learned c
  else if c.toNat = Config.nsym + learned.length then some (prev ++ prev.take 1)
  else none

/-- The loop of `LZW_decode` (R74) after the first code; the error is the code of `DecodeError`. -/
def lzwDecodeFrom (learned : List (List Byte)) (prev : List Byte) : List Code → Except Code (List Byte)
  | [] => .ok []
  | c :: cs =>
    match resolveCode learned prev c with
    | none => .error c
    | some entry => (lzwDecodeFrom (learn learned (prev ++ entry.take 1)) entry cs).map (fun out => entry ++ out)

/-- `LZW_decode(codes)` (R74): the first code must be a singleton (D10). -/
def lzwDecode : List Code → Except Code (List Byte)
  | [] => .ok []
  | c :: cs =>
    if c.toNat < Config.nsym then (lzwDecodeFrom [] [c.setWidth 8] cs).map (fun out => c.setWidth 8 :: out) else .error c

/-! ## Packed streams -/

/-- Bit `j` of a bit string is bit `j mod 8` of byte `floor(j / 8)`; the last byte is padded with zero bits (R44, R45). -/
def bytesOfBits (bits : List Bool) : List Byte :=
  (List.range ((bits.length + 7) / 8)).map (fun k => BitVec.ofNat 8 (bitsValue ((bits.drop (8 * k)).take 8)))

/-- The packed stream of a code sequence: code `i` in bits `12i` to `12i + 11`, least significant bit first (R44). -/
def packedCodes (codes : List Code) : List Byte := bytesOfBits (codes.flatMap (lowBits 12))

/-- The 12-bit groups of a packed stream; a trailing smaller group is discarded (R82, R87). -/
def unpackedCodes (bytes : List Byte) : List Code :=
  (List.range (8 * bytes.length / 12)).map
    (fun k => BitVec.ofNat 12 (bitsValue (((bytes.flatMap (lowBits 8)).drop (12 * k)).take 12)))

/-! ## The entropy codec -/

/-- `HF_encode(message, codebook)` (R102). -/
def hfEncodeBits (u : HtUnit) (message : List Byte) : List Bool := message.flatMap (fun b => u.codeOf b.toNat)

/-- The child of the arena node `pos` on `bit` (R91, R102): left on 0, right on 1. -/
def childOf (u : HtUnit) (pos : Option NodeIdx) (bit : Bool) : Option NodeIdx :=
  pos.bind (fun i => (u.nodeAt i).bind (fun e => if bit then e.right else e.left))

/-- The symbols that bits lead to from `pos`, and where they end; `none` if a bit leads to no node (R102). -/
def traverse (u : HtUnit) : Option NodeIdx → List Bool → Option (List Byte × Option NodeIdx)
  | pos, [] => some ([], pos)
  | pos, bit :: bits =>
    match childOf u pos bit with
    | none => none
    | some c =>
      if c.toNat < Config.nsym then (traverse u u.root bits).map (fun r => (c.setWidth 8 :: r.1, r.2))
      else traverse u (some c) bits

/-- `HF_decode(bits, tree)` (R102): `none` is `MalformedStreamError`. -/
def hfDecodeBits (u : HtUnit) (bits : List Bool) : Option (List Byte) :=
  (traverse u u.root bits).bind (fun r => if r.2 = u.root then some r.1 else none)

end Sys2Proof.Machine
end

