-- ==== Sys2Proof/Safety.lean ====
section
/-! DEFINITION. What a safe run is, in the terms the statements use: the invariants the spec gives for each unit (10_state.md R27 to
R34), that an outcome is a next state, and sequences of commands. -/

namespace Sys2Proof.Machine

/-- The outcome is a next state: no fault and no refusal. -/
def Completes (o : Host.Outcome State Fault Refusal) : Prop := ∃ t, o = .next t

/-- Commands executed in order, stopping at a fault or a refusal (R3). -/
def execAll : List Instr → State → Host.Outcome State Fault Refusal
  | [], s => .next s
  | i :: is, s =>
    match exec i s with
    | .next t => execAll is t
    | .fault f => .fault f
    | .refused r => .refused r

/-! ## Unit invariants -/

/-- An error is latched exactly while one is pending (R25, R111): `ERR_MULTI` only then, `ERRINFO` 0 otherwise. -/
structure HiInv (u : HiUnit) : Prop where
  multi : u.errMulti = true → u.errPending = true
  clear : u.errPending = false → u.errinfo = 0

/-- LE (R27, R38, R43): the range of the next code; a valid accumulator names an entry; prefixes are smaller; no two entries are
equal; between calls the unit is fresh; the dictionary's form. -/
structure LeInv (u : LeUnit) : Prop where
  next_lo : 256 ≤ u.next.toNat
  next_hi : u.next.toNat ≤ 4096
  cur : u.curValid = true → u.cur.toNat < u.next.toNat
  pre : ∀ k, 256 ≤ k → k < u.next.toNat → (u.entry k).pre.toNat < k
  distinct : ∀ j k, 256 ≤ j → j < k → k < u.next.toNat → u.entry j ≠ u.entry k
  fresh : u.curValid = false → u.cur = 0 ∧ u.next = 256 ∧ u.ncodes = 0
  form : Memory.wf LeEntry.blank u.dict = true ∧ Memory.within 256 4095 u.dict = true

/-- LD (R28, R39): the range of the next code; a valid previous code names an entry; prefixes are smaller, `first` and `len` are
those of the string; between calls the unit is fresh; the dictionary's form. -/
structure LdInv (u : LdUnit) : Prop where
  next_lo : 256 ≤ u.next.toNat
  next_hi : u.next.toNat ≤ 4096
  prev : u.prevValid = true → u.prev.toNat < u.next.toNat
  pre : ∀ k, 256 ≤ k → k < u.next.toNat → (u.entry k).pre.toNat < k
  first : ∀ k, 256 ≤ k → k < u.next.toNat → (u.entry k).first = u.firstOf (u.entry k).pre
  len : ∀ k, 256 ≤ k → k < u.next.toNat → (u.entry k).len.toNat = (u.lenOf (u.entry k).pre).toNat + 1
  fresh : u.prevValid = false → u.prev = 0 ∧ u.next = 256 ∧ u.nbytes = 0
  form : Memory.wf LdEntry.blank u.dict = true ∧ Memory.within 256 4095 u.dict = true

/-- BP (R29): the buffer holds `n` bits. -/
structure BpInv (u : BpUnit) : Prop where
  buf : u.buf.toNat < 2 ^ u.n.toNat

/-- BU (R29): the buffer holds `n` bits, at most 11. -/
structure BuInv (u : BuUnit) : Prop where
  n : u.n.toNat ≤ 11
  buf : u.buf.toNat < 2 ^ u.n.toNat

/-- `i` is NONE or an internal node (R31). -/
def internalOrNone (i : Option NodeIdx) : Prop := ∀ v, i = some v → 256 ≤ v.toNat ∧ v.toNat ≤ 510

/-- `i` is NONE or an index of the arena (R31). -/
def inArena (i : Option NodeIdx) : Prop := ∀ v, i = some v → v.toNat ≤ 510

/-- HT (R30, R31, R32): the root is NONE or an internal node; children are NONE or in the arena; bits at and above a code's length
are 0; the memories' form. -/
structure HtInv (u : HtUnit) : Prop where
  nleaves : u.nleaves.toNat ≤ 256
  root : internalOrNone u.root
  left : ∀ k, inArena (u.node.read Node.blank k).left
  right : ∀ k, inArena (u.node.read Node.blank k).right
  code : ∀ s, (u.bitsOf s).toNat < 2 ^ (u.lenOf s).toNat
  freqForm : Memory.wf 0 u.freq = true ∧ Memory.within 0 255 u.freq = true
  nodeForm : Memory.wf Node.blank u.node = true ∧ Memory.within 256 510 u.node = true
  lenForm : Memory.wf 0 u.codeLen = true ∧ Memory.within 0 255 u.codeLen = true
  bitsForm : Memory.wf 0 u.codeBits = true ∧ Memory.within 0 255 u.codeBits = true

/-- HE (R33): the buffer holds `n` bits. -/
structure HeInv (u : HeUnit) : Prop where
  buf : u.buf.toNat < 2 ^ u.n.toNat

/-- HD (R34, R100): the engine stands at NONE or an internal node, never at a leaf. -/
structure HdInv (u : HdUnit) : Prop where
  pos : internalOrNone u.pos

/-- The invariant of the machine: every unit's. -/
structure MachineInv (s : State) : Prop where
  hi : HiInv s.hi
  le : LeInv s.le
  ld : LdInv s.ld
  bp : BpInv s.bp
  bu : BuInv s.bu
  ht : HtInv s.ht
  he : HeInv s.he
  hd : HdInv s.hd

/-! ## Fresh units and reset values -/

/-- LE is in its fresh state (R27); the dictionary entries may be anything. -/
def LeFresh (u : LeUnit) : Prop := u.curValid = false ∧ u.cur = 0 ∧ u.next = 256 ∧ u.ncodes = 0

/-- LD is in its fresh state (R28); the dictionary entries may be anything. -/
def LdFresh (u : LdUnit) : Prop := u.prevValid = false ∧ u.prev = 0 ∧ u.next = 256 ∧ u.nbytes = 0

/-- Every field that has a reset value has it (R127), `cp` and the output queue aside; the entries the rule calls unspecified may be
anything. -/
structure ResetValues (s : State) : Prop where
  hi : s.hi = ⟨false, false, false, false, 0⟩
  le : LeFresh s.le
  ld : LdFresh s.ld
  bp : s.bp = ⟨0, 0⟩
  bu : s.bu = ⟨0, 0⟩
  freq : ∀ b : Byte, s.ht.freqOf b.toNat = 0
  treeValid : s.ht.treeValid = false
  nleaves : s.ht.nleaves = 0
  root : s.ht.root = none
  he : s.he = ⟨0, 0, 0⟩
  hd : s.hd = ⟨none, 0⟩

/-! ## Strings of the decoder's dictionary -/

/-- `String_LD(k) = t` (R39): a singleton names its byte; an entry names its prefix's string and its byte. -/
inductive LdNames (u : LdUnit) : Nat → List Byte → Prop where
  | singleton (k : Nat) (h : k < 256) : LdNames u k [BitVec.ofNat 8 k]
  | entry (k : Nat) (t : List Byte) (lo : 256 ≤ k) (hi : k < u.next.toNat) (h : LdNames u (u.entry k).pre.toNat t) :
      LdNames u k (t ++ [(u.entry k).byte])

end Sys2Proof.Machine
end

