-- ==== Sys2Proof/WellFormed.lean ====
section
/-! DEFINITION. Which commands have every field in range. The widths of the fields are in the types of `Instr`; the two range
checks of the spec are left (30_encoding.md R62, last paragraph; 93_implementation_defined.md U6). A command that fails its
check still decodes and still has a meaning: it raises `E_ILLEGAL` with INFO = 2. The assembler's operand ranges (R66) are
checked in Machine/Assembler.lean, before there is a command. -/

namespace Sys2Proof

/-- `r` is an assigned register number, `0x00` to `0x11` (R26, R105). -/
def registerAssigned (r : BitVec 8) : Bool := decide (r.toNat ≤ 0x11)

/-- `n` is a bit count that one byte can hold, 0 to 8 (R100). -/
def bitCountLegal (n : BitVec 4) : Bool := decide (n.toNat ≤ 8)

/-- Every field is in its range (R62, U6). -/
def Instr.wf : Instr → Bool
  | .rdreg r => registerAssigned r
  | .hfDecbits n _ => bitCountLegal n
  | .nop => true
  | .wrctrl _ => true
  | .clrerr => true
  | .softreset => true
  | .leByte _ => true
  | .leEnd => true
  | .ldCode _ => true
  | .ldByte _ => true
  | .ldEnd => true
  | .bpPut _ => true
  | .bpFlush => true
  | .buPut _ => true
  | .buEnd => true
  | .hfClear => true
  | .hfCount _ => true
  | .hfSetfreq _ _ => true
  | .hfBuild => true
  | .hfEnc _ => true
  | .hfEncend => true
  | .hfDecend => true
  | .hfRdfreq _ => true
  | .hfRdlen _ => true
  | .hfRdcode _ _ => true

end Sys2Proof
end

