-- ==== Sys2Proof/Certificates/Slice0/Obligations.lean ====
section
/-! DEFINITION. The statements for the provers, from the spec's numbered rules. Where a statement is an equation
`exec i s = .next { s with … }`, it says the result, the completion and the frame at once: every field not named is unchanged, the
internal memories among them. -/

open Sys2Proof Sys2Proof.Machine

/-! ## Reset, invariant, decoding, step -/

/-- R127: the reset state S0: every field at its reset value, the output queue empty, what the 18 registers of R26 read, and `irq` = 0. -/
def Obligations.ResetStateIsTheSpecs : Prop :=
  ResetValues State.reset ∧ State.reset.cp = 0 ∧ State.reset.out = [] ∧ irq State.reset = false ∧
    (List.range 18).map (fun r => regValue (BitVec.ofNat 8 r) State.reset) =
      [some 0x41454432, some 0, some 0x40, some 0, some 256, some 0, some 0, some 256, some 0,
        some 0, some 0, some 0, some 0, some 0, some 0, some 0, some 0, some 0]

/-- The reset state meets the invariant (R27 to R34). That its memories list nothing is the model's choice (log 6). -/
def Obligations.ResetMeetsInvariant : Prop := MachineInv State.reset

/-- Every step keeps the invariant (R27 to R34), host actions and illegal words among them. The canonical form of the memories in it is
the model's own (log 16). -/
def Obligations.StepKeepsInvariant : Prop := ∀ s t, MachineInv s → step s = .next t → MachineInv t

/-- Under the invariant no step faults or refuses: nothing ends a run (R113, R133). -/
def Obligations.StepNeverStopsUnderInvariant : Prop := ∀ s, MachineInv s → ∃ t, step s = .next t

/-- Decoding an encoded command gives it back, with every operand at every value (R55 to R57, R61). -/
def Obligations.DecodeOfEncode : Prop := ∀ i rest, decode (encode i ++ rest) = .instr i rest

/-- A word sequence that decodes to a command is that command's encoding: no other words mean it (R58 to R62). -/
def Obligations.EncodeOfDecode : Prop := ∀ ws i rest, decode ws = .instr i rest → ws = encode i ++ rest

/-- Words written out in 95_test_vectors.md decode to the command they stand for, one or more of each family. -/
def Obligations.SpecWordsDecode : Prop :=
  decode [0x00000000] = .instr .nop [] ∧ decode [0x01000002] = .instr (.rdreg 2) [] ∧
    decode [0x02000003] = .instr (.wrctrl 3) [] ∧ decode [0x10000041] = .instr (.leByte 0x41) [] ∧
    decode [0x18000100] = .instr (.ldCode 0x100) [] ∧ decode [0x20000ABC] = .instr (.bpPut 0xABC) [] ∧
    decode [0x280000BC] = .instr (.buPut 0xBC) [] ∧
    decode [0x32000066, 0x0000002D] = .instr (.hfSetfreq 0x66 45) [] ∧
    decode [0x36000201] = .instr (.hfDecbits 2 0x01) [] ∧ decode [0x3A000161] = .instr (.hfRdcode 0x61 1) []

/-- `match` (as an opcode) and `mask` of each row of spec/opcode_table.json. -/
def specRows : List (BitVec 8 × Word) :=
  [(0x00, 0xFFFFFFFF), (0x01, 0xFFFFFF00), (0x02, 0xFFFFFFFC), (0x03, 0xFFFFFFFF), (0x04, 0xFFFFFFFF),
    (0x10, 0xFFFFFF00), (0x11, 0xFFFFFFFF), (0x18, 0xFFFFF000), (0x19, 0xFFFFFF00), (0x1A, 0xFFFFFFFF),
    (0x20, 0xFFFFF000), (0x21, 0xFFFFFFFF), (0x28, 0xFFFFFF00), (0x29, 0xFFFFFFFF), (0x30, 0xFFFFFFFF)] ++
  [(0x31, 0xFFFFFF00), (0x32, 0xFFFFFF00), (0x33, 0xFFFFFFFF), (0x34, 0xFFFFFF00), (0x35, 0xFFFFFFFF),
    (0x36, 0xFFFFF000), (0x37, 0xFFFFFFFF), (0x38, 0xFFFFFF00), (0x39, 0xFFFFFF00), (0x3A, 0xFFFFF800)]

/-- R62: every word is an illegal one with its name, or a command of its opcode's length; only `HF.SETFREQ` waits for a word.
Two readings are the model's, both DEDUCED: that the mask test is `w AND mask`, where R62 prints a NOT (log 4), and that an `HF.SETFREQ`
whose first word is illegal also waits for its second word before it is judged (log 5). -/
def Obligations.DecodeIsTotalAndNamed : Prop :=
  decode [] = .incomplete ∧
    (∀ (w : Word) (ws : List Word), opcField w ∉ specRows.map Prod.fst →
      decode (w :: ws) = .illegal .unassignedOpcode (opcField w) ws) ∧
    (∀ (w w2 : Word) (ws : List Word) (mask : Word), (opcField w, mask) ∈ specRows →
      w &&& mask ≠ BitVec.ofNat 32 ((opcField w).toNat * 2 ^ 24) →
      (opcField w ≠ 0x32 → decode (w :: ws) = .illegal .reservedBits (opcField w) ws) ∧
      (opcField w = 0x32 → decode (w :: w2 :: ws) = .illegal .reservedBits 0x32 ws ∧ decode [w] = .incomplete)) ∧
    (∀ (w w2 : Word) (ws : List Word) (mask : Word), (opcField w, mask) ∈ specRows →
      w &&& mask = BitVec.ofNat 32 ((opcField w).toNat * 2 ^ 24) →
      (opcField w ≠ 0x32 → ∃ i, decode (w :: ws) = .instr i ws ∧ i.opcode = opcField w) ∧
      (opcField w = 0x32 → decode (w :: w2 :: ws) = .instr (.hfSetfreq (byteField w) w2) ws ∧ decode [w] = .incomplete))

/-- A step runs the command at the head of the stream, on the state without its words (R3, R48). That the stream stands in State is the
model's choice (log 1). -/
def Obligations.StepRunsTheDecodedCommand : Prop :=
  ∀ s i rest, s.cmds = encode i ++ rest → step s = exec i { s with cmds := rest }

/-- R58 and R60: an unassigned opcode raises `E_ILLEGAL` with INFO = 0, a reserved bit with INFO = 1; the word is consumed (two
words if the opcode is 0x32), the error is latched and pushed, and nothing else changes. -/
def Obligations.StepRejectsIllegalWords : Prop :=
  ∀ s w ws,
    (s.cmds = w :: ws → opcField w ∉ specRows.map Prod.fst →
      step s = .next { s with
        cmds := ws
        cp := s.cp + 1
        hi := s.hi.record (BitVec.ofNat 32 ((opcField w).toNat * 2 ^ 8 + 1))
        out := s.out ++ [⟨.err, BitVec.ofNat 32 ((opcField w).toNat * 2 ^ 8 + 1)⟩] }) ∧
    (∀ mask, s.cmds = w :: ws → (opcField w, mask) ∈ specRows → opcField w ≠ 0x32 →
      w &&& mask ≠ BitVec.ofNat 32 ((opcField w).toNat * 2 ^ 24) →
      step s = .next { s with
        cmds := ws
        cp := s.cp + 1
        hi := s.hi.record (BitVec.ofNat 32 (2 ^ 16 + (opcField w).toNat * 2 ^ 8 + 1))
        out := s.out ++ [⟨.err, BitVec.ofNat 32 (2 ^ 16 + (opcField w).toNat * 2 ^ 8 + 1)⟩] }) ∧
    (∀ w2, s.cmds = w :: w2 :: ws → opcField w = 0x32 → w &&& 0xFFFFFF00 ≠ 0x32000000 →
      step s = .next { s with
        cmds := ws
        cp := s.cp + 2
        hi := s.hi.record 0x00013201
        out := s.out ++ [⟨.err, 0x00013201⟩] })

/-- With no whole command, the host's next action happens: a word joins the stream (R15), the oldest output word leaves (R16), or
the machine is reset and a waiting word discarded (R125); with none, the core keeps all its state (R124). The model's own: the order
in which the actions happen (log 2); that an idle step, and a take from an empty queue, change nothing (log 3); and that the reset
empties the dictionaries, the arena and the codebook, whose contents R126 leaves unspecified (log 7). -/
def Obligations.StepWithoutACommandIsTheHosts : Prop :=
  ∀ s, decode s.cmds = .incomplete →
    (s.host = [] → step s = .next s) ∧
    (∀ w acts, s.host = .send w :: acts → step s = .next { s with cmds := s.cmds ++ [w], host := acts }) ∧
    (∀ acts, s.host = .take :: acts → step s = .next { s with out := s.out.tail, host := acts }) ∧
    (∀ acts, s.host = .reset :: acts → step s = .next { State.reset with host := acts })

/-- R21, R62, R64: a command moves the command pointer by its length and by nothing else, and consumes exactly those words.
That the words not yet consumed stand in State is the model's choice (log 1). -/
def Obligations.CommandPointerCountsWords : Prop :=
  (∀ i s t, exec i s = .next t → t.cp = s.cp + (encode i).length ∧ t.cmds = s.cmds ∧ t.host = s.host) ∧
    ∀ s t, decode s.cmds ≠ .incomplete → step s = .next t →
      t.cp + t.cmds.length = s.cp + s.cmds.length ∧ s.cp < t.cp ∧ t.host = s.host

/-- R49: a command only appends to the output queue; only the host takes words away. -/
def Obligations.OutputOnlyGrows : Prop := ∀ i s t, exec i s = .next t → s.out <+: t.out

/-! ## Host interface -/

/-- R104: `NOP` changes only the command pointer. -/
def Obligations.NopOnlyAdvances : Prop := ∀ s, exec .nop s = .next { s with cp := s.cp + 1 }

/-- The value of a register as a number, from the table of R26 and the fields of R22 to R25. -/
def specRegister (s : State) : Nat → Nat
  | 0x00 => 0x41454432
  | 0x01 => s.hi.leRaw.toNat + 2 * s.hi.irqEn.toNat
  | 0x02 =>
    s.hi.errPending.toNat + 2 * s.hi.errMulti.toNat + 4 * (s.hi.errPending && s.hi.irqEn).toNat + 8 * s.le.curValid.toNat +
      16 * s.ld.prevValid.toNat + 32 * s.ht.treeValid.toNat + (if s.hd.pos = s.ht.root then 64 else 0) +
      (if s.le.next.toNat = 4096 then 128 else 0) + (if s.ld.next.toNat = 4096 then 256 else 0)
  | 0x03 => s.hi.errinfo.toNat
  | 0x04 => s.le.next.toNat
  | 0x05 => if s.le.curValid then 2 ^ 31 + s.le.cur.toNat else 0
  | 0x06 => s.le.ncodes.toNat
  | 0x07 => s.ld.next.toNat
  | 0x08 => if s.ld.prevValid then 2 ^ 31 + s.ld.prev.toNat else 0
  | 0x09 => s.ld.nbytes.toNat
  | 0x0A => s.bp.buf.toNat * 2 ^ 16 + s.bp.n.toNat
  | 0x0B => s.bu.buf.toNat * 2 ^ 16 + s.bu.n.toNat
  | 0x0C => s.ht.nleaves.toNat
  | 0x0D => match s.ht.root with
    | none => 0
    | some i => 2 ^ 31 + i.toNat
  | 0x0E => s.he.bitcount.toNat
  | 0x0F => s.he.buf.toNat * 2 ^ 16 + s.he.n.toNat
  | 0x10 => match s.hd.pos with
    | none => 0
    | some i => 2 ^ 31 + i.toNat
  | 0x11 => s.hd.nsyms.toNat
  | _ => 0

/-- R105, with the table of R26 and STATUS of R23: `RDREG r` pushes the register's value and changes nothing else; an unassigned
number raises `E_ILLEGAL` with INFO = 2. -/
def Obligations.RdregPushesTheRegister : Prop :=
  ∀ r s,
    (r.toNat ≤ 0x11 →
      exec (.rdreg r) s =
        .next { s with cp := s.cp + 1, out := s.out ++ [⟨.reg, BitVec.ofNat 32 (specRegister s r.toNat)⟩] }) ∧
    (0x11 < r.toNat →
      exec (.rdreg r) s = .next { s with
        cp := s.cp + 1
        hi := s.hi.record 0x00020101
        out := s.out ++ [⟨.err, 0x00020101⟩] })

/-- R106: `WRCTRL v` writes both fields of CTRL, and `irq` follows at once. -/
def Obligations.WrctrlWritesControl : Prop :=
  ∀ v s, ∃ t, exec (.wrctrl v) s = .next t ∧
    t = { s with cp := s.cp + 1, hi := { s.hi with leRaw := v.getLsbD 0, irqEn := v.getLsbD 1 } } ∧
    irq t = (s.hi.errPending && v.getLsbD 1)

/-- R107: `CLRERR` clears both flags and ERRINFO, `irq` falls, and neither the queue nor a unit changes. -/
def Obligations.ClrerrAcknowledges : Prop :=
  ∀ s, ∃ t, exec .clrerr s = .next t ∧
    t = { s with cp := s.cp + 1, hi := { s.hi with errPending := false, errMulti := false, errinfo := 0 } } ∧ irq t = false

/-- R108, R128: `SOFTRESET` gives every field its reset value, keeps the output queue and its order, and advances the command
pointer by 1; it reports no error. The words the host still offers stay (log 1). -/
def Obligations.SoftresetKeepsTheQueue : Prop :=
  ∀ s, ∃ t, exec .softreset s = .next t ∧ ResetValues t ∧ t.out = s.out ∧ t.cp = s.cp + 1 ∧ t.cmds = s.cmds ∧ t.host = s.host

/-! ## Errors and the interrupt -/

/-- R111: the end of a command that raises. The first error is latched, a later one sets only ERR_MULTI, every one pushes its word
`INFO * 2^16 + OPC * 2^8 + CODE`, and `cp` advances by the command's length; nothing else changes. -/
def Obligations.RaiseRecordsTheError : Prop :=
  ∀ (i : Instr) (e : ErrorKind) (info : BitVec 16) (s : State) (word : Word),
    word = BitVec.ofNat 32 (info.toNat * 2 ^ 16 + i.opcode.toNat * 2 ^ 8 + e.code.toNat) →
    complete i (.error e info s) = .next { s with
      cp := s.cp + (encode i).length
      hi := if s.hi.errPending then { s.hi with errMulti := true } else { s.hi with errPending := true, errinfo := word }
      out := s.out ++ [⟨.err, word⟩] }

/-- R25, R117: while an error is pending, no command but `CLRERR` and `SOFTRESET` changes ERRINFO or clears a flag. -/
def Obligations.FirstErrorIsKept : Prop :=
  ∀ i s t, s.hi.errPending = true → i ≠ .clrerr → i ≠ .softreset → exec i s = .next t →
    t.hi.errPending = true ∧ t.hi.errinfo = s.hi.errinfo ∧ (s.hi.errMulti = true → t.hi.errMulti = true)

/-- R110, R112, R114: a command pushes at most one ERR word, and last; the word carries the command's opcode and a code 1 to 6, and
the error flags change only with it (the acknowledging commands aside). -/
def Obligations.AtMostOneErrorWordAndLast : Prop :=
  ∀ i s t, exec i s = .next t →
    (∃ ws, t.out = s.out ++ ws ∧ (∀ o ∈ ws, o.tag ≠ .err) ∧
      (i ≠ .clrerr → i ≠ .softreset → t.hi.errPending = s.hi.errPending ∧ t.hi.errMulti = s.hi.errMulti ∧
        t.hi.errinfo = s.hi.errinfo)) ∨
    (∃ ws data, t.out = s.out ++ ws ++ [⟨.err, data⟩] ∧ (∀ o ∈ ws, o.tag ≠ .err) ∧
      (data.extractLsb' 8 8 : BitVec 8) = i.opcode ∧ 1 ≤ (data.extractLsb' 0 8 : BitVec 8).toNat ∧
      (data.extractLsb' 0 8 : BitVec 8).toNat ≤ 6 ∧ t.hi.errPending = true ∧
      (s.hi.errPending = true → t.hi.errMulti = true))

/-- R62 and U6: exactly the commands with a field out of range are illegal, with INFO = 2, and such a command changes only the error
state and the queue. -/
def Obligations.IllFormedCommandsAreIllegal : Prop :=
  ∀ i s,
    (i.wf = false → exec i s = .next { s with
      cp := s.cp + 1
      hi := s.hi.record (BitVec.ofNat 32 (2 * 2 ^ 16 + i.opcode.toNat * 2 ^ 8 + 1))
      out := s.out ++ [⟨.err, BitVec.ofNat 32 (2 * 2 ^ 16 + i.opcode.toNat * 2 ^ 8 + 1)⟩] }) ∧
    (i.wf = true → ∀ t, exec i s = .next t → ∃ ws, t.out = s.out ++ ws ∧
      ∀ o ∈ ws, o.tag = .err → (o.data.extractLsb' 0 8 : BitVec 8) ≠ 1)

/-- R115, R17: `irq` is the level ERR_PENDING AND IRQ_EN; an error raises it if it is enabled, and it is never raised while masked. -/
def Obligations.IrqIsALevel : Prop :=
  (∀ s, irq s = true ↔ s.hi.errPending = true ∧ s.hi.irqEn = true) ∧
    (∀ i e info s t, complete i (.error e info s) = .next t → irq t = s.hi.irqEn)

/-! ## Dictionary encoder -/

/-- R70: the first byte of a call emits nothing and becomes the accumulator; where `cur ++ [b]` is a key, the accumulator becomes its
code. Nothing else changes in either case. -/
def Obligations.LeByteAccumulates : Prop :=
  ∀ b s,
    (s.le.curValid = false → exec (.leByte b) s =
      .next { s with cp := s.cp + 1, le := { s.le with curValid := true, cur := BitVec.ofNat 12 b.toNat } }) ∧
    (∀ k, LeInv s.le → s.le.curValid = true → 256 ≤ k → k < s.le.next.toNat → s.le.entry k = ⟨s.le.cur, b⟩ →
      exec (.leByte b) s = .next { s with cp := s.cp + 1, le := { s.le with cur := BitVec.ofNat 12 k } })

/-- R70, R71: where `cur ++ [b]` is no key, the code of `cur` is emitted (as a CODE word if LE_RAW, else exactly as `BP.PUT` packs it)
and counted, `(cur, b)` is inserted at the next code unless the dictionary is full, and the accumulator restarts at `b`. -/
def Obligations.LeByteMissEmitsAndInserts : Prop :=
  ∀ b s, s.le.curValid = true → (∀ k, 256 ≤ k → k < s.le.next.toNat → s.le.entry k ≠ ⟨s.le.cur, b⟩) →
    ∃ t, exec (.leByte b) s = .next t ∧
      t = { s with cp := s.cp + 1, le := t.le, bp := t.bp, out := t.out } ∧
      t.le.curValid = true ∧ t.le.cur = BitVec.ofNat 12 b.toNat ∧ t.le.ncodes = s.le.ncodes + 1 ∧
      (s.le.next.toNat < 4096 → t.le.next.toNat = s.le.next.toNat + 1 ∧
        ∀ j, t.le.entry j = if j = s.le.next.toNat then ⟨s.le.cur, b⟩ else s.le.entry j) ∧
      (4096 ≤ s.le.next.toNat → t.le.next = s.le.next ∧ t.le.dict = s.le.dict) ∧
      (s.hi.leRaw = true → t.bp = s.bp ∧ t.out = s.out ++ [⟨.code, BitVec.ofNat 32 s.le.cur.toNat⟩]) ∧
      (s.hi.leRaw = false → ∃ u, exec (.bpPut s.le.cur) s = .next u ∧ t.bp = u.bp ∧ t.out = u.out)

/-- R72: `LE.END` emits the accumulator if there is one, flushes the packer in packed mode, reports the number of codes and makes LE
fresh; the dictionary entries stay. In packed mode the pushed bytes are those of `BP.PUT` and `BP.FLUSH`. -/
def Obligations.LeEndFlushesAndReports : Prop :=
  ∀ s, ∃ t, exec .leEnd s = .next t ∧
    t = { s with cp := s.cp + 1, le := { s.le with curValid := false, cur := 0, next := 256, ncodes := 0 }, bp := t.bp, out := t.out } ∧
    (s.hi.leRaw = true → t.bp = s.bp) ∧
    (s.hi.leRaw = true → s.le.curValid = true →
      t.out = s.out ++ [⟨.code, BitVec.ofNat 32 s.le.cur.toNat⟩, ⟨.leDone, s.le.ncodes + 1⟩]) ∧
    (s.hi.leRaw = true → s.le.curValid = false → t.out = s.out ++ [⟨.leDone, s.le.ncodes⟩]) ∧
    (s.hi.leRaw = false → s.le.curValid = true → ∃ u, execAll [.bpPut s.le.cur, .bpFlush] s = .next u ∧ t.bp = u.bp ∧
      t.out = u.out ++ [⟨.leDone, s.le.ncodes + 1⟩]) ∧
    (s.hi.leRaw = false → s.le.curValid = false → ∃ u, exec .bpFlush s = .next u ∧ t.bp = u.bp ∧
      t.out = u.out ++ [⟨.leDone, s.le.ncodes⟩])

/-- R68, R69: in raw mode an encode call from a fresh LE pushes exactly the codes of `LZW_encode(input)`, whatever the dictionary
memory held before, then their number; it leaves LE fresh and every other unit alone. -/
def Obligations.RawEncodeCallIsLzwEncode : Prop :=
  ∀ s input, s.hi.leRaw = true → LeFresh s.le →
    ∃ t, execAll (Pseudo.lzwEncode input) s = .next t ∧
      t.out = s.out ++ (lzwEncode input).map (fun c => ⟨.code, BitVec.ofNat 32 c.toNat⟩) ++
        [⟨.leDone, BitVec.ofNat 32 (lzwEncode input).length⟩] ∧
      LeFresh t.le ∧ t = { s with cp := s.cp + input.length + 1, le := t.le, out := t.out }

/-- R68, R69, R44: in packed mode, with an empty packer, the call pushes the packed stream of those codes, zero-padded. -/
def Obligations.PackedEncodeCallIsPackedLzwEncode : Prop :=
  ∀ s input, s.hi.leRaw = false → LeFresh s.le → s.bp = ⟨0, 0⟩ →
    ∃ t, execAll (Pseudo.lzwEncode input) s = .next t ∧
      t.out = s.out ++ (packedCodes (lzwEncode input)).map (fun b => ⟨.lbyte, BitVec.ofNat 32 b.toNat⟩) ++
        [⟨.leDone, BitVec.ofNat 32 (lzwEncode input).length⟩] ∧
      LeFresh t.le ∧ t = { s with cp := s.cp + input.length + 1, le := t.le, out := t.out }

/-! ## Dictionary decoder -/

/-- R74, R76: the first code of a call is a singleton, whose byte is output, or it raises `E_DECODE` after `ld_abort`. -/
def Obligations.LdFirstCode : Prop :=
  ∀ c s, s.ld.prevValid = false →
    (c.toNat < 256 → exec (.ldCode c) s = .next { s with
      cp := s.cp + 1
      ld := { s.ld with prevValid := true, prev := c, nbytes := s.ld.nbytes + 1 }
      out := s.out ++ [⟨.dbyte, BitVec.ofNat 32 c.toNat⟩] }) ∧
    (256 ≤ c.toNat → exec (.ldCode c) s = .next { s with
      cp := s.cp + 1
      ld := { s.ld with prevValid := false, prev := 0, next := 256, nbytes := 0 }
      bu := ⟨0, 0⟩
      hi := s.hi.record (BitVec.ofNat 32 (c.toNat * 2 ^ 16 + 0x1802))
      out := s.out ++ [⟨.err, BitVec.ofNat 32 (c.toNat * 2 ^ 16 + 0x1802)⟩] })

/-- R74, R75: a later code that names an entry outputs that entry's string; the self-referential code outputs the previous string and
its first byte. Unless the dictionary is full, the previous string and the first byte of the output become the next entry. -/
def Obligations.LdLaterCode : Prop :=
  ∀ c s prev, LdInv s.ld → s.ld.prevValid = true → LdNames s.ld s.ld.prev.toNat prev →
    ∀ bytes, (c.toNat < s.ld.next.toNat ∧ LdNames s.ld c.toNat bytes ∨
        c.toNat = s.ld.next.toNat ∧ bytes = prev ++ prev.take 1) →
      ∃ t, exec (.ldCode c) s = .next t ∧ t = { s with cp := s.cp + 1, ld := t.ld, out := t.out } ∧
        t.out = s.out ++ bytes.map (fun b => ⟨.dbyte, BitVec.ofNat 32 b.toNat⟩) ∧
        t.ld.prevValid = true ∧ t.ld.prev = c ∧ t.ld.nbytes = s.ld.nbytes + BitVec.ofNat 32 bytes.length ∧
        (s.ld.next.toNat < 4096 → t.ld.next.toNat = s.ld.next.toNat + 1 ∧
          LdNames t.ld s.ld.next.toNat (prev ++ bytes.take 1) ∧
          ∀ j, j ≠ s.ld.next.toNat → t.ld.entry j = s.ld.entry j) ∧
        (4096 ≤ s.ld.next.toNat → t.ld.next = s.ld.next ∧ t.ld.dict = s.ld.dict)

/-- R39: under the decoder's invariant every code below the next one names exactly one string, of the stored length and first byte,
and the machine reads it through the 3841 bytes of its stack (R75). -/
def Obligations.LdEveryCodeNamesAString : Prop :=
  ∀ u k, LdInv u → k.toNat < u.next.toNat →
    ∃ bytes, LdNames u k.toNat bytes ∧ (∀ other, LdNames u k.toNat other → other = bytes) ∧ u.stringOf k = some bytes ∧
      bytes.length = (u.lenOf k).toNat ∧ bytes.length ≤ 3841 ∧ bytes.head? = some (u.firstOf k)

/-- R74, R76: a later code beyond the next one raises `E_DECODE` with INFO the code, after `ld_abort`: LD fresh, BU cleared. -/
def Obligations.LdBadCodeAborts : Prop :=
  ∀ c s, s.ld.prevValid = true → s.ld.next.toNat < c.toNat →
    exec (.ldCode c) s = .next { s with
      cp := s.cp + 1
      ld := { s.ld with prevValid := false, prev := 0, next := 256, nbytes := 0 }
      bu := ⟨0, 0⟩
      hi := s.hi.record (BitVec.ofNat 32 (c.toNat * 2 ^ 16 + 0x1802))
      out := s.out ++ [⟨.err, BitVec.ofNat 32 (c.toNat * 2 ^ 16 + 0x1802)⟩] }

/-- R77, R82: `LD.BYTE b` keeps the byte where it completes no code; where it completes the code `c`, it does what `LD.CODE c` does
on the state with the unpacker after it, and an error carries its own opcode. -/
def Obligations.LdByteUnpacksAndDecodes : Prop :=
  ∀ b s c, BuInv s.bu → c = BitVec.ofNat 12 (s.bu.buf.toNat + b.toNat * 2 ^ s.bu.n.toNat) →
    (s.bu.n.toNat < 4 → exec (.ldByte b) s = .next { s with
      cp := s.cp + 1
      bu := ⟨BitVec.ofNat 12 (s.bu.buf.toNat + b.toNat * 2 ^ s.bu.n.toNat), s.bu.n + 8⟩ }) ∧
    (4 ≤ s.bu.n.toNat → LdInv s.ld → (s.ld.prevValid = false → c.toNat < 256) →
      (s.ld.prevValid = true → c.toNat ≤ s.ld.next.toNat) →
      ∃ t, exec (.ldByte b) s = .next t ∧ exec (.ldCode c) { s with
        bu := ⟨BitVec.ofNat 12 ((s.bu.buf.toNat + b.toNat * 2 ^ s.bu.n.toNat) / 2 ^ 12), BitVec.ofNat 4 (s.bu.n.toNat - 4)⟩ } =
          .next t) ∧
    (4 ≤ s.bu.n.toNat → (s.ld.prevValid = false ∧ 256 ≤ c.toNat ∨ s.ld.prevValid = true ∧ s.ld.next.toNat < c.toNat) →
      exec (.ldByte b) s = .next { s with
        cp := s.cp + 1
        ld := { s.ld with prevValid := false, prev := 0, next := 256, nbytes := 0 }
        bu := ⟨0, 0⟩
        hi := s.hi.record (BitVec.ofNat 32 (c.toNat * 2 ^ 16 + 0x1902))
        out := s.out ++ [⟨.err, BitVec.ofNat 32 (c.toNat * 2 ^ 16 + 0x1902)⟩] })

/-- R78: `LD.END` discards the residue, reports the number of bytes and makes LD fresh; the dictionary entries stay. -/
def Obligations.LdEndReports : Prop :=
  ∀ s, exec .ldEnd s = .next { s with
    cp := s.cp + 1
    bu := ⟨0, 0⟩
    ld := { s.ld with prevValid := false, prev := 0, next := 256, nbytes := 0 }
    out := s.out ++ [⟨.ldDone, s.ld.nbytes⟩] }

/-- R74: a decode call from a fresh LD on codes that `LZW_decode` accepts pushes exactly its bytes, then their number modulo `2^32`,
whatever the dictionary memory held before; it leaves LD fresh, BU cleared and every other unit alone. -/
def Obligations.DecodeCallIsLzwDecode : Prop :=
  ∀ s codes bytes, LdFresh s.ld → lzwDecode codes = .ok bytes →
    ∃ t, execAll (Pseudo.lzwDecode codes) s = .next t ∧
      t.out = s.out ++ bytes.map (fun b => ⟨.dbyte, BitVec.ofNat 32 b.toNat⟩) ++ [⟨.ldDone, BitVec.ofNat 32 bytes.length⟩] ∧
      LdFresh t.ld ∧ t = { s with cp := s.cp + codes.length + 1, bu := ⟨0, 0⟩, ld := t.ld, out := t.out }

/-- R79: for every byte string `B`, decoding the codes of `LZW_encode(B)`, and decoding their packed stream from an empty unpacker,
outputs exactly `B` and its length. -/
def Obligations.LzwRoundTrip : Prop :=
  ∀ s (B : List Byte), LdFresh s.ld →
    (∃ t, execAll (Pseudo.lzwDecode (lzwEncode B)) s = .next t ∧
      t.out = s.out ++ B.map (fun b => ⟨.dbyte, BitVec.ofNat 32 b.toNat⟩) ++ [⟨.ldDone, BitVec.ofNat 32 B.length⟩]) ∧
    (s.bu = ⟨0, 0⟩ → ∃ t, execAll (Pseudo.lzwDecodePacked (packedCodes (lzwEncode B))) s = .next t ∧
      t.out = s.out ++ B.map (fun b => ⟨.dbyte, BitVec.ofNat 32 b.toNat⟩) ++ [⟨.ldDone, BitVec.ofNat 32 B.length⟩])

/-! ## BitPacker and BitUnpacker -/

/-- R80, R83: `BP.PUT c` puts `c` above the bits held and outputs every complete byte, lowest first: one with fewer than 4 bits held,
else two. Nothing else changes. -/
def Obligations.BpPutOutputsCompleteBytes : Prop :=
  ∀ c s buf n, buf = s.bp.buf.toNat + c.toNat * 2 ^ s.bp.n.toNat → n = s.bp.n.toNat →
    (n < 4 → exec (.bpPut c) s = .next { s with
      cp := s.cp + 1
      bp := ⟨BitVec.ofNat 8 (buf / 256), BitVec.ofNat 3 (n + 4)⟩
      out := s.out ++ [⟨.lbyte, BitVec.ofNat 32 (buf % 256)⟩] }) ∧
    (4 ≤ n → exec (.bpPut c) s = .next { s with
      cp := s.cp + 1
      bp := ⟨BitVec.ofNat 8 (buf / 65536), BitVec.ofNat 3 (n - 4)⟩
      out := s.out ++ [⟨.lbyte, BitVec.ofNat 32 (buf % 256)⟩, ⟨.lbyte, BitVec.ofNat 32 (buf / 256 % 256)⟩] })

/-- R81, R84 and R86: `BP.FLUSH` outputs the partial byte if any bits remain; `BU.END` discards the residue whatever it is. -/
def Obligations.BpFlushAndBuEndEmptyTheBuffers : Prop :=
  ∀ s,
    (s.bp.n = 0 → exec .bpFlush s = .next { s with cp := s.cp + 1 }) ∧
    (s.bp.n ≠ 0 → exec .bpFlush s = .next { s with
      cp := s.cp + 1, bp := ⟨0, 0⟩, out := s.out ++ [⟨.lbyte, BitVec.ofNat 32 s.bp.buf.toNat⟩] }) ∧
    exec .buEnd s = .next { s with cp := s.cp + 1, bu := ⟨0, 0⟩ }

/-- R82, R85: `BU.PUT b` puts `b` above the bits held, and outputs the lowest 12 bits as a code when there are 12. -/
def Obligations.BuPutOutputsCompleteCodes : Prop :=
  ∀ b s buf, buf = s.bu.buf.toNat + b.toNat * 2 ^ s.bu.n.toNat →
    (s.bu.n.toNat < 4 → exec (.buPut b) s = .next { s with
      cp := s.cp + 1, bu := ⟨BitVec.ofNat 12 buf, BitVec.ofNat 4 (s.bu.n.toNat + 8)⟩ }) ∧
    (4 ≤ s.bu.n.toNat → exec (.buPut b) s = .next { s with
      cp := s.cp + 1
      bu := ⟨BitVec.ofNat 12 (buf / 4096), BitVec.ofNat 4 (s.bu.n.toNat - 4)⟩
      out := s.out ++ [⟨.ucode, BitVec.ofNat 32 (buf % 4096)⟩] })

/-- R44, R87: packing codes from an empty packer and flushing pushes their packed stream, `ceil(3n / 2)` bytes, and leaves the packer
empty. -/
def Obligations.PackIsTheWireFormat : Prop :=
  ∀ s codes, s.bp = ⟨0, 0⟩ →
    execAll (Pseudo.pack codes) s = .next { s with
      cp := s.cp + codes.length + 1
      out := s.out ++ (packedCodes codes).map (fun b => ⟨.lbyte, BitVec.ofNat 32 b.toNat⟩) } ∧
    (packedCodes codes).length = (3 * codes.length + 1) / 2

/-- R87, C2: unpacking a packed stream from an empty unpacker gives back exactly its codes, with no spurious extra code. -/
def Obligations.UnpackInvertsPack : Prop :=
  ∀ s codes, s.bu = ⟨0, 0⟩ →
    execAll (Pseudo.unpack (packedCodes codes)) s = .next { s with
      cp := s.cp + (packedCodes codes).length + 1
      out := s.out ++ codes.map (fun c => ⟨.ucode, BitVec.ofNat 32 c.toNat⟩) }

/-! ## Huffman tree builder -/

/-- R88, R90: `HF.CLEAR` clears the frequencies, forgets the tree, makes HE and HD fresh and keeps the arena and the codebook;
`HF.SETFREQ` loads one frequency and invalidates the tree. -/
def Obligations.HfClearAndSetfreqWriteFrequencies : Prop :=
  (∀ s, ∃ t, exec .hfClear s = .next t ∧ (∀ b : Byte, t.ht.freqOf b.toNat = 0) ∧
    t = { s with
      cp := s.cp + 1
      ht := { s.ht with freq := t.ht.freq, treeValid := false, nleaves := 0, root := none }
      he := ⟨0, 0, 0⟩
      hd := ⟨none, 0⟩ }) ∧
    ∀ b count s, ∃ t, exec (.hfSetfreq b count) s = .next t ∧
      (∀ a : Byte, t.ht.freqOf a.toNat = if a = b then count else s.ht.freqOf a.toNat) ∧
      t = { s with cp := s.cp + 2, ht := { s.ht with freq := t.ht.freq, treeValid := false } }

/-- R89: `HF.COUNT b` adds one to the count of `b` and invalidates the tree; at `2^32 - 1` it raises `E_OVERFLOW` and no count and no
tree changes. -/
def Obligations.HfCountCountsOrOverflows : Prop :=
  ∀ b s,
    ((s.ht.freqOf b.toNat).toNat ≠ 2 ^ 32 - 1 → ∃ t, exec (.hfCount b) s = .next t ∧
      (t.ht.freqOf b.toNat).toNat = (s.ht.freqOf b.toNat).toNat + 1 ∧
      (∀ a : Byte, a ≠ b → t.ht.freqOf a.toNat = s.ht.freqOf a.toNat) ∧
      t = { s with cp := s.cp + 1, ht := { s.ht with freq := t.ht.freq, treeValid := false } }) ∧
    ((s.ht.freqOf b.toNat).toNat = 2 ^ 32 - 1 → exec (.hfCount b) s = .next { s with
      cp := s.cp + 1
      hi := s.hi.record (BitVec.ofNat 32 ((0x0100 + b.toNat) * 2 ^ 16 + 0x3106))
      out := s.out ++ [⟨.err, BitVec.ofNat 32 ((0x0100 + b.toNat) * 2 ^ 16 + 0x3106)⟩] })

/-- R94, R95, R96: the reads push the count, the code length or 32 bits of the code and change nothing else; the codebook reads need
a valid tree, else `E_NOTREE`. -/
def Obligations.HfReadsPushAndChangeNothing : Prop :=
  ∀ b w s,
    exec (.hfRdfreq b) s = .next { s with cp := s.cp + 1, out := s.out ++ [⟨.reg, s.ht.freqOf b.toNat⟩] } ∧
    (s.ht.treeValid = true →
      exec (.hfRdlen b) s =
        .next { s with cp := s.cp + 1, out := s.out ++ [⟨.reg, BitVec.ofNat 32 (s.ht.lenOf b.toNat).toNat⟩] } ∧
      exec (.hfRdcode b w) s = .next { s with
        cp := s.cp + 1
        out := s.out ++ [⟨.reg, BitVec.ofNat 32 ((s.ht.bitsOf b.toNat).toNat / 2 ^ (32 * w.toNat))⟩] }) ∧
    (s.ht.treeValid = false →
      exec (.hfRdlen b) s =
        .next { s with cp := s.cp + 1, hi := s.hi.record 0x00003904, out := s.out ++ [⟨.err, 0x00003904⟩] } ∧
      exec (.hfRdcode b w) s =
        .next { s with cp := s.cp + 1, hi := s.hi.record 0x00003A04, out := s.out ++ [⟨.err, 0x00003A04⟩] })

/-- R91, R93: `HF.BUILD` completes in every state: the tree is valid, HE is fresh, HD stands at the root, the frequencies and every
other unit stay. `nleaves` counts the non-zero frequencies; with none the root is NONE, with one it is node 256 with that leaf on the
left and nothing on the right, with more it is the last internal node built, `254 + nleaves`. -/
def Obligations.HfBuildMakesTheTreeValid : Prop :=
  ∀ s, ∃ t, exec .hfBuild s = .next t ∧
    t = { s with cp := s.cp + 1, ht := t.ht, he := ⟨0, 0, 0⟩, hd := ⟨t.ht.root, 0⟩ } ∧
    t.ht.treeValid = true ∧ t.ht.freq = s.ht.freq ∧
    t.ht.nleaves.toNat = ((List.range 256).filter (fun b => decide (s.ht.freqOf b ≠ 0))).length ∧
    (t.ht.nleaves.toNat = 0 → t.ht.root = none) ∧
    (t.ht.nleaves.toNat = 1 → t.ht.root = some 256 ∧
      ∃ b : Byte, s.ht.freqOf b.toNat ≠ 0 ∧ t.ht.nodeAt 256 = some ⟨some (BitVec.ofNat 9 b.toNat), none⟩) ∧
    (2 ≤ t.ht.nleaves.toNat → t.ht.root = some (BitVec.ofNat 9 (254 + t.ht.nleaves.toNat)))

/-- Node `j` is live when node `k` is about to be built (R91): a leaf of a counted symbol or an internal node built before `k`, and no
child of a node built before `k`. -/
def liveAt (u : HtUnit) (k j : Nat) : Prop :=
  (j < 256 ∧ u.freqOf j ≠ 0 ∨ 256 ≤ j ∧ j < k) ∧
    ∀ k', 256 ≤ k' → k' < k → (u.node.read Node.blank k').left ≠ some (BitVec.ofNat 9 j) ∧
      (u.node.read Node.blank k').right ≠ some (BitVec.ofNat 9 j)

/-- R91: `HF.BUILD` builds node `k` from the two live nodes least in the order (weight, index), the first on the left; a leaf weighs its
frequency and an internal node the sum of its children. -/
def Obligations.HfBuildCombinesTheTwoLeast : Prop :=
  ∀ s t, exec .hfBuild s = .next t → ∃ weight : Nat → Nat, (∀ b, b < 256 → weight b = (s.ht.freqOf b).toNat) ∧
    ∀ k, 256 ≤ k → k < 255 + t.ht.nleaves.toNat → ∃ l r, l < k ∧ r < k ∧ l ≠ r ∧
      t.ht.node.read Node.blank k = ⟨some (BitVec.ofNat 9 l), some (BitVec.ofNat 9 r)⟩ ∧
      weight k = weight l + weight r ∧ liveAt t.ht k l ∧ liveAt t.ht k r ∧
      (weight l < weight r ∨ weight l = weight r ∧ l < r) ∧
      ∀ j, liveAt t.ht k j → j ≠ l → j ≠ r → weight r < weight j ∨ weight r = weight j ∧ r < j

/-- R92, R31: after `HF.BUILD` exactly the symbols with a non-zero frequency have a code; its bits lead from the root to that
symbol's leaf and to no leaf before; the stored bits at and above its length are 0. -/
def Obligations.CodesAreRootToLeafPaths : Prop :=
  ∀ s t, exec .hfBuild s = .next t → ∀ b : Byte,
    ((t.ht.lenOf b.toNat).toNat = 0 ↔ s.ht.freqOf b.toNat = 0) ∧
    (s.ht.freqOf b.toNat ≠ 0 → traverse t.ht t.ht.root (t.ht.codeOf b.toNat) = some ([b], t.ht.root)) ∧
    (t.ht.bitsOf b.toNat).toNat < 2 ^ (t.ht.lenOf b.toNat).toNat

/-- R97: after `HF.BUILD` no symbol's code is a prefix of another's. -/
def Obligations.CodebookIsPrefixFree : Prop :=
  ∀ s t, exec .hfBuild s = .next t → ∀ a b : Byte, a ≠ b → s.ht.freqOf a.toNat ≠ 0 → s.ht.freqOf b.toNat ≠ 0 →
    ¬ t.ht.codeOf a.toNat <+: t.ht.codeOf b.toNat

/-- R97, completeness: with two or more leaves the sum of `2^(-code_len)` over the symbols with a code is 1, with one it is 1/2. -/
def Obligations.CodebookIsComplete : Prop :=
  ∀ s t, exec .hfBuild s = .next t →
    (2 ≤ t.ht.nleaves.toNat →
      (((List.range 256).filter (fun b => decide (s.ht.freqOf b ≠ 0))).map (fun b => 2 ^ (255 - (t.ht.lenOf b).toNat))).sum =
        2 ^ 255) ∧
    (t.ht.nleaves.toNat = 1 →
      (((List.range 256).filter (fun b => decide (s.ht.freqOf b ≠ 0))).map (fun b => 2 ^ (255 - (t.ht.lenOf b).toNat))).sum =
        2 ^ 254)

/-! ## Huffman coder and decoder -/

/-- R98: the errors of `HF.ENC b`, in their order, each after `he_abort`: no tree, no code, a bit count past `2^32 - 1`. -/
def Obligations.HfEncErrorsAbortTheCall : Prop :=
  ∀ b s,
    (s.ht.treeValid = false → exec (.hfEnc b) s = .next { s with
      cp := s.cp + 1, he := ⟨0, 0, 0⟩, hi := s.hi.record 0x00003404, out := s.out ++ [⟨.err, 0x00003404⟩] }) ∧
    (s.ht.treeValid = true → s.ht.lenOf b.toNat = 0 → exec (.hfEnc b) s = .next { s with
      cp := s.cp + 1
      he := ⟨0, 0, 0⟩
      hi := s.hi.record (BitVec.ofNat 32 (b.toNat * 2 ^ 16 + 0x3405))
      out := s.out ++ [⟨.err, BitVec.ofNat 32 (b.toNat * 2 ^ 16 + 0x3405)⟩] }) ∧
    (s.ht.treeValid = true → s.ht.lenOf b.toNat ≠ 0 →
      2 ^ 32 - 1 < s.he.bitcount.toNat + (s.ht.lenOf b.toNat).toNat → exec (.hfEnc b) s = .next { s with
        cp := s.cp + 1
        he := ⟨0, 0, 0⟩
        hi := s.hi.record (BitVec.ofNat 32 ((0x0200 + b.toNat) * 2 ^ 16 + 0x3406))
        out := s.out ++ [⟨.err, BitVec.ofNat 32 ((0x0200 + b.toNat) * 2 ^ 16 + 0x3406)⟩] })

/-- R98, R45: `HF.ENC b` appends the code of `b`, first bit first: the bits held before and the code are the bits of the bytes pushed
and the bits held after. The bit count grows by the code's length, and nothing else changes. -/
def Obligations.HfEncAppendsTheCode : Prop :=
  ∀ b s, HeInv s.he → s.ht.treeValid = true → s.ht.lenOf b.toNat ≠ 0 →
    s.he.bitcount.toNat + (s.ht.lenOf b.toNat).toNat ≤ 2 ^ 32 - 1 →
    ∃ (t : State) (bytes : List Byte), exec (.hfEnc b) s = .next t ∧
      t = { s with
        cp := s.cp + 1
        he := t.he
        out := s.out ++ bytes.map (fun x => ⟨.hbyte, BitVec.ofNat 32 x.toNat⟩) } ∧
      lowBits s.he.n.toNat s.he.buf ++ s.ht.codeOf b.toNat =
        bytes.flatMap (lowBits 8) ++ lowBits t.he.n.toNat t.he.buf ∧
      t.he.buf.toNat < 2 ^ t.he.n.toNat ∧
      t.he.bitcount.toNat = s.he.bitcount.toNat + (s.ht.lenOf b.toNat).toNat

/-- R99: `HF.ENCEND` pushes the zero-padded partial byte if any bits are held, then the exact bit count, and makes HE fresh. -/
def Obligations.HfEncendReports : Prop :=
  ∀ s,
    (s.he.n = 0 → exec .hfEncend s = .next { s with
      cp := s.cp + 1, he := ⟨0, 0, 0⟩, out := s.out ++ [⟨.hbits, s.he.bitcount⟩] }) ∧
    (s.he.n ≠ 0 → exec .hfEncend s = .next { s with
      cp := s.cp + 1
      he := ⟨0, 0, 0⟩
      out := s.out ++ [⟨.hbyte, BitVec.ofNat 32 s.he.buf.toNat⟩, ⟨.hbits, s.he.bitcount⟩] })

/-- R100: `HF.DECBITS n, b` with bits that all lead to nodes pushes the symbols of the leaves reached, counts them, and stands where
the bits end; bits `n` to 7 of `b` are ignored, and `n = 0` does nothing. -/
def Obligations.HfDecbitsFollowsTheTree : Prop :=
  ∀ n b s syms pos, s.ht.treeValid = true → n.toNat ≤ 8 →
    traverse s.ht s.hd.pos (lowBits n.toNat b) = some (syms, pos) →
    exec (.hfDecbits n b) s = .next { s with
      cp := s.cp + 1
      hd := ⟨pos, s.hd.nsyms + BitVec.ofNat 32 syms.length⟩
      out := s.out ++ syms.map (fun x => ⟨.hsym, BitVec.ofNat 32 x.toNat⟩) }

/-- R100, R112: the errors of `HF.DECBITS`: a bit count above 8 changes no unit; no tree aborts the call; a bit that leads to no node
aborts it after the symbols before that bit, and the bits after it are not consumed. That `n = 0` with no tree also raises `E_NOTREE` is
the model's reading of R100, whose pseudocode and corner case differ there (DEDUCED, log 12). -/
def Obligations.HfDecbitsErrorsAbortTheCall : Prop :=
  ∀ n b s,
    (8 < n.toNat → exec (.hfDecbits n b) s = .next { s with
      cp := s.cp + 1, hi := s.hi.record 0x00023601, out := s.out ++ [⟨.err, 0x00023601⟩] }) ∧
    (n.toNat ≤ 8 → s.ht.treeValid = false → exec (.hfDecbits n b) s = .next { s with
      cp := s.cp + 1
      hd := ⟨s.ht.root, 0⟩
      hi := s.hi.record 0x00003604
      out := s.out ++ [⟨.err, 0x00003604⟩] }) ∧
    (∀ m syms pos, n.toNat ≤ 8 → s.ht.treeValid = true → HtInv s.ht → HdInv s.hd → m < n.toNat →
      traverse s.ht s.hd.pos (lowBits m b) = some (syms, pos) → childOf s.ht pos (b.getLsbD m) = none →
      exec (.hfDecbits n b) s = .next { s with
        cp := s.cp + 1
        hd := ⟨s.ht.root, 0⟩
        hi := s.hi.record 0x00013603
        out := s.out ++ syms.map (fun x => ⟨.hsym, BitVec.ofNat 32 x.toNat⟩) ++ [⟨.err, 0x00013603⟩] })

/-- The model's own two stops (log 9), in states no run reaches: a chain of prefixes that never ends overflows the string stack, and an
engine that stands at an index that is no internal node has no entry to read. -/
def Obligations.AccessesToNoEntryFault : Prop :=
  (∀ c s, s.ld.prevValid = true → s.ld.next = 4096 → 256 ≤ c.toNat → (s.ld.entry c.toNat).pre = c →
    exec (.ldCode c) s = .fault .stringStackOverflow) ∧
  (∀ n b s i, s.ht.treeValid = true → 1 ≤ n.toNat → n.toNat ≤ 8 → s.hd.pos = some i → (i.toNat < 256 ∨ i.toNat = 511) →
    exec (.hfDecbits n b) s = .fault .arenaIndex)

/-- R101: `HF.DECEND` at the root reports the number of symbols and clears it; off the root it raises `E_MALFORMED` with INFO = 0 and
HD is fresh. -/
def Obligations.HfDecendChecksTheBoundary : Prop :=
  ∀ s,
    (s.hd.pos = s.ht.root → exec .hfDecend s = .next { s with
      cp := s.cp + 1, hd := ⟨s.ht.root, 0⟩, out := s.out ++ [⟨.hdDone, s.hd.nsyms⟩] }) ∧
    (s.hd.pos ≠ s.ht.root → exec .hfDecend s = .next { s with
      cp := s.cp + 1
      hd := ⟨s.ht.root, 0⟩
      hi := s.hi.record 0x00003703
      out := s.out ++ [⟨.err, 0x00003703⟩] })

/-- R102: after `HF.BUILD`, encoding a message all of whose symbols were counted pushes the packed bits of `HF_encode`, then their
number; decoding those bytes with that number, against the same tree, outputs the message and its length. -/
def Obligations.HuffmanRoundTrip : Prop :=
  ∀ s built message, exec .hfBuild s = .next built → (∀ b ∈ message, s.ht.freqOf b.toNat ≠ 0) →
    (hfEncodeBits built.ht message).length < 2 ^ 32 →
    ∃ encoded cmds decoded,
      execAll (Pseudo.hfEncode message) built = .next encoded ∧
      encoded.out = built.out ++
        (bytesOfBits (hfEncodeBits built.ht message)).map (fun b => ⟨.hbyte, BitVec.ofNat 32 b.toNat⟩) ++
        [⟨.hbits, BitVec.ofNat 32 (hfEncodeBits built.ht message).length⟩] ∧
      Pseudo.hfDecode (hfEncodeBits built.ht message).length (bytesOfBits (hfEncodeBits built.ht message)) = some cmds ∧
      execAll cmds encoded = .next decoded ∧
      decoded.out = encoded.out ++ message.map (fun b => ⟨.hsym, BitVec.ofNat 32 b.toNat⟩) ++
        [⟨.hdDone, BitVec.ofNat 32 message.length⟩]

/-! ## Units -/

/-- R22, R54: which commands write CTRL and which write each unit. Every other command leaves it alone (`SOFTRESET`, opcode 0x04,
writes all); in raw mode the encoder leaves the packer alone. -/
def Obligations.UnitsAreWrittenOnlyByTheirCommands : Prop :=
  ∀ i s t, exec i s = .next t →
    (i.opcode ∉ ([0x02, 0x04] : List (BitVec 8)) → t.hi.leRaw = s.hi.leRaw ∧ t.hi.irqEn = s.hi.irqEn) ∧
    (i.opcode ∉ ([0x04, 0x10, 0x11] : List (BitVec 8)) → t.le = s.le) ∧
    (i.opcode ∉ ([0x04, 0x18, 0x19, 0x1A] : List (BitVec 8)) → t.ld = s.ld) ∧
    (i.opcode ∉ ([0x04, 0x10, 0x11, 0x20, 0x21] : List (BitVec 8)) → t.bp = s.bp) ∧
    (i.opcode ∈ ([0x10, 0x11] : List (BitVec 8)) → s.hi.leRaw = true → t.bp = s.bp) ∧
    (i.opcode ∉ ([0x04, 0x18, 0x19, 0x1A, 0x28, 0x29] : List (BitVec 8)) → t.bu = s.bu) ∧
    (i.opcode ∉ ([0x04, 0x30, 0x31, 0x32, 0x33] : List (BitVec 8)) → t.ht = s.ht) ∧
    (i.opcode ∉ ([0x04, 0x30, 0x33, 0x34, 0x35] : List (BitVec 8)) → t.he = s.he) ∧
    (i.opcode ∉ ([0x04, 0x30, 0x33, 0x36, 0x37] : List (BitVec 8)) → t.hd = s.hd)

/-- R54: a Huffman command depends on HT, HE, HD and the error state alone: in two states that agree there, whatever LE, LD, BP, BU
and the queue hold, it gives the same units and pushes the same words. -/
def Obligations.HuffmanIgnoresTheDictionaryUnits : Prop :=
  ∀ i s s' t, 0x30 ≤ i.opcode.toNat → s.ht = s'.ht → s.he = s'.he → s.hd = s'.hd → s.hi = s'.hi → exec i s = .next t →
    ∃ t' ws, exec i s' = .next t' ∧ t.ht = t'.ht ∧ t.he = t'.he ∧ t.hd = t'.hd ∧ t.hi = t'.hi ∧
      t.out = s.out ++ ws ∧ t'.out = s'.out ++ ws

/-- R54: LE and LD never read each other's state: an encoder command depends on CTRL, the error state, LE and BP alone, a decoder
command on the error state, LD and BU alone. -/
def Obligations.EncoderAndDecoderIgnoreEachOther : Prop :=
  (∀ i s s' t, i.opcode ∈ ([0x10, 0x11] : List (BitVec 8)) → s.le = s'.le → s.bp = s'.bp → s.hi = s'.hi →
    exec i s = .next t →
    ∃ t' ws, exec i s' = .next t' ∧ t.le = t'.le ∧ t.bp = t'.bp ∧ t.hi = t'.hi ∧ t.out = s.out ++ ws ∧
      t'.out = s'.out ++ ws) ∧
  (∀ i s s' t, i.opcode ∈ ([0x18, 0x19, 0x1A] : List (BitVec 8)) → s.ld = s'.ld → s.bu = s'.bu → s.hi = s'.hi →
    exec i s = .next t →
    ∃ t' ws, exec i s' = .next t' ∧ t.ld = t'.ld ∧ t.bu = t'.bu ∧ t.hi = t'.hi ∧ t.out = s.out ++ ws ∧
      t'.out = s'.out ++ ws)
end

