-- ==== Sys2Proof/Laws/Decode.lean ====
section
/-! SUPPORT. The fields of an encoded word, and what the decoder answers for each form of a stream (30_encoding.md R55 to R62). -/

namespace Sys2Proof

/-- The opcode of a first word whose operand area is below bit 24 (R55). -/
theorem opcField_of_word (opc : BitVec 8) (low : Word) (h : low.toNat < 2 ^ 24) :
    opcField (zext32 opc <<< 24 ||| low) = opc := by
  have ho := opc.isLt
  apply BitVec.eq_of_toNat_eq
  simp only [opcField, zext32, BitVec.extractLsb'_toNat, BitVec.toNat_or, BitVec.toNat_shiftLeft, BitVec.toNat_setWidth,
    Nat.shiftLeft_eq, Nat.shiftRight_eq_div_pow]
  rw [Nat.mod_eq_of_lt (by omega : opc.toNat < 2 ^ 32), Nat.mod_eq_of_lt (by omega : opc.toNat * 2 ^ 24 < 2 ^ 32), Nat.mul_comm,
    ← Nat.two_pow_add_eq_or_of_lt h]
  omega

/-- The operand area of every command lies below bit 24 (R55). -/
theorem Instr.operands_lt (i : Instr) : i.operands.toNat < 2 ^ 24 := by
  have shifted : ∀ {m k : Nat} (a : BitVec m) (b : BitVec k), m ≤ 4 → k ≤ 8 → (zext32 a <<< 8 ||| zext32 b).toNat < 2 ^ 24 := by
    intro m k a b hm hk
    have h1 := a.isLt
    have h2 := b.isLt
    have : 2 ^ m ≤ 2 ^ 4 := Nat.pow_le_pow_right (by omega) hm
    have : 2 ^ k ≤ 2 ^ 8 := Nat.pow_le_pow_right (by omega) hk
    simp only [zext32, BitVec.toNat_or, BitVec.toNat_shiftLeft, BitVec.toNat_setWidth, Nat.shiftLeft_eq]
    rw [Nat.mod_eq_of_lt (by omega : a.toNat < 2 ^ 32), Nat.mod_eq_of_lt (by omega : a.toNat * 2 ^ 8 < 2 ^ 32),
      Nat.mod_eq_of_lt (by omega : b.toNat < 2 ^ 32), Nat.mul_comm, ← Nat.two_pow_add_eq_or_of_lt (by omega)]
    omega
  have plain : ∀ {k : Nat} (a : BitVec k), k ≤ 12 → (zext32 a).toNat < 2 ^ 24 := by
    intro k a hk
    have h1 := a.isLt
    have : 2 ^ k ≤ 2 ^ 12 := Nat.pow_le_pow_right (by omega) hk
    simp only [zext32, BitVec.toNat_setWidth]
    rw [Nat.mod_eq_of_lt (by omega : a.toNat < 2 ^ 32)]
    omega
  cases i <;> first | exact plain _ (by omega) | exact shifted _ _ (by omega) (by omega) | decide

/-- The first word of a command carries its opcode (R55). -/
theorem opcField_word (i : Instr) : opcField i.word = i.opcode := opcField_of_word _ _ i.operands_lt

/-- A command is one word, or two for `HF.SETFREQ` (R61). -/
theorem length_encode (i : Instr) : (encode i).length = wordsOf i.opcode := by cases i <;> rfl

theorem decode_nil : decode [] = .incomplete := rfl

/-- A word with an opcode outside the map (R60). -/
theorem decode_unassigned {w : Word} (ws : List Word) (h : opRow (opcField w) = none) :
    decode (w :: ws) = .illegal .unassignedOpcode (opcField w) ws := by
  simp [decode, h]

/-- A row's format is `FS` only for the opcode of `HF.SETFREQ` (R59). -/
theorem opRow_format_FS : ∀ opc row, opRow opc = some row → (row.format = .FS ↔ opc = 0x32#8) := by
  have key : ∀ opc : BitVec 8, ((opRow opc).map (fun r => decide (r.format = .FS))).getD (decide (opc = 0x32#8)) =
      decide (opc = 0x32#8) := by decide +revert
  intro opc row h
  have := key opc
  rw [h] at this
  simpa using this

/-- A one-word command or an illegal word (R62). -/
theorem decode_one {w : Word} (ws : List Word) {row : OpRow} (h : opRow (opcField w) = some row) (hf : row.format ≠ .FS) :
    decode (w :: ws) = if reservedClear row.format w then .instr (row.build w 0) ws
      else .illegal .reservedBits (opcField w) ws := by
  obtain ⟨format, build⟩ := row
  cases format <;> first | exact absurd rfl hf | simp [decode, h]

/-- `HF.SETFREQ` waits for its second word (R61). -/
theorem decode_setfreq_waits {w : Word} (h : opcField w = 0x32#8) : decode [w] = .incomplete := by
  simp [decode, h, opRow]

/-- `HF.SETFREQ` takes its second word, legal or not (R61). -/
theorem decode_setfreq {w : Word} (w2 : Word) (ws : List Word) (h : opcField w = 0x32#8) :
    decode (w :: w2 :: ws) = if reservedClear .FS w then .instr (.hfSetfreq (byteField w) w2) ws
      else .illegal .reservedBits 0x32 ws := by
  simp [decode, h, opRow]

end Sys2Proof
end

