-- ==== Sys2Proof/Laws/Memory.lean ====
section
/-! SUPPORT. The laws of the internal memories: what a read gives after a write, and that a write keeps the canonical form. -/

namespace Sys2Proof.Machine

variable {α : Type}

@[simp] theorem Memory.read_nil (d : α) (k : Nat) : Memory.read d [] k = d := rfl

theorem Memory.read_put_same (d : α) (m : Memory α) (k : Nat) (v : α) : Memory.read d (Memory.put m k v) k = v := by
  induction m with
  | nil => simp [Memory.put, Memory.read]
  | cons e m ih =>
    obtain ⟨a, w⟩ := e
    by_cases h1 : k < a
    · simp [Memory.put, h1, Memory.read]
    · by_cases h2 : k = a
      · simp [Memory.put, h2, Memory.read]
      · simp [Memory.put, h1, h2, Memory.read, ih, Ne.symm h2]

theorem Memory.read_put_other (d : α) (m : Memory α) {k j : Nat} (v : α) (h : j ≠ k) :
    Memory.read d (Memory.put m k v) j = Memory.read d m j := by
  induction m with
  | nil => simp [Memory.put, Memory.read, Ne.symm h]
  | cons e m ih =>
    obtain ⟨a, w⟩ := e
    by_cases h1 : k < a
    · simp [Memory.put, h1, Memory.read, Ne.symm h]
    · by_cases h2 : k = a
      · subst h2; simp [Memory.put, Memory.read, Ne.symm h]
      · simp [Memory.put, h1, h2, Memory.read, ih]

theorem Memory.read_erase_same (d : α) (m : Memory α) (k : Nat) : Memory.read d (Memory.erase m k) k = d := by
  induction m with
  | nil => rfl
  | cons e m ih =>
    obtain ⟨a, w⟩ := e
    unfold Memory.erase at ih ⊢
    by_cases h : a = k
    · simpa [h] using ih
    · simpa [h, Memory.read] using ih

theorem Memory.read_erase_other (d : α) (m : Memory α) {k j : Nat} (h : j ≠ k) :
    Memory.read d (Memory.erase m k) j = Memory.read d m j := by
  induction m with
  | nil => rfl
  | cons e m ih =>
    obtain ⟨a, w⟩ := e
    unfold Memory.erase at ih ⊢
    by_cases ha : a = k
    · subst ha; simp [Memory.read, Ne.symm h, ih]
    · simp [ha, Memory.read, ih]

section
variable [DecidableEq α]

/-- A read after a write to the same entry gives the value written. -/
@[simp] theorem Memory.read_write_same (d : α) (m : Memory α) (k : Nat) (v : α) :
    Memory.read d (Memory.write d m k v) k = v := by
  by_cases h : v = d
  · simp [Memory.write, h, Memory.read_erase_same]
  · simp [Memory.write, h, Memory.read_put_same]

/-- A write leaves every other entry alone. -/
theorem Memory.read_write_other (d : α) (m : Memory α) {k j : Nat} (v : α) (h : j ≠ k) :
    Memory.read d (Memory.write d m k v) j = Memory.read d m j := by
  by_cases hv : v = d
  · simp [Memory.write, hv, Memory.read_erase_other d m h]
  · simp [Memory.write, hv, Memory.read_put_other d m v h]

/-- What a write does to every entry. -/
theorem Memory.read_write (d : α) (m : Memory α) (k j : Nat) (v : α) :
    Memory.read d (Memory.write d m k v) j = if j = k then v else Memory.read d m j := by
  by_cases h : j = k
  · simp [h]
  · simp [h, Memory.read_write_other d m v h]

@[simp] theorem Memory.wf_nil (d : α) : Memory.wf d [] = true := rfl

end

@[simp] theorem Memory.within_nil (lo hi : Nat) : Memory.within lo hi ([] : Memory α) = true := rfl

/-! ## The canonical form -/

theorem Memory.rising_cons_iff (e : Nat × α) (m : Memory α) :
    Memory.rising (e :: m) = true ↔ (∀ f ∈ m, e.1 < f.1) ∧ Memory.rising m = true := by
  induction m generalizing e with
  | nil => simp [Memory.rising]
  | cons g m ih =>
    simp only [Memory.rising, Bool.and_eq_true, decide_eq_true_eq]
    rw [ih g]
    constructor
    · rintro ⟨h, hg, hm⟩
      refine ⟨fun f hf => ?_, hg, hm⟩
      rcases List.mem_cons.mp hf with rfl | hf
      · exact h
      · exact h.trans (hg f hf)
    · rintro ⟨h, hg, hm⟩
      exact ⟨h g (List.mem_cons_self ..), hg, hm⟩

theorem Memory.mem_put {m : Memory α} {k : Nat} {v : α} {e : Nat × α} (h : e ∈ Memory.put m k v) :
    e = (k, v) ∨ e ∈ m := by
  induction m with
  | nil => simpa [Memory.put] using h
  | cons f m ih =>
    obtain ⟨a, w⟩ := f
    unfold Memory.put at h
    split_ifs at h
    · simpa using h
    · rcases List.mem_cons.mp h with h | h
      · exact .inl h
      · exact .inr (List.mem_cons_of_mem _ h)
    · rcases List.mem_cons.mp h with h | h
      · exact .inr (h ▸ List.mem_cons_self ..)
      · rcases ih h with h | h
        · exact .inl h
        · exact .inr (List.mem_cons_of_mem _ h)

theorem Memory.rising_put {m : Memory α} (h : Memory.rising m = true) (k : Nat) (v : α) :
    Memory.rising (Memory.put m k v) = true := by
  induction m with
  | nil => rfl
  | cons f m ih =>
    obtain ⟨a, w⟩ := f
    obtain ⟨ha, hm⟩ := (Memory.rising_cons_iff _ _).mp h
    unfold Memory.put
    split_ifs with h1 h2
    · refine (Memory.rising_cons_iff _ _).mpr ⟨fun e he => ?_, h⟩
      rcases List.mem_cons.mp he with rfl | he
      · exact h1
      · exact h1.trans (ha e he)
    · exact (Memory.rising_cons_iff _ _).mpr ⟨by simpa [h2] using ha, hm⟩
    · refine (Memory.rising_cons_iff _ _).mpr ⟨fun e he => ?_, ih hm⟩
      rcases Memory.mem_put he with rfl | he
      · show a < k; omega
      · exact ha e he

theorem Memory.rising_erase {m : Memory α} (h : Memory.rising m = true) (k : Nat) :
    Memory.rising (Memory.erase m k) = true := by
  induction m with
  | nil => rfl
  | cons f m ih =>
    obtain ⟨ha, hm⟩ := (Memory.rising_cons_iff _ _).mp h
    unfold Memory.erase at ih ⊢
    by_cases hk : f.1 = k
    · simpa [hk] using ih hm
    · simpa [hk] using (Memory.rising_cons_iff _ _).mpr ⟨fun e he => ha e (List.mem_filter.mp he).1, ih hm⟩

/-- A write keeps the canonical form. -/
theorem Memory.wf_write [DecidableEq α] {d : α} {m : Memory α} (h : Memory.wf d m = true) (k : Nat) (v : α) :
    Memory.wf d (Memory.write d m k v) = true := by
  unfold Memory.wf at h ⊢
  simp only [Bool.and_eq_true, List.all_eq_true, decide_eq_true_eq] at h ⊢
  by_cases hv : v = d
  · simp only [Memory.write, hv, if_true]
    exact ⟨Memory.rising_erase h.1 k, fun e he => h.2 e (List.mem_filter.mp he).1⟩
  · simp only [Memory.write, hv, if_false]
    refine ⟨Memory.rising_put h.1 k v, fun e he => ?_⟩
    rcases Memory.mem_put he with rfl | he
    · exact hv
    · exact h.2 e he

/-- A write at an index the memory has keeps the listed indices in range. -/
theorem Memory.within_write [DecidableEq α] {d : α} {m : Memory α} {lo hi : Nat} (h : Memory.within lo hi m = true)
    {k : Nat} (hlo : lo ≤ k) (hhi : k ≤ hi) (v : α) : Memory.within lo hi (Memory.write d m k v) = true := by
  unfold Memory.within at h ⊢
  simp only [List.all_eq_true, Bool.and_eq_true, decide_eq_true_eq] at h ⊢
  intro e he
  by_cases hv : v = d
  · simp only [Memory.write, hv, if_true] at he
    exact h e (List.mem_filter.mp he).1
  · simp only [Memory.write, hv, if_false] at he
    rcases Memory.mem_put he with rfl | he
    · exact ⟨hlo, hhi⟩
    · exact h e he

end Sys2Proof.Machine
end

