-- ==== Sys2Proof/Laws/State.lean ====
section
/-! SUPPORT. One lemma per field of State for each named update, so that no proof unfolds a record update. -/

namespace Sys2Proof.Machine

variable (s : State)

/-! ## `push` -/

@[simp] theorem State.push_cp (t : Tag) (d : Word) : (s.push t d).cp = s.cp := rfl
@[simp] theorem State.push_hi (t : Tag) (d : Word) : (s.push t d).hi = s.hi := rfl
@[simp] theorem State.push_le (t : Tag) (d : Word) : (s.push t d).le = s.le := rfl
@[simp] theorem State.push_ld (t : Tag) (d : Word) : (s.push t d).ld = s.ld := rfl
@[simp] theorem State.push_bp (t : Tag) (d : Word) : (s.push t d).bp = s.bp := rfl
@[simp] theorem State.push_bu (t : Tag) (d : Word) : (s.push t d).bu = s.bu := rfl
@[simp] theorem State.push_ht (t : Tag) (d : Word) : (s.push t d).ht = s.ht := rfl
@[simp] theorem State.push_he (t : Tag) (d : Word) : (s.push t d).he = s.he := rfl
@[simp] theorem State.push_hd (t : Tag) (d : Word) : (s.push t d).hd = s.hd := rfl
@[simp] theorem State.push_out (t : Tag) (d : Word) : (s.push t d).out = s.out ++ [⟨t, d⟩] := rfl
@[simp] theorem State.push_cmds (t : Tag) (d : Word) : (s.push t d).cmds = s.cmds := rfl
@[simp] theorem State.push_host (t : Tag) (d : Word) : (s.push t d).host = s.host := rfl

/-! ## `pushBytes` -/

@[simp] theorem State.pushBytes_cp (t : Tag) (bs : List Byte) : (s.pushBytes t bs).cp = s.cp := rfl
@[simp] theorem State.pushBytes_hi (t : Tag) (bs : List Byte) : (s.pushBytes t bs).hi = s.hi := rfl
@[simp] theorem State.pushBytes_le (t : Tag) (bs : List Byte) : (s.pushBytes t bs).le = s.le := rfl
@[simp] theorem State.pushBytes_ld (t : Tag) (bs : List Byte) : (s.pushBytes t bs).ld = s.ld := rfl
@[simp] theorem State.pushBytes_bp (t : Tag) (bs : List Byte) : (s.pushBytes t bs).bp = s.bp := rfl
@[simp] theorem State.pushBytes_bu (t : Tag) (bs : List Byte) : (s.pushBytes t bs).bu = s.bu := rfl
@[simp] theorem State.pushBytes_ht (t : Tag) (bs : List Byte) : (s.pushBytes t bs).ht = s.ht := rfl
@[simp] theorem State.pushBytes_he (t : Tag) (bs : List Byte) : (s.pushBytes t bs).he = s.he := rfl
@[simp] theorem State.pushBytes_hd (t : Tag) (bs : List Byte) : (s.pushBytes t bs).hd = s.hd := rfl
@[simp] theorem State.pushBytes_out (t : Tag) (bs : List Byte) : (s.pushBytes t bs).out = s.out ++ bs.map (fun b => ⟨t, zext32 b⟩) := rfl
@[simp] theorem State.pushBytes_cmds (t : Tag) (bs : List Byte) : (s.pushBytes t bs).cmds = s.cmds := rfl
@[simp] theorem State.pushBytes_host (t : Tag) (bs : List Byte) : (s.pushBytes t bs).host = s.host := rfl

/-! ## `advance` -/

@[simp] theorem State.advance_cp (n : Nat) : (s.advance n).cp = s.cp + n := rfl
@[simp] theorem State.advance_hi (n : Nat) : (s.advance n).hi = s.hi := rfl
@[simp] theorem State.advance_le (n : Nat) : (s.advance n).le = s.le := rfl
@[simp] theorem State.advance_ld (n : Nat) : (s.advance n).ld = s.ld := rfl
@[simp] theorem State.advance_bp (n : Nat) : (s.advance n).bp = s.bp := rfl
@[simp] theorem State.advance_bu (n : Nat) : (s.advance n).bu = s.bu := rfl
@[simp] theorem State.advance_ht (n : Nat) : (s.advance n).ht = s.ht := rfl
@[simp] theorem State.advance_he (n : Nat) : (s.advance n).he = s.he := rfl
@[simp] theorem State.advance_hd (n : Nat) : (s.advance n).hd = s.hd := rfl
@[simp] theorem State.advance_out (n : Nat) : (s.advance n).out = s.out := rfl
@[simp] theorem State.advance_cmds (n : Nat) : (s.advance n).cmds = s.cmds := rfl
@[simp] theorem State.advance_host (n : Nat) : (s.advance n).host = s.host := rfl

/-! ## `raise` -/

@[simp] theorem raise_cp (e : ErrorKind) (info : BitVec 16) (opc : BitVec 8) : (raise e info opc s).cp = s.cp := rfl
@[simp] theorem raise_hi (e : ErrorKind) (info : BitVec 16) (opc : BitVec 8) : (raise e info opc s).hi = s.hi.record (errorWord e info opc) := rfl
@[simp] theorem raise_le (e : ErrorKind) (info : BitVec 16) (opc : BitVec 8) : (raise e info opc s).le = s.le := rfl
@[simp] theorem raise_ld (e : ErrorKind) (info : BitVec 16) (opc : BitVec 8) : (raise e info opc s).ld = s.ld := rfl
@[simp] theorem raise_bp (e : ErrorKind) (info : BitVec 16) (opc : BitVec 8) : (raise e info opc s).bp = s.bp := rfl
@[simp] theorem raise_bu (e : ErrorKind) (info : BitVec 16) (opc : BitVec 8) : (raise e info opc s).bu = s.bu := rfl
@[simp] theorem raise_ht (e : ErrorKind) (info : BitVec 16) (opc : BitVec 8) : (raise e info opc s).ht = s.ht := rfl
@[simp] theorem raise_he (e : ErrorKind) (info : BitVec 16) (opc : BitVec 8) : (raise e info opc s).he = s.he := rfl
@[simp] theorem raise_hd (e : ErrorKind) (info : BitVec 16) (opc : BitVec 8) : (raise e info opc s).hd = s.hd := rfl
@[simp] theorem raise_out (e : ErrorKind) (info : BitVec 16) (opc : BitVec 8) : (raise e info opc s).out = s.out ++ [⟨.err, errorWord e info opc⟩] := rfl
@[simp] theorem raise_cmds (e : ErrorKind) (info : BitVec 16) (opc : BitVec 8) : (raise e info opc s).cmds = s.cmds := rfl
@[simp] theorem raise_host (e : ErrorKind) (info : BitVec 16) (opc : BitVec 8) : (raise e info opc s).host = s.host := rfl

/-! ## `acknowledge` -/

@[simp] theorem acknowledge_cp : (acknowledge s).cp = s.cp := rfl
@[simp] theorem acknowledge_hi : (acknowledge s).hi = { s.hi with errPending := false, errMulti := false, errinfo := 0 } := rfl
@[simp] theorem acknowledge_le : (acknowledge s).le = s.le := rfl
@[simp] theorem acknowledge_ld : (acknowledge s).ld = s.ld := rfl
@[simp] theorem acknowledge_bp : (acknowledge s).bp = s.bp := rfl
@[simp] theorem acknowledge_bu : (acknowledge s).bu = s.bu := rfl
@[simp] theorem acknowledge_ht : (acknowledge s).ht = s.ht := rfl
@[simp] theorem acknowledge_he : (acknowledge s).he = s.he := rfl
@[simp] theorem acknowledge_hd : (acknowledge s).hd = s.hd := rfl
@[simp] theorem acknowledge_out : (acknowledge s).out = s.out := rfl
@[simp] theorem acknowledge_cmds : (acknowledge s).cmds = s.cmds := rfl
@[simp] theorem acknowledge_host : (acknowledge s).host = s.host := rfl

/-! ## `HiUnit.record` -/

@[simp] theorem HiUnit.record_leRaw (h : HiUnit) (w : Word) : (h.record w).leRaw = h.leRaw := by
  unfold HiUnit.record; split <;> rfl

@[simp] theorem HiUnit.record_irqEn (h : HiUnit) (w : Word) : (h.record w).irqEn = h.irqEn := by
  unfold HiUnit.record; split <;> rfl

@[simp] theorem HiUnit.record_errPending (h : HiUnit) (w : Word) : (h.record w).errPending = true := by
  unfold HiUnit.record; split
  · assumption
  · rfl

theorem HiUnit.record_errMulti (h : HiUnit) (w : Word) : (h.record w).errMulti = (h.errMulti || h.errPending) := by
  unfold HiUnit.record; split <;> simp_all

theorem HiUnit.record_errinfo (h : HiUnit) (w : Word) :
    (h.record w).errinfo = if h.errPending then h.errinfo else w := by
  unfold HiUnit.record; split <;> simp_all

end Sys2Proof.Machine
end

