-- ==== Sys2Proof/Laws/Ops.lean ====
section
/-! SUPPORT. For each shared operation, one lemma that says everything it can do; later proofs cite these and do not unfold the
operations. -/

namespace Sys2Proof.Machine

/-! ## Words as numbers -/

theorem zext32_eq {k : Nat} (v : BitVec k) : zext32 v = BitVec.ofNat 32 v.toNat := by
  apply BitVec.eq_of_toNat_eq; simp [zext32]

/-- The word of an error as a number (R111). -/
theorem errorWord_eq (e : ErrorKind) (info : BitVec 16) (opc : BitVec 8) (n : Nat)
    (h : info.toNat * 2 ^ 16 + opc.toNat * 2 ^ 8 + e.code.toNat = n) : errorWord e info opc = BitVec.ofNat 32 n := by
  subst h; rfl

/-- `LE_CUR` and `LD_PREV` (R26) as a number. -/
theorem validWord_eq {k : Nat} (valid : Bool) (v : BitVec k) (hk : k ≤ 31) :
    validWord valid v = BitVec.ofNat 32 (if valid then 2 ^ 31 + v.toNat else 0) := by
  cases valid
  · rfl
  · have hv := v.isLt
    have hp : 2 ^ k ≤ 2 ^ 31 := Nat.pow_le_pow_right (by omega) hk
    have hor := Nat.two_pow_add_eq_or_of_lt (b := v.toNat) (i := 31) (by omega) 1
    apply BitVec.eq_of_toNat_eq
    simp only [validWord, zext32, if_true, BitVec.toNat_or, BitVec.toNat_setWidth, BitVec.toNat_ofNat]
    rw [Nat.mod_eq_of_lt (by omega : v.toNat < 2 ^ 32), Nat.mod_eq_of_lt (by omega : 2 ^ 31 + v.toNat < 2 ^ 32)]
    simp at hor ⊢
    omega

/-- `BP_STATE`, `BU_STATE` and `HE_STATE` (R26) as a number. -/
theorem bufferWord_eq {m k : Nat} (buf : BitVec m) (n : BitVec k) (hm : m ≤ 16) (hk : k ≤ 16) :
    bufferWord buf n = BitVec.ofNat 32 (buf.toNat * 2 ^ 16 + n.toNat) := by
  have h1 := buf.isLt
  have h2 := n.isLt
  have : 2 ^ m ≤ 2 ^ 16 := Nat.pow_le_pow_right (by omega) hm
  have : 2 ^ k ≤ 2 ^ 16 := Nat.pow_le_pow_right (by omega) hk
  apply BitVec.eq_of_toNat_eq
  simp only [bufferWord, zext32, BitVec.toNat_or, BitVec.toNat_setWidth, BitVec.toNat_ofNat, BitVec.toNat_shiftLeft,
    Nat.shiftLeft_eq]
  rw [Nat.mod_eq_of_lt (by omega : n.toNat < 2 ^ 32), Nat.mod_eq_of_lt (by omega : buf.toNat < 2 ^ 32),
    Nat.mod_eq_of_lt (by omega : buf.toNat * 2 ^ 16 < 2 ^ 32), Nat.mod_eq_of_lt (by omega : buf.toNat * 2 ^ 16 + n.toNat < 2 ^ 32),
    Nat.mul_comm, Nat.two_pow_add_eq_or_of_lt (by omega)]

/-! ## The end of a command -/

theorem Instr.length_eq (i : Instr) : i.length = (encode i).length := by cases i <;> rfl

@[simp] theorem complete_done (i : Instr) (s : State) : complete i (.done s) = .next (s.advance i.length) := rfl

@[simp] theorem complete_error (i : Instr) (e : ErrorKind) (info : BitVec 16) (s : State) :
    complete i (.error e info s) = .next ((raise e info i.opcode s).advance i.length) := rfl

@[simp] theorem complete_stop (i : Instr) (f : Fault) : complete i (.stop f) = .fault f := rfl

/-- A command that answers a next state ended at its last line or at a `raise`. -/
theorem complete_next {i : Instr} {r : Effect} {t : State} (h : complete i r = .next t) :
    (∃ u, r = .done u ∧ t = u.advance i.length) ∨
      ∃ e info u, r = .error e info u ∧ t = (raise e info i.opcode u).advance i.length := by
  cases r with
  | done u => exact .inl ⟨u, rfl, by simpa using h.symm⟩
  | error e info u => exact .inr ⟨e, info, u, rfl, by simpa using h.symm⟩
  | stop f => cases h

@[simp] theorem Effect.bind_done (s : State) (f : State → Effect) : (Effect.done s).bind f = f s := rfl

@[simp] theorem Effect.bind_error (e : ErrorKind) (info : BitVec 16) (s : State) (f : State → Effect) :
    (Effect.error e info s).bind f = .error e info s := rfl

@[simp] theorem Effect.bind_stop (flt : Fault) (f : State → Effect) : (Effect.stop flt).bind f = .stop flt := rfl

/-- Both parts ran to their last line. -/
theorem Effect.bind_eq_done {r : Effect} {f : State → Effect} {t : State} (h : r.bind f = .done t) :
    ∃ u, r = .done u ∧ f u = .done t := by
  cases r with
  | done u => exact ⟨u, rfl, h⟩
  | error e info u => cases h
  | stop flt => cases h

/-- The first part raised, or it ran to its last line and the second raised. -/
theorem Effect.bind_eq_error {r : Effect} {f : State → Effect} {e : ErrorKind} {info : BitVec 16} {t : State}
    (h : r.bind f = .error e info t) : r = .error e info t ∨ ∃ u, r = .done u ∧ f u = .error e info t := by
  cases r with
  | done u => exact .inr ⟨u, rfl, h⟩
  | error e' info' u => exact .inl h
  | stop flt => cases h

/-! ## The packer and the unpacker -/

/-- With fewer than 4 bits held, `bp_put` outputs one byte and holds 4 bits more (R80). -/
theorem bpPut_few (c : Code) (s : State) (h : s.bp.n.toNat < 4) :
    bpPut c s = { s with
      bp := ⟨BitVec.ofNat 8 ((s.bp.buf.toNat + c.toNat * 2 ^ s.bp.n.toNat) / 256), BitVec.ofNat 3 (s.bp.n.toNat + 4)⟩
    }.pushBytes .lbyte [BitVec.ofNat 8 (s.bp.buf.toNat + c.toNat * 2 ^ s.bp.n.toNat)] := by
  have h1 : (s.bp.n.toNat + 12) / 8 = 1 := by omega
  have h2 : (s.bp.n.toNat + 12) % 8 = s.bp.n.toNat + 4 := by omega
  simp [bpPut, h1, h2, lowBytes]

/-- With 4 bits held or more, `bp_put` outputs two bytes and holds 4 bits fewer (R80). -/
theorem bpPut_many (c : Code) (s : State) (h : 4 ≤ s.bp.n.toNat) :
    bpPut c s = { s with
      bp := ⟨BitVec.ofNat 8 ((s.bp.buf.toNat + c.toNat * 2 ^ s.bp.n.toNat) / 65536), BitVec.ofNat 3 (s.bp.n.toNat - 4)⟩
    }.pushBytes .lbyte [BitVec.ofNat 8 (s.bp.buf.toNat + c.toNat * 2 ^ s.bp.n.toNat),
      BitVec.ofNat 8 ((s.bp.buf.toNat + c.toNat * 2 ^ s.bp.n.toNat) / 256)] := by
  have hn := s.bp.n.isLt
  have h1 : (s.bp.n.toNat + 12) / 8 = 2 := by omega
  have h2 : (s.bp.n.toNat + 12) % 8 = s.bp.n.toNat - 4 := by omega
  simp [bpPut, h1, h2, lowBytes]

/-- `bp_put` writes the packer and the queue only. -/
theorem bpPut_frame (c : Code) (s : State) : bpPut c s = { s with bp := (bpPut c s).bp, out := (bpPut c s).out } := rfl

/-- `bp_flush` writes the packer and the queue only. -/
theorem bpFlush_frame (s : State) : bpFlush s = { s with bp := (bpFlush s).bp, out := (bpFlush s).out } := by
  unfold bpFlush; split <;> rfl

/-- A byte onto fewer than 4 bits completes no code (R82). -/
theorem buFeed_few (b : Byte) (u : BuUnit) (h : u.n.toNat < 4) :
    buFeed b u = (none, ⟨BitVec.ofNat 12 (u.buf.toNat + b.toNat * 2 ^ u.n.toNat), BitVec.ofNat 4 (u.n.toNat + 8)⟩) := by
  simp [buFeed, show ¬ 12 ≤ u.n.toNat + 8 by omega]

/-- A byte onto 4 bits or more completes one code (R82). -/
theorem buFeed_code (b : Byte) (u : BuUnit) (h : 4 ≤ u.n.toNat) :
    buFeed b u = (some (BitVec.ofNat 12 (u.buf.toNat + b.toNat * 2 ^ u.n.toNat)),
      ⟨BitVec.ofNat 12 ((u.buf.toNat + b.toNat * 2 ^ u.n.toNat) / 4096), BitVec.ofNat 4 (u.n.toNat - 4)⟩) := by
  simp [buFeed, show 12 ≤ u.n.toNat + 8 by omega, show u.n.toNat + 8 - 12 = u.n.toNat - 4 by omega]

/-! ## The dictionary encoder -/

/-- A code found is in the range searched, and its entry is the key (R43). -/
theorem camFind_some {u : LeUnit} {key : LeEntry} {lo hi : Nat} {c : Code} (h : camFind u key lo hi = some c) :
    ∃ k, lo ≤ k ∧ k < hi ∧ u.entry k = key ∧ c = BitVec.ofNat 12 k := by
  obtain ⟨k, hk, rfl⟩ := Option.map_eq_some_iff.mp h
  have hm := List.mem_of_find?_eq_some hk
  have he := List.find?_some hk
  simp only [List.mem_range'_1, decide_eq_true_eq] at hm he
  exact ⟨k, by omega, by omega, he, rfl⟩

/-- Where no code is found, no entry of the range is the key (R43). -/
theorem camFind_none {u : LeUnit} {key : LeEntry} {lo hi : Nat} :
    camFind u key lo hi = none ↔ ∀ k, lo ≤ k → k < hi → u.entry k ≠ key := by
  simp only [camFind, Option.map_eq_none_iff, List.find?_eq_none, List.mem_range'_1, decide_eq_true_eq]
  exact ⟨fun h k h1 h2 => h k ⟨h1, by omega⟩, fun h k hk => h k hk.1 (by omega)⟩

/-- `emit_code` in raw mode (R71). -/
theorem emitCode_raw (c : Code) (s : State) (h : s.hi.leRaw = true) :
    emitCode c s = { s.push .code (zext32 c) with le := { s.le with ncodes := s.le.ncodes + 1 } } := by
  simp [emitCode, h]

/-- `emit_code` in packed mode (R71). -/
theorem emitCode_packed (c : Code) (s : State) (h : s.hi.leRaw = false) :
    emitCode c s = { bpPut c s with le := { s.le with ncodes := s.le.ncodes + 1 } } := by
  unfold emitCode; rw [if_neg (by simp [h])]; rfl

/-- The encoder's entries after an insertion (R70). -/
theorem leInsert_entry (e : LeEntry) (u : LeUnit) (j : Nat) :
    (leInsert e u).entry j = if u.next.toNat < 4096 ∧ j = u.next.toNat then e else u.entry j := by
  unfold leInsert LeUnit.entry
  by_cases h : u.next.toNat < Config.dictCap
  · have h' : u.next.toNat < 4096 := h
    simp [h, h', Memory.read_write]
  · have h' : ¬ u.next.toNat < 4096 := h
    simp [h, h']

/-! ## The dictionary decoder -/

/-- The decoder's entries after an insertion (R74). -/
theorem ldInsert_entry (f : Byte) (u : LdUnit) (j : Nat) :
    (ldInsert f u).entry j =
      if u.next.toNat < 4096 ∧ j = u.next.toNat then ⟨u.prev, f, u.firstOf u.prev, u.lenOf u.prev + 1⟩ else u.entry j := by
  unfold ldInsert LdUnit.entry
  by_cases h : u.next.toNat < Config.dictCap
  · have h' : u.next.toNat < 4096 := h
    simp [h, h', Memory.read_write]
  · have h' : ¬ u.next.toNat < 4096 := h
    simp [h, h']

/-- `output_string` stops at a full stack or pushes and counts the string (R75). -/
theorem outputString_cases (k : Code) (s : State) :
    (s.ld.stringOf k = none ∧ outputString k s = .stop .stringStackOverflow) ∨
      ∃ bytes, s.ld.stringOf k = some bytes ∧ outputString k s =
        .done ({ s with ld := { s.ld with nbytes := s.ld.nbytes + BitVec.ofNat 32 bytes.length } }.pushBytes .dbyte bytes) := by
  unfold outputString
  cases h : s.ld.stringOf k with
  | none => exact .inl ⟨rfl, rfl⟩
  | some bytes => exact .inr ⟨bytes, rfl, rfl⟩

/-! ## The Huffman tree builder -/

/-- `takeLeast` finds nothing only where nothing is live. -/
theorem takeLeast_none {live : List LiveNode} : takeLeast live = none ↔ live = [] := by
  cases live with
  | nil => simp [takeLeast]
  | cons x xs => simp only [takeLeast]; split <;> simp; split <;> simp

/-- `takeLeast` takes one member away and keeps the others. -/
theorem takeLeast_perm {live rest : List LiveNode} {x : LiveNode} (h : takeLeast live = some (x, rest)) :
    live.Perm (x :: rest) := by
  induction live generalizing x rest with
  | nil => cases h
  | cons y ys ih =>
    simp only [takeLeast] at h
    split at h
    · next hn =>
      cases h
      rw [takeLeast_none.mp hn]
    · next z zs hz =>
      split at h
      · cases h; exact (ih hz).cons y
      · cases h; exact ((ih hz).cons y).trans (List.Perm.swap ..)

theorem LiveNode.before_iff (x y : LiveNode) :
    x.before y = true ↔ x.weight < y.weight ∨ x.weight = y.weight ∧ x.idx.toNat < y.idx.toNat := by
  simp [LiveNode.before]

/-- `takeLeast` takes the least member in the order `(weight, idx)` (R91). -/
theorem takeLeast_least {live rest : List LiveNode} {x : LiveNode} (h : takeLeast live = some (x, rest)) :
    ∀ y ∈ rest, y.before x = false := by
  induction live generalizing x rest with
  | nil => cases h
  | cons y ys ih =>
    simp only [takeLeast] at h
    split at h
    · cases h; simp
    · next z zs hz =>
      split at h
      · next hb =>
        cases h
        intro w hw
        rcases List.mem_cons.mp hw with rfl | hw
        · have := (LiveNode.before_iff _ _).mp hb
          simp only [LiveNode.before, decide_eq_false_iff_not]; omega
        · have h1 := (LiveNode.before_iff _ _).mp hb
          have h2 := ih hz w hw
          simp only [LiveNode.before, decide_eq_false_iff_not] at h2 ⊢; omega
      · next hb =>
        cases h
        intro w hw
        rcases List.mem_cons.mp hw with rfl | hw
        · simpa using hb
        · exact ih hz w hw

@[simp] theorem HtUnit.setCode_node (u : HtUnit) (s : Nat) (p : List Bool) : (u.setCode s p).node = u.node := rfl
@[simp] theorem HtUnit.setCode_root (u : HtUnit) (s : Nat) (p : List Bool) : (u.setCode s p).root = u.root := rfl
@[simp] theorem HtUnit.setCode_freq (u : HtUnit) (s : Nat) (p : List Bool) : (u.setCode s p).freq = u.freq := rfl
@[simp] theorem HtUnit.setCode_nleaves (u : HtUnit) (s : Nat) (p : List Bool) : (u.setCode s p).nleaves = u.nleaves := rfl

/-- The codebook walk writes the codebook only (R92). -/
theorem walk_frame (depth : Nat) (i : Option NodeIdx) (path : List Bool) (u : HtUnit) :
    walk depth i path u = { u with codeLen := (walk depth i path u).codeLen, codeBits := (walk depth i path u).codeBits } := by
  induction depth generalizing i path u with
  | zero => rfl
  | succ depth ih =>
    cases i with
    | none => rfl
    | some i =>
      by_cases h : i.toNat < Config.nsym
      · simp [walk, h, HtUnit.setCode]
      · simp only [walk, h, if_false]
        rw [ih, ih]

/-- Building the tree writes the number of leaves, the root and the arena only (R91). -/
theorem buildTree_frame (u : HtUnit) :
    buildTree u = { u with nleaves := (buildTree u).nleaves, root := (buildTree u).root, node := (buildTree u).node } := by
  unfold buildTree; dsimp only; split <;> rfl

/-- The number of leaves (R91). -/
theorem buildTree_nleaves (u : HtUnit) : (buildTree u).nleaves = BitVec.ofNat 9 (leavesOf u).length := by
  unfold buildTree; dsimp only; split <;> rfl

/-- The codebook generator writes the codebook only (R92). -/
theorem genCodebook_frame (u : HtUnit) :
    genCodebook u = { u with codeLen := (genCodebook u).codeLen, codeBits := (genCodebook u).codeBits } :=
  walk_frame _ _ _ _

/-- `HF.BUILD` counts the leaves (R91, R93). -/
theorem hfBuild_nleaves (s : State) : (hfBuild s).ht.nleaves = BitVec.ofNat 9 (leavesOf s.ht).length := by
  show (genCodebook (buildTree s.ht)).nleaves = _
  rw [genCodebook_frame]
  exact buildTree_nleaves s.ht

/-- A path's value is below the power of two of its length (R92). -/
theorem bitsValue_lt (path : List Bool) : bitsValue path < 2 ^ path.length := by
  induction path with
  | nil => simp [bitsValue]
  | cons b bs ih => simp only [bitsValue, List.length_cons, Nat.pow_succ]; cases b <;> simp <;> omega

/-! ## The Huffman coder and decoder -/

/-- One bit either completes a byte, which is pushed, or joins the bits held (R98). -/
theorem heBit_cases (s : State) (bit : Bool) :
    (s.he.n.toNat = 7 ∧ heBit s bit = { s with he := { s.he with buf := 0, n := 0 } }.push .hbyte
        (zext32 (BitVec.ofNat 8 (s.he.buf.toNat + bit.toNat * 2 ^ s.he.n.toNat)))) ∨
      (s.he.n.toNat < 7 ∧ heBit s bit = { s with
        he := { s.he with buf := BitVec.ofNat 8 (s.he.buf.toNat + bit.toNat * 2 ^ s.he.n.toNat), n := s.he.n + 1 } }) := by
  have hn := s.he.n.isLt
  by_cases h : s.he.n.toNat + 1 = 8
  · exact .inl ⟨by omega, by simp [heBit, h]⟩
  · exact .inr ⟨by omega, by simp [heBit, h]⟩

/-- Everything one bit can do to the traversal engine (R100). -/
theorem hdBit_cases (bit : Bool) (s : State) :
    (s.hd.pos = none ∧ hdBit bit s = .error .malformed 1 (hdAbort s)) ∨
      (∃ i, s.hd.pos = some i ∧ s.ht.nodeAt i = none ∧ hdBit bit s = .stop .arenaIndex) ∨
      (∃ i e, s.hd.pos = some i ∧ s.ht.nodeAt i = some e ∧ (if bit then e.right else e.left) = none ∧
        hdBit bit s = .error .malformed 1 (hdAbort s)) ∨
      ∃ i e child, s.hd.pos = some i ∧ s.ht.nodeAt i = some e ∧ (if bit then e.right else e.left) = some child ∧
        hdBit bit s = .done (hdMove child s) := by
  unfold hdBit
  cases hp : s.hd.pos with
  | none => exact .inl ⟨rfl, rfl⟩
  | some i =>
    dsimp only
    cases hn : s.ht.nodeAt i with
    | none => exact .inr (.inl ⟨i, rfl, hn, rfl⟩)
    | some e =>
      dsimp only
      cases hc : (if bit then e.right else e.left) with
      | none => exact .inr (.inr (.inl ⟨i, e, rfl, hn, hc, rfl⟩))
      | some child => exact .inr (.inr (.inr ⟨i, e, child, rfl, hn, hc, rfl⟩))

/-- Moving to a child writes the engine and the queue only (R100). -/
theorem hdMove_frame (child : NodeIdx) (s : State) :
    hdMove child s = { s with hd := (hdMove child s).hd, out := (hdMove child s).out } := by
  unfold hdMove; split <;> rfl

end Sys2Proof.Machine
end

