-- ==== Sys2Proof/Laws/PerInstr.lean ====
section
/-! SUPPORT. Statements made of every instruction, one lemma per constructor. -/

/-- What the encoding of a command looks like (R55, R59, R61): its opcode is in the map, its first word carries it, and its length is
the one the opcode gives. -/
def Sys2Proof.Laws.EncodeShape.Statement (i : Sys2Proof.Instr) : Prop :=
  (Sys2Proof.opRow i.opcode).isSome = true ∧ ((Sys2Proof.encode i).head?.map Sys2Proof.opcField) = some i.opcode ∧
    (Sys2Proof.encode i).length = Sys2Proof.wordsOf i.opcode

namespace Sys2Proof.Laws.EncodeShape

theorem nop : Statement (.nop) := ⟨rfl, congrArg some (Sys2Proof.opcField_word _), rfl⟩
theorem rdreg (r : BitVec 8) : Statement (.rdreg r) := ⟨rfl, congrArg some (Sys2Proof.opcField_word _), rfl⟩
theorem wrctrl (v : BitVec 2) : Statement (.wrctrl v) := ⟨rfl, congrArg some (Sys2Proof.opcField_word _), rfl⟩
theorem clrerr : Statement (.clrerr) := ⟨rfl, congrArg some (Sys2Proof.opcField_word _), rfl⟩
theorem softreset : Statement (.softreset) := ⟨rfl, congrArg some (Sys2Proof.opcField_word _), rfl⟩
theorem leByte (b : Byte) : Statement (.leByte b) := ⟨rfl, congrArg some (Sys2Proof.opcField_word _), rfl⟩
theorem leEnd : Statement (.leEnd) := ⟨rfl, congrArg some (Sys2Proof.opcField_word _), rfl⟩
theorem ldCode (c : Code) : Statement (.ldCode c) := ⟨rfl, congrArg some (Sys2Proof.opcField_word _), rfl⟩
theorem ldByte (b : Byte) : Statement (.ldByte b) := ⟨rfl, congrArg some (Sys2Proof.opcField_word _), rfl⟩
theorem ldEnd : Statement (.ldEnd) := ⟨rfl, congrArg some (Sys2Proof.opcField_word _), rfl⟩
theorem bpPut (c : Code) : Statement (.bpPut c) := ⟨rfl, congrArg some (Sys2Proof.opcField_word _), rfl⟩
theorem bpFlush : Statement (.bpFlush) := ⟨rfl, congrArg some (Sys2Proof.opcField_word _), rfl⟩
theorem buPut (b : Byte) : Statement (.buPut b) := ⟨rfl, congrArg some (Sys2Proof.opcField_word _), rfl⟩
theorem buEnd : Statement (.buEnd) := ⟨rfl, congrArg some (Sys2Proof.opcField_word _), rfl⟩
theorem hfClear : Statement (.hfClear) := ⟨rfl, congrArg some (Sys2Proof.opcField_word _), rfl⟩
theorem hfCount (b : Byte) : Statement (.hfCount b) := ⟨rfl, congrArg some (Sys2Proof.opcField_word _), rfl⟩
theorem hfSetfreq (s : Byte) (count : Word) : Statement (.hfSetfreq s count) := ⟨rfl, congrArg some (Sys2Proof.opcField_word _), rfl⟩
theorem hfBuild : Statement (.hfBuild) := ⟨rfl, congrArg some (Sys2Proof.opcField_word _), rfl⟩
theorem hfEnc (b : Byte) : Statement (.hfEnc b) := ⟨rfl, congrArg some (Sys2Proof.opcField_word _), rfl⟩
theorem hfEncend : Statement (.hfEncend) := ⟨rfl, congrArg some (Sys2Proof.opcField_word _), rfl⟩
theorem hfDecbits (n : BitVec 4) (b : Byte) : Statement (.hfDecbits n b) := ⟨rfl, congrArg some (Sys2Proof.opcField_word _), rfl⟩
theorem hfDecend : Statement (.hfDecend) := ⟨rfl, congrArg some (Sys2Proof.opcField_word _), rfl⟩
theorem hfRdfreq (s : Byte) : Statement (.hfRdfreq s) := ⟨rfl, congrArg some (Sys2Proof.opcField_word _), rfl⟩
theorem hfRdlen (s : Byte) : Statement (.hfRdlen s) := ⟨rfl, congrArg some (Sys2Proof.opcField_word _), rfl⟩
theorem hfRdcode (s : Byte) (w : BitVec 3) : Statement (.hfRdcode s w) := ⟨rfl, congrArg some (Sys2Proof.opcField_word _), rfl⟩

end Sys2Proof.Laws.EncodeShape
end

