-- ==== Sys2Proof/Tests/Slice0.lean ====
section
/-! SUPPORT. The model's own tests, with expected values from 95_test_vectors.md (the vector is named in each comment) or from the
rule named, and for each obligation with hypotheses a state and operands that meet them. -/

open Sys2Proof Sys2Proof.Machine

namespace Sys2Proof.Tests

/-! ## Helpers -/

/-- What `f` shows of the next state. -/
def seen {α : Type} (o : Host.Outcome State Fault Refusal) (f : State → α) : Option α :=
  match o with
  | .next t => some (f t)
  | .fault _ => none
  | .refused _ => none

/-- The output words of the next state. -/
def words (o : Host.Outcome State Fault Refusal) : Option (List OutWord) := seen o (fun t => t.out)

/-- A state with an encode call under way: the accumulator is "A", and "AB" is code 256. -/
def leUnit : LeUnit := ⟨true, 0x41, 257, 1, [(256, ⟨0x41, 0x42⟩)]⟩

/-- A decode call under way: the last code was "A", and "AB" is code 256. -/
def ldUnit : LdUnit := ⟨true, 0x41, 257, 3, [(256, ⟨0x41, 0x42, 0x41, 2⟩)]⟩

/-- The tree of W5: one leaf, 'x'. -/
def oneLeaf : HtUnit := ⟨[(0x78, 3)], true, 1, some 256, [(256, ⟨some 0x78, none⟩)], [(0x78, 1)], []⟩

/-- The tree of T-H6: node 256 = (A, B), node 257 = (C, 256). -/
def threeLeaves : HtUnit where
  freq := [(0x41, 1), (0x42, 1), (0x43, 1)]
  treeValid := true
  nleaves := 3
  root := some 257
  node := [(256, ⟨some 0x41, some 0x42⟩), (257, ⟨some 0x43, some 256⟩)]
  codeLen := [(0x41, 2), (0x42, 2), (0x43, 1)]
  codeBits := [(0x41, 1), (0x42, 3)]

/-- Reset, in raw mode. -/
def raw : State := { State.reset with hi := ⟨true, false, false, false, 0⟩ }

/-- Reset, with a tree. -/
def withTree (u : HtUnit) : State := { State.reset with ht := u, hd := ⟨u.root, 0⟩ }

/-- Reset, with frequencies and no tree. -/
def withFreq (m : Memory (BitVec 32)) : State := { State.reset with ht := { HtUnit.reset with freq := m } }

/-! ## WellFormed: each check refuses an ill-formed term (R62, U6) -/

theorem test_wf_refuses_rdreg : (Instr.rdreg 0x12).wf = false ∧ (Instr.rdreg 0xFF).wf = false ∧ (Instr.rdreg 0x11).wf = true := by
  decide

theorem test_wf_refuses_hfDecbits : (Instr.hfDecbits 9 0x61).wf = false ∧ (Instr.hfDecbits 8 0x61).wf = true := by decide

/-! ## Decoding: the table of legal encodings, one example of each command (95_test_vectors.md) -/

theorem test_decode_hostInterface :
    decode [0x00000000] = .instr .nop [] ∧ decode [0x01000002] = .instr (.rdreg 2) [] ∧
      decode [0x02000003] = .instr (.wrctrl 3) [] ∧ decode [0x03000000] = .instr .clrerr [] ∧
      decode [0x04000000] = .instr .softreset [] := by decide

theorem test_decode_encoder :
    decode [0x10000041] = .instr (.leByte 0x41) [] ∧ decode [0x11000000] = .instr .leEnd [] := by decide

theorem test_decode_decoder :
    decode [0x18000100] = .instr (.ldCode 0x100) [] ∧ decode [0x19000041] = .instr (.ldByte 0x41) [] ∧
      decode [0x1A000000] = .instr .ldEnd [] := by decide

theorem test_decode_bitPacker :
    decode [0x20000ABC] = .instr (.bpPut 0xABC) [] ∧ decode [0x21000000] = .instr .bpFlush [] ∧
      decode [0x280000BC] = .instr (.buPut 0xBC) [] ∧ decode [0x29000000] = .instr .buEnd [] := by decide

theorem test_decode_tree :
    decode [0x30000000] = .instr .hfClear [] ∧ decode [0x31000061] = .instr (.hfCount 0x61) [] ∧
      decode [0x32000066, 0x0000002D] = .instr (.hfSetfreq 0x66 45) [] ∧ decode [0x33000000] = .instr .hfBuild [] ∧
      decode [0x38000066] = .instr (.hfRdfreq 0x66) [] ∧ decode [0x39000061] = .instr (.hfRdlen 0x61) [] ∧
      decode [0x3A000161] = .instr (.hfRdcode 0x61 1) [] := by decide

theorem test_decode_coder :
    decode [0x34000061] = .instr (.hfEnc 0x61) [] ∧ decode [0x35000000] = .instr .hfEncend [] ∧
      decode [0x36000201] = .instr (.hfDecbits 2 0x01) [] ∧ decode [0x37000000] = .instr .hfDecend [] := by decide

/-- The table of illegal words (95_test_vectors.md); the second word of `0x32000161` is consumed. -/
theorem test_decode_illegal :
    decode [0x05000000] = .illegal .unassignedOpcode 0x05 [] ∧ decode [0xFF123456] = .illegal .unassignedOpcode 0xFF [] ∧
      decode [0x00000001] = .illegal .reservedBits 0x00 [] ∧ decode [0x10000141] = .illegal .reservedBits 0x10 [] ∧
      decode [0x02000004] = .illegal .reservedBits 0x02 [] ∧ decode [0x3A000861] = .illegal .reservedBits 0x3A [] ∧
      decode [0x18001000] = .illegal .reservedBits 0x18 [] ∧ decode [0x32000161, 5] = .illegal .reservedBits 0x32 [] ∧
      decode [0x11000001] = .illegal .reservedBits 0x11 [] ∧ decode [0x32000161] = .incomplete := by decide

/-- The same table, encoded. -/
theorem test_encode :
    encode (.wrctrl 3) = [0x02000003] ∧ encode (.hfSetfreq 0x66 45) = [0x32000066, 0x0000002D] ∧
      encode (.hfDecbits 2 0x01) = [0x36000201] ∧ encode (.hfRdcode 0x61 1) = [0x3A000161] ∧ encode (.bpPut 0xABC) = [0x20000ABC] := by
  decide

theorem test_decodeTableWord :
    decodeTableWord 32 0x10000041 = some (.leByte 0x41) ∧ decodeTableWord 32 0x32000066 = some (.hfSetfreq 0x66 0) ∧
      decodeTableWord 64 0x0000002D32000066 = some (.hfSetfreq 0x66 45) ∧ decodeTableWord 32 0x00000001 = none := by decide

theorem test_withFetchWord :
    seen (step (State.reset.withFetchWord 32 0x31000061)) (fun t => (t.cp, t.ht.freqOf 0x61)) = some (1, 1) := by decide

/-! ## Steps -/

/-- `0x10000141` (T-E8). -/
theorem test_step_illegal :
    words (step { State.reset with cmds := [0x10000141] }) = some [⟨.err, 0x00011001⟩] := by decide

/-- R61: the first word of `HF.SETFREQ` waits, and a reset discards it. -/
theorem test_step_halfReceived :
    seen (step { State.reset with cmds := [0x32000061], host := [.reset] }) (fun t => (t.cmds, t.host)) = some ([], []) := by decide

/-- R15: a word transfers. -/
theorem test_step_send :
    seen (step { State.reset with host := [.send 0x03000000] }) (fun t => (t.cmds, t.cp)) = some ([0x03000000], 0) := by decide

/-- R16: the oldest output word leaves. -/
theorem test_step_take :
    seen (step { State.reset with out := [⟨.reg, 1⟩, ⟨.reg, 2⟩], host := [.take] }) (fun t => (outPort t, t.out)) =
      some (some (0, 2), [⟨.reg, 2⟩]) := by decide

/-! ## Host-interface commands -/

theorem test_nop : seen (exec .nop raw) (fun t => (t.cp, t.out, t.hi)) = some (1, [], raw.hi) := by decide

/-- T-C1. -/
theorem test_rdreg : words (exec (.rdreg 0x02) State.reset) = some [⟨.reg, 0x40⟩] := by decide

/-- The table of illegal words: `0x01000012`. -/
theorem test_rdreg_unassigned : words (exec (.rdreg 0x12) State.reset) = some [⟨.err, 0x00020101⟩] := by decide

/-- T-C2: `IRQ_EN` with an error pending raises `irq` at once (R106). -/
theorem test_wrctrl :
    seen (exec (.wrctrl 2) { State.reset with hi := ⟨true, false, true, false, 0x01001802⟩ }) (fun t => (t.hi.leRaw, irq t)) =
      some (false, true) := by decide

/-- T-C2. -/
theorem test_clrerr :
    seen (exec .clrerr { State.reset with hi := ⟨false, true, true, true, 0x01001802⟩ }) (fun t => (t.hi, irq t)) =
      some (⟨false, true, false, false, 0⟩, false) := by decide

/-- T-C4. -/
theorem test_softreset :
    seen (exec .softreset { raw with le := leUnit, out := [⟨.dbyte, 0x41⟩], cp := 4 })
      (fun t => (t.hi.leRaw, t.le.curValid, t.out, t.cp)) = some (false, false, [⟨.dbyte, 0x41⟩], 5) := by decide

/-! ## Dictionary encoder -/

set_option maxRecDepth 40000 in
/-- T-E7: the frozen dictionary. -/
theorem test_leByte_frozen :
    seen (exec (.leByte 0x42) { raw with le := ⟨true, 0x41, 4096, 0, []⟩ }) (fun t => (t.out, t.le.next, t.le.cur, statusWord t)) =
      some ([⟨.code, 0x41⟩], 0x1000, 0x42, 0xC8) := by decide

/-- W1, the second byte: a miss emits 0x041 and inserts "AA" = 0x100. -/
theorem test_leByte_miss :
    seen (exec (.leByte 0x41) { raw with le := ⟨true, 0x41, 256, 0, []⟩ }) (fun t => (t.out, t.le)) =
      some ([⟨.code, 0x41⟩], ⟨true, 0x41, 257, 1, [(256, ⟨0x41, 0x41⟩)]⟩) := by decide

/-- R72, the example: `LE.END` after `LE.BYTE 'A'` from fresh, packed. -/
theorem test_leEnd_packed :
    words (exec .leEnd { State.reset with le := ⟨true, 0x41, 256, 0, []⟩ }) =
      some [⟨.lbyte, 0x41⟩, ⟨.lbyte, 0x00⟩, ⟨.leDone, 1⟩] := by decide

/-- T-C5, the end: raw mode does not flush the packer. -/
theorem test_leEnd_raw :
    seen (exec .leEnd { raw with le := ⟨true, 0x43, 258, 2, []⟩, bp := ⟨0, 4⟩ }) (fun t => (t.out, t.bp)) =
      some ([⟨.code, 0x43⟩, ⟨.leDone, 3⟩], ⟨0, 4⟩) := by decide

/-! ## Dictionary decoder -/

/-- T-D1, the second code: the self-referential case. -/
theorem test_ldCode_self :
    seen (exec (.ldCode 0x100) { State.reset with ld := ⟨true, 0x41, 256, 1, []⟩ }) (fun t => (t.out, t.ld)) =
      some ([⟨.dbyte, 0x41⟩, ⟨.dbyte, 0x41⟩], ⟨true, 0x100, 257, 3, [(256, ⟨0x41, 0x41, 0x41, 2⟩)]⟩) := by decide

/-- T-D4, the second code. -/
theorem test_ldCode_beyond :
    seen (exec (.ldCode 0x102) { State.reset with ld := ⟨true, 0x41, 256, 1, []⟩, bu := ⟨5, 4⟩ })
      (fun t => (t.out, t.hi.errinfo, t.ld.prevValid, t.bu)) =
      some ([⟨.err, 0x01021802⟩], 0x01021802, false, ⟨0, 0⟩) := by decide

/-- R77, the example: the byte 0x00 completes code 0x041. -/
theorem test_ldByte :
    seen (exec (.ldByte 0x00) { State.reset with bu := ⟨0x41, 8⟩ }) (fun t => (t.out, t.bu)) =
      some ([⟨.dbyte, 0x41⟩], ⟨0, 4⟩) := by decide

/-- T-D8: the residue is discarded. -/
theorem test_ldEnd :
    seen (exec .ldEnd { State.reset with ld := ⟨true, 0x42, 257, 2, []⟩, bu := ⟨0, 8⟩ }) (fun t => (t.out, t.bu, t.ld.next)) =
      some ([⟨.ldDone, 2⟩], ⟨0, 0⟩, 256) := by decide

/-! ## BitPacker and BitUnpacker -/

/-- T-P1. -/
theorem test_bpPut :
    seen (exec (.bpPut 0xABC) State.reset) (fun t => (t.out, regValue 0x0A t)) = some ([⟨.lbyte, 0xBC⟩], some 0x000A0004) := by decide

/-- T-P2, the second code. -/
theorem test_bpPut_twoBytes :
    seen (exec (.bpPut 0x123) { State.reset with bp := ⟨0xA, 4⟩ }) (fun t => (t.out, t.bp)) =
      some ([⟨.lbyte, 0x3A⟩, ⟨.lbyte, 0x12⟩], ⟨0, 0⟩) := by decide

/-- T-P3, and T-P5. -/
theorem test_bpFlush :
    words (exec .bpFlush { State.reset with bp := ⟨0xA, 4⟩ }) = some [⟨.lbyte, 0x0A⟩] ∧ words (exec .bpFlush State.reset) = some [] := by
  decide

/-- R85, the example: the second byte. -/
theorem test_buPut :
    seen (exec (.buPut 0x1F) { State.reset with bu := ⟨0xFF, 8⟩ }) (fun t => (t.out, t.bu)) =
      some ([⟨.ucode, 0xFFF⟩], ⟨1, 4⟩) := by decide

/-- T-P8b: an 8-bit residue is discarded with no error. -/
theorem test_buEnd : seen (exec .buEnd { State.reset with bu := ⟨8, 8⟩ }) (fun t => (t.out, t.bu)) = some ([], ⟨0, 0⟩) := by decide

/-! ## Huffman -/

/-- R88. -/
theorem test_hfClear :
    seen (exec .hfClear (withTree threeLeaves)) (fun t => (t.ht, t.hd)) =
      some ({ threeLeaves with freq := [], treeValid := false, nleaves := 0, root := none }, ⟨none, 0⟩) := by decide

/-- T-H9e. -/
theorem test_hfCount_overflow :
    seen (exec (.hfCount 0x41) (withFreq [(0x41, 0xFFFFFFFF)])) (fun t => (t.out, t.ht.freqOf 0x41)) =
      some ([⟨.err, 0x01413106⟩], 0xFFFFFFFF) := by decide

/-- HZ7: counting invalidates the tree. -/
theorem test_hfCount :
    seen (exec (.hfCount 0x78) (withTree oneLeaf)) (fun t => (t.ht.freqOf 0x78, t.ht.treeValid)) = some (4, false) := by decide

/-- R90: a count of 0 removes the symbol. -/
theorem test_hfSetfreq :
    seen (exec (.hfSetfreq 0x66 45) State.reset) (fun t => (t.ht.freqOf 0x66, t.cp)) = some (45, 2) ∧
      seen (exec (.hfSetfreq 0x78 0) (withTree oneLeaf)) (fun t => t.ht.freq) = some [] := by decide

/-- T-H6. -/
theorem test_hfBuild : seen (exec .hfBuild (withFreq threeLeaves.freq)) (fun t => t.ht) = some threeLeaves := by decide

/-- W5. -/
theorem test_hfBuild_oneLeaf : seen (exec .hfBuild (withFreq oneLeaf.freq)) (fun t => t.ht) = some oneLeaf := by decide

/-- T-H6, the last symbol of "ABC": the code "11" after the bits 0, 1, 1, ... -/
theorem test_hfEnc :
    seen (exec (.hfEnc 0x42) { withTree threeLeaves with he := ⟨1, 2, 2⟩ }) (fun t => t.he) = some ⟨0xD, 4, 4⟩ := by decide

/-- T-H9b. -/
theorem test_hfEnc_noCode :
    seen (exec (.hfEnc 0x7A) { withTree threeLeaves with he := ⟨1, 2, 2⟩ }) (fun t => (t.out, t.he)) =
      some ([⟨.err, 0x007A3405⟩], ⟨0, 0, 0⟩) := by decide

/-- T-H6, the end of "ABC". -/
theorem test_hfEncend :
    seen (exec .hfEncend { withTree threeLeaves with he := ⟨0xD, 5, 5⟩ }) (fun t => (t.out, t.he)) =
      some ([⟨.hbyte, 0x0D⟩, ⟨.hbits, 5⟩], ⟨0, 0, 0⟩) := by decide

/-- T-H6, decoded. -/
theorem test_hfDecbits :
    seen (exec (.hfDecbits 5 0x0D) (withTree threeLeaves)) (fun t => (t.out, t.hd)) =
      some ([⟨.hsym, 0x41⟩, ⟨.hsym, 0x42⟩, ⟨.hsym, 0x43⟩], ⟨some 257, 3⟩) := by decide

/-- T-H9c. -/
theorem test_hfDecbits_malformed :
    seen (exec (.hfDecbits 3 0x02) (withTree oneLeaf)) (fun t => (t.out, t.hd)) =
      some ([⟨.hsym, 0x78⟩, ⟨.err, 0x00013603⟩], ⟨some 256, 0⟩) := by decide

/-- W6 and T-H9d. -/
theorem test_hfDecend :
    words (exec .hfDecend (withTree oneLeaf)) = some [⟨.hdDone, 0⟩] ∧
      words (exec .hfDecend { withTree threeLeaves with hd := ⟨some 256, 0⟩ }) = some [⟨.err, 0x00003703⟩] := by decide

/-- W5: `HF.RDFREQ`. -/
theorem test_hfRdfreq : words (exec (.hfRdfreq 0x78) (withTree oneLeaf)) = some [⟨.reg, 3⟩] := by decide

/-- W5 and T-H9a. -/
theorem test_hfRdlen :
    words (exec (.hfRdlen 0x78) (withTree oneLeaf)) = some [⟨.reg, 1⟩] ∧
      words (exec (.hfRdlen 0x00) State.reset) = some [⟨.err, 0x00003904⟩] := by decide

/-- T-H6 and T-H9a. -/
theorem test_hfRdcode :
    words (exec (.hfRdcode 0x42 0) (withTree threeLeaves)) = some [⟨.reg, 3⟩] ∧
      words (exec (.hfRdcode 0x42 7) (withTree threeLeaves)) = some [⟨.reg, 0⟩] ∧
      words (exec (.hfRdcode 0x00 0) State.reset) = some [⟨.err, 0x00003A04⟩] := by decide

/-! ## Whole-input functions: W1, T-E2, T-P2, T-P7 and T-H6 -/

theorem test_lzwEncode :
    lzwEncode [0x41, 0x41, 0x41, 0x41, 0x41] = [0x041, 0x100, 0x100] ∧
      lzwEncode [0x41, 0x42, 0x41, 0x42, 0x41, 0x42, 0x41] = [0x041, 0x042, 0x100, 0x102] := by decide

theorem test_packed : packedCodes [0xABC, 0x123] = [0xBC, 0x3A, 0x12] ∧ unpackedCodes [0xBC, 0x0A] = [0xABC] := by decide

theorem test_hfEncodeBits :
    hfEncodeBits threeLeaves [0x41, 0x42, 0x43] = [true, false, true, true, false] ∧
      hfDecodeBits threeLeaves [true, false, true, true, false] = some [0x41, 0x42, 0x43] ∧
      hfDecodeBits threeLeaves [true] = none := by decide

/-! ## Assembler: the examples of R66, and R67 -/

theorem test_assemble_setfreq : assembleLine "HF.SETFREQ 'a', 5".toList = some [.hfSetfreq 0x61 5] := by decide

theorem test_assemble_wrctrl : assembleLine "WRCTRL LE_RAW|IRQ_EN ; both".toList = some [.wrctrl 3] := by decide

theorem test_assemble_rdreg : assembleLine "RDREG STATUS".toList = some [.rdreg 2] := by decide

theorem test_assemble_unfit : assembleLine "LD.CODE 0x1000".toList = none ∧ assembleLine "HF.DECBITS 15, 1".toList = some [.hfDecbits 15 1] := by
  decide

theorem test_assemble_pseudo :
    assembleLine "LZW.ENCODE \"AB\"".toList = some [.leByte 0x41, .leByte 0x42, .leEnd] ∧
      assembleLine "HF.DECODE 10, [0xB3, 1]".toList = some [.hfDecbits 8 0xB3, .hfDecbits 2 1, .hfDecend] := by decide

/-! ## Witnesses: for each obligation with hypotheses, states and operands that meet them, at the boundaries of its clauses -/

/-- A memory with the same entry at `lo`, ..., `lo + n - 1`. -/
def filled {α : Type} (lo n : Nat) (v : α) : Memory α := (List.range' lo n).map (fun k => (k, v))

theorem read_filled {α : Type} (d v : α) (n : Nat) :
    ∀ lo k, Memory.read d (filled lo n v) k = if lo ≤ k ∧ k < lo + n then v else d := by
  induction n with
  | zero => intro lo k; rw [if_neg (by omega)]; rfl
  | succ n ih =>
    intro lo k
    show (if lo = k then v else Memory.read d (filled (lo + 1) n v) k) = _
    rw [ih]
    by_cases h : lo = k
    · rw [if_pos h, if_pos (by omega)]
    · rw [if_neg h]
      by_cases h2 : lo + 1 ≤ k ∧ k < lo + 1 + n
      · rw [if_pos h2, if_pos (by omega)]
      · rw [if_neg h2, if_neg (by omega)]

theorem mem_filled {α : Type} {v : α} {n lo : Nat} {e : Nat × α} (h : e ∈ filled lo n v) : lo ≤ e.1 ∧ e.1 < lo + n ∧ e.2 = v := by
  obtain ⟨k, hk, rfl⟩ := List.mem_map.mp h
  have := List.mem_range'_1.mp hk
  exact ⟨this.1, this.2, rfl⟩

theorem rising_filled {α : Type} (v : α) (n : Nat) : ∀ lo, Memory.rising (filled lo n v) = true := by
  induction n with
  | zero => intro lo; rfl
  | succ n ih =>
    intro lo
    show Memory.rising ((lo, v) :: filled (lo + 1) n v) = true
    exact (Memory.rising_cons_iff _ _).mpr ⟨fun f hf => by have := mem_filled hf; show lo < f.1; omega, ih _⟩

/-- A decoder whose dictionary is full: every entry names "\x00\x00". -/
def ldFullUnit : LdUnit := ⟨true, 0, 4096, 5, filled 256 3840 ⟨0, 0, 0, 2⟩⟩

theorem witness_ldInv_full : LdInv ldFullUnit where
  next_lo := by decide
  next_hi := by decide
  prev := by decide
  pre := by
    intro k h1 h2
    have h2 : k < 4096 := h2
    simp only [LdUnit.entry, ldFullUnit, read_filled]
    rw [if_pos (by omega)]
    show 0 < k
    omega
  first := by
    intro k h1 h2
    have h2 : k < 4096 := h2
    simp only [LdUnit.entry, ldFullUnit, read_filled]
    rw [if_pos (by omega)]
    rfl
  len := by
    intro k h1 h2
    have h2 : k < 4096 := h2
    simp only [LdUnit.entry, ldFullUnit, read_filled]
    rw [if_pos (by omega)]
    rfl
  fresh := by intro h; cases h
  form := by
    refine ⟨?_, ?_⟩
    · simp only [Memory.wf, Bool.and_eq_true, List.all_eq_true, decide_eq_true_eq, ldFullUnit]
      refine ⟨rising_filled _ _ _, fun e he => ?_⟩
      rw [(mem_filled he).2.2]; decide
    · simp only [Memory.within, List.all_eq_true, Bool.and_eq_true, decide_eq_true_eq, ldFullUnit]
      intro e he
      have := mem_filled he
      omega

theorem witness_leInv : LeInv leUnit where
  next_lo := by decide
  next_hi := by decide
  cur := by decide
  pre := by intro k h1 h2; obtain rfl : k = 256 := by { have h2 : k < 257 := h2; omega }; decide
  distinct := by intro j k h1 h2 h3; have h3 : k < 257 := h3; omega
  fresh := by intro h; cases h
  form := by decide

theorem witness_ldInv : LdInv ldUnit where
  next_lo := by decide
  next_hi := by decide
  prev := by decide
  pre := by intro k h1 h2; obtain rfl : k = 256 := by { have h2 : k < 257 := h2; omega }; decide
  first := by intro k h1 h2; obtain rfl : k = 256 := by { have h2 : k < 257 := h2; omega }; decide
  len := by intro k h1 h2; obtain rfl : k = 256 := by { have h2 : k < 257 := h2; omega }; decide
  fresh := by intro h; cases h
  form := by decide

theorem witness_htInv : HtInv oneLeaf where
  nleaves := by decide
  root := by intro v h; cases h; decide
  left := by
    intro k v h
    simp only [oneLeaf, Memory.read] at h
    split at h
    · cases h; decide
    · cases h
  right := by
    intro k v h
    simp only [oneLeaf, Memory.read] at h
    split at h <;> cases h
  code := by
    intro k
    show 0 < _
    exact Nat.two_pow_pos _
  freqForm := by decide
  nodeForm := by decide
  lenForm := by decide
  bitsForm := by decide

/-- A state in the middle of everything: an encode call, a decode call, bits in every buffer, a tree, an error pending, a command
that misses in the dictionary. -/
def busy : State where
  cp := 9
  hi := ⟨false, true, true, false, 0x01001802⟩
  le := leUnit
  ld := ldUnit
  bp := ⟨0xA, 4⟩
  bu := ⟨0x41, 8⟩
  ht := oneLeaf
  he := ⟨0, 3, 3⟩
  hd := ⟨some 256, 1⟩
  out := [⟨.dbyte, 0x41⟩]
  cmds := [0x10000043]
  host := [.take]

/-- StepKeepsInvariant, StepNeverStopsUnderInvariant. -/
theorem witness_machineInv : MachineInv busy ∧ Completes (step busy) :=
  ⟨{ hi := ⟨by decide, by decide⟩
     le := witness_leInv
     ld := witness_ldInv
     bp := ⟨by decide⟩
     bu := ⟨by decide, by decide⟩
     ht := witness_htInv
     he := ⟨by decide⟩
     hd := ⟨by intro v h; cases h; decide⟩ }, ⟨_, rfl⟩⟩

/-- EncodeOfDecode. -/
theorem witness_decode : decode [0x32000066, 45, 0x03000000] = .instr (.hfSetfreq 0x66 45) [0x03000000] := by decide

/-- DecodeIsTotalAndNamed, StepRejectsIllegalWords: each kind of word. -/
theorem witness_words :
    opcField 0x05000000 ∉ specRows.map Prod.fst ∧ opcField 0xFF123456 ∉ specRows.map Prod.fst ∧
      (opcField 0x10000141, 0xFFFFFF00) ∈ specRows ∧ opcField 0x10000141 ≠ 0x32 ∧
      (0x10000141 : Word) &&& 0xFFFFFF00 ≠ BitVec.ofNat 32 ((opcField 0x10000141).toNat * 2 ^ 24) ∧
      (opcField 0x32000161, 0xFFFFFF00) ∈ specRows ∧ opcField 0x32000161 = 0x32 ∧
      (0x32000161 : Word) &&& 0xFFFFFF00 ≠ BitVec.ofNat 32 ((opcField 0x32000161).toNat * 2 ^ 24) ∧
      (0x32000161 : Word) &&& 0xFFFFFF00 ≠ 0x32000000 ∧
      (opcField 0x3A0007FF, 0xFFFFF800) ∈ specRows ∧ opcField 0x3A0007FF ≠ 0x32 ∧
      (0x3A0007FF : Word) &&& 0xFFFFF800 = BitVec.ofNat 32 ((opcField 0x3A0007FF).toNat * 2 ^ 24) ∧
      (opcField 0x320000FF, 0xFFFFFF00) ∈ specRows ∧
      (0x320000FF : Word) &&& 0xFFFFFF00 = BitVec.ofNat 32 ((opcField 0x320000FF).toNat * 2 ^ 24) := by decide

/-- StepRejectsIllegalWords: the streams. -/
theorem witness_illegalStreams :
    ({ busy with cmds := [0x05000000] } : State).cmds = 0x05000000 :: [] ∧
      ({ busy with cmds := [0x32000161, 5] } : State).cmds = 0x32000161 :: 5 :: [] := ⟨rfl, rfl⟩

/-- StepRunsTheDecodedCommand. -/
theorem witness_fetch : ({ busy with cmds := [0x32000066, 45, 0] } : State).cmds = encode (.hfSetfreq 0x66 45) ++ [0] := by decide

/-- StepWithoutACommandIsTheHosts: no word, or half of `HF.SETFREQ`; each action, or none. -/
theorem witness_idle :
    decode ({ busy with cmds := [], host := [] } : State).cmds = .incomplete ∧
      decode ({ busy with cmds := [0x32000061], host := [.send 5, .take] } : State).cmds = .incomplete ∧
      decode ({ busy with cmds := [], host := [.take] } : State).cmds = .incomplete ∧
      decode ({ busy with cmds := [0x32000061], host := [.reset] } : State).cmds = .incomplete := by decide

/-- CommandPointerCountsWords, OutputOnlyGrows, AtMostOneErrorWordAndLast, UnitsAreWrittenOnlyByTheirCommands: commands that answer a
next state, one with an error word; a whole command at the head of the stream. -/
theorem witness_next :
    Completes (exec (.hfSetfreq 0x66 45) busy) ∧ Completes (exec (.ldCode 0x102) busy) ∧ Completes (exec .softreset busy) ∧
      decode busy.cmds ≠ .incomplete ∧ Completes (step busy) := ⟨⟨_, rfl⟩, ⟨_, rfl⟩, ⟨_, rfl⟩, by decide, ⟨_, rfl⟩⟩

/-- RdregPushesTheRegister: the last assigned and the first unassigned number. -/
theorem witness_registers : (0x11#8).toNat ≤ 0x11 ∧ 0x11 < (0x12#8).toNat := by decide

/-- RaiseRecordsTheError: the word of an error of `LD.CODE`. -/
theorem witness_errorWord :
    (0x01001802 : Word) = BitVec.ofNat 32 ((0x100#16).toNat * 2 ^ 16 + (Instr.ldCode 0x100).opcode.toNat * 2 ^ 8 + ErrorKind.decode.code.toNat) := by
  decide

/-- FirstErrorIsKept: an error pending, and a command that raises another. -/
theorem witness_secondError :
    busy.hi.errPending = true ∧ Instr.ldCode 0x102 ≠ .clrerr ∧ Instr.ldCode 0x102 ≠ .softreset ∧
      seen (exec (.ldCode 0x102) busy) (fun t => t.hi.errMulti) = some true := by decide

/-- IllFormedCommandsAreIllegal: both clauses. -/
theorem witness_wf :
    (Instr.rdreg 0x12).wf = false ∧ (Instr.hfDecbits 9 0).wf = false ∧ (Instr.hfDecbits 8 0).wf = true ∧
      Completes (exec (.hfDecbits 8 0) busy) := ⟨by decide, by decide, by decide, ⟨_, rfl⟩⟩

/-- IrqIsALevel. -/
theorem witness_irq : irq busy = true ∧ Completes (complete .nop (.error .illegal 1 busy)) := ⟨by decide, ⟨_, rfl⟩⟩

/-- LeByteAccumulates: a first byte, and a hit at the only entry. -/
theorem witness_leByte_hit :
    State.reset.le.curValid = false ∧ LeInv busy.le ∧ busy.le.curValid = true ∧ 256 < busy.le.next.toNat ∧
      busy.le.entry 256 = ⟨busy.le.cur, 0x42⟩ := ⟨rfl, witness_leInv, rfl, by decide, by decide⟩

/-- LeByteMissEmitsAndInserts: an empty and a full dictionary, raw and packed. -/
theorem witness_leByte_miss :
    (∀ k, 256 ≤ k → k < (256#13).toNat → (⟨true, 0x41, 256, 0, []⟩ : LeUnit).entry k ≠ ⟨0x41, 0x42⟩) ∧
      (∀ k, 256 ≤ k → k < (4096#13).toNat → (⟨true, 0x41, 4096, 0, []⟩ : LeUnit).entry k ≠ ⟨0x41, 0x42⟩) ∧
      (∀ k, 256 ≤ k → k < busy.le.next.toNat → busy.le.entry k ≠ ⟨busy.le.cur, 0x43⟩) ∧ raw.hi.leRaw = true ∧
      busy.hi.leRaw = false := by
  refine ⟨?_, ?_, ?_, rfl, rfl⟩
  · intro k h1 h2; have h2 : k < 256 := h2; omega
  · intro k _ _ h; simp [LeUnit.entry, LeEntry.blank] at h
  · intro k h1 h2
    have h2 : k < 257 := h2
    obtain rfl : k = 256 := by omega
    decide

/-- LeEndFlushesAndReports: the four cases. -/
theorem witness_leEnd :
    (raw.hi.leRaw, ({ raw with le := leUnit } : State).le.curValid, raw.le.curValid, busy.hi.leRaw, busy.le.curValid,
      State.reset.hi.leRaw, State.reset.le.curValid) = (true, true, false, false, true, false, false) := by decide

/-- RawEncodeCallIsLzwEncode, PackedEncodeCallIsPackedLzwEncode; a dictionary memory left by an earlier call. -/
theorem witness_encodeCall :
    LeFresh ⟨false, 0, 256, 0, [(256, ⟨0x41, 0x42⟩)]⟩ ∧ raw.hi.leRaw = true ∧ State.reset.hi.leRaw = false ∧
      State.reset.bp = ⟨0, 0⟩ := ⟨⟨rfl, rfl, rfl, rfl⟩, rfl, rfl, rfl⟩

/-- LdFirstCode: the last singleton and the first code that is none. -/
theorem witness_firstCode : State.reset.ld.prevValid = false ∧ (255#12).toNat < 256 ∧ 256 ≤ (256#12).toNat := by decide

/-- LdLaterCode: the only entry; the next code; a full dictionary, its last entry. -/
theorem witness_laterCode :
    (LdInv busy.ld ∧ busy.ld.prevValid = true ∧ LdNames busy.ld busy.ld.prev.toNat [0x41] ∧
      ((256#12).toNat < busy.ld.next.toNat ∧ LdNames busy.ld (256#12).toNat [0x41, 0x42]) ∧
      (257#12).toNat = busy.ld.next.toNat ∧ busy.ld.next.toNat < 4096) ∧
      LdInv ldFullUnit ∧ ldFullUnit.prevValid = true ∧ LdNames ldFullUnit ldFullUnit.prev.toNat [0] ∧
      ((4095#12).toNat < ldFullUnit.next.toNat ∧ LdNames ldFullUnit (4095#12).toNat [0, 0]) ∧ 4096 ≤ ldFullUnit.next.toNat := by
  have h41 : LdNames ldUnit 0x41 [0x41] := .singleton _ (by decide)
  have h0 : LdNames ldFullUnit 0 [0] := .singleton _ (by decide)
  refine ⟨⟨witness_ldInv, rfl, h41, ⟨by decide, ?_⟩, by decide, by decide⟩, witness_ldInv_full, rfl, h0, ⟨by decide, ?_⟩, by decide⟩
  · exact .entry 256 [0x41] (by decide) (by decide) h41
  · have he : ldFullUnit.entry 4095 = ⟨0, 0, 0, 2⟩ := by
      simp only [LdUnit.entry, ldFullUnit, read_filled]; rfl
    have := LdNames.entry (u := ldFullUnit) 4095 [0] (by decide) (by decide) (by rw [he]; exact h0)
    rw [he] at this
    exact this

/-- LdEveryCodeNamesAString: the first entry, and the last code there is. -/
theorem witness_codes : LdInv ldUnit ∧ (256#12).toNat < ldUnit.next.toNat ∧ LdInv ldFullUnit ∧ (4095#12).toNat < ldFullUnit.next.toNat :=
  ⟨witness_ldInv, by decide, witness_ldInv_full, by decide⟩

/-- LdBadCodeAborts: the first code beyond the next one. -/
theorem witness_badCode : busy.ld.prevValid = true ∧ busy.ld.next.toNat < (258#12).toNat := by decide

/-- LdByteUnpacksAndDecodes: fewer than 4 bits held; 4 bits or more, with a code that is accepted (a first one and a later one) and with
one that is not. -/
theorem witness_ldByte :
    (BuInv ⟨7, 3⟩ ∧ BuInv ⟨0xF, 4⟩ ∧ BuInv ⟨0x7FF, 11⟩) ∧
      (LdInv busy.ld ∧ BuInv busy.bu ∧ 4 ≤ busy.bu.n.toNat ∧ busy.ld.prevValid = true ∧
        (BitVec.ofNat 12 (busy.bu.buf.toNat + (0#8).toNat * 2 ^ busy.bu.n.toNat)).toNat ≤ busy.ld.next.toNat) ∧
      (State.reset.ld.prevValid = false ∧ (BitVec.ofNat 12 ((0x41#12).toNat + (0x00#8).toNat * 2 ^ 8)).toNat < 256) ∧
      (State.reset.ld.prevValid = false ∧ 256 ≤ (BitVec.ofNat 12 ((0x41#12).toNat + (0x01#8).toNat * 2 ^ 8)).toNat) ∧
      (busy.ld.prevValid = true ∧ busy.ld.next.toNat < (BitVec.ofNat 12 ((0x41#12).toNat + (0x01#8).toNat * 2 ^ 8)).toNat) :=
  ⟨⟨⟨by decide, by decide⟩, ⟨by decide, by decide⟩, ⟨by decide, by decide⟩⟩,
    ⟨witness_ldInv, ⟨by decide, by decide⟩, by decide, rfl, by decide⟩, by decide, by decide, by decide⟩

/-- DecodeCallIsLzwDecode: the codes of W1, with a dictionary memory left by an earlier call. -/
theorem witness_decodeCall :
    LdFresh ⟨false, 0, 256, 0, [(256, ⟨0x41, 0x42, 0x41, 2⟩)]⟩ ∧
      lzwDecode [0x041, 0x100, 0x100] = .ok [0x41, 0x41, 0x41, 0x41, 0x41] := ⟨⟨rfl, rfl, rfl, rfl⟩, rfl⟩

/-- LzwRoundTrip, PackIsTheWireFormat, UnpackInvertsPack. -/
theorem witness_emptyBuffers : LdFresh State.reset.ld ∧ State.reset.bu = ⟨0, 0⟩ ∧ State.reset.bp = ⟨0, 0⟩ :=
  ⟨⟨rfl, rfl, rfl, rfl⟩, rfl, rfl⟩

/-- BpPutOutputsCompleteBytes, BuPutOutputsCompleteCodes: the counts where the clauses meet, and the last of each range. -/
theorem witness_bitCounts :
    (0#3).toNat < 4 ∧ (3#3).toNat < 4 ∧ 4 ≤ (4#3).toNat ∧ 4 ≤ (7#3).toNat ∧ (0#4).toNat < 4 ∧ (3#4).toNat < 4 ∧ 4 ≤ (4#4).toNat ∧
      4 ≤ (11#4).toNat := by decide

/-- BpFlushAndBuEndEmptyTheBuffers, HfEncendReports. -/
theorem witness_held : State.reset.bp.n = 0 ∧ busy.bp.n ≠ 0 ∧ State.reset.he.n = 0 ∧ busy.he.n ≠ 0 := by decide

/-- HfCountCountsOrOverflows: one below the largest count, and the largest. -/
theorem witness_counts :
    ((withFreq [(0x41, 0xFFFFFFFE)]).ht.freqOf (0x41#8).toNat).toNat ≠ 2 ^ 32 - 1 ∧
      ((withFreq [(0x41, 0xFFFFFFFF)]).ht.freqOf (0x41#8).toNat).toNat = 2 ^ 32 - 1 := by decide

/-- HfReadsPushAndChangeNothing: with a tree and without. -/
theorem witness_tree : busy.ht.treeValid = true ∧ State.reset.ht.treeValid = false := by decide

/-- HfBuildMakesTheTreeValid, HfBuildCombinesTheTwoLeast, CodebookIsComplete: no leaf, one, two; a node that is built. -/
theorem witness_build :
    seen (exec .hfBuild State.reset) (fun t => t.ht.nleaves) = some 0 ∧
      seen (exec .hfBuild (withFreq [(0x78, 3)])) (fun t => t.ht.nleaves) = some 1 ∧
      seen (exec .hfBuild (withFreq [(0x41, 1), (0xFF, 1)])) (fun t => t.ht.nleaves) = some 2 := by decide

/-- The same: every symbol counted, the most leaves there are. -/
theorem witness_build_all : ∃ t, exec .hfBuild (withFreq (filled 0 256 1)) = .next t ∧ t.ht.nleaves = 256 := by
  have hl : leavesOf (withFreq (filled 0 256 1)).ht = List.range 256 := by
    refine List.filter_eq_self.mpr (fun b hb => ?_)
    have hb : b < 256 := List.mem_range.mp hb
    simp only [HtUnit.freqOf, withFreq, read_filled]
    rw [if_pos (by omega)]
    decide
  have general : ∀ s, ∃ t, exec .hfBuild s = .next t ∧ t.ht.nleaves = BitVec.ofNat 9 (leavesOf s.ht).length :=
    fun s => ⟨_, rfl, hfBuild_nleaves s⟩
  obtain ⟨t, h1, h2⟩ := general (withFreq (filled 0 256 1))
  exact ⟨t, h1, by rw [h2, hl, List.length_range]; rfl⟩

/-- CodesAreRootToLeafPaths, CodebookIsPrefixFree, HuffmanRoundTrip: a symbol that is counted and one that is not; two that are; a
message of them. -/
theorem witness_codebook :
    ∃ t, exec .hfBuild (withFreq threeLeaves.freq) = .next t ∧ t.ht = threeLeaves ∧
      (withFreq threeLeaves.freq).ht.freqOf (0x41#8).toNat ≠ 0 ∧ (withFreq threeLeaves.freq).ht.freqOf (0x42#8).toNat ≠ 0 ∧
      (0x41#8 : Byte) ≠ 0x42 ∧ (withFreq threeLeaves.freq).ht.freqOf (0x44#8).toNat = 0 ∧
      (∀ b ∈ ([0x41, 0x42, 0x43] : List Byte), (withFreq threeLeaves.freq).ht.freqOf b.toNat ≠ 0) ∧
      (hfEncodeBits threeLeaves [0x41, 0x42, 0x43]).length < 2 ^ 32 := by
  have h := test_hfBuild
  unfold seen at h
  split at h
  · next t ht => exact ⟨t, ht, by simpa using h, by decide⟩
  · cases h
  · cases h

/-- HfEncErrorsAbortTheCall: no tree; no code; the first bit count that would overflow. -/
theorem witness_encErrors :
    State.reset.ht.treeValid = false ∧ busy.ht.treeValid = true ∧ busy.ht.lenOf (0x79#8).toNat = 0 ∧
      busy.ht.lenOf (0x78#8).toNat ≠ 0 ∧ 2 ^ 32 - 1 < (0xFFFFFFFF#32).toNat + (busy.ht.lenOf (0x78#8).toNat).toNat := by decide

/-- HfEncAppendsTheCode: up to the largest bit count. -/
theorem witness_enc :
    HeInv ⟨0, 3, 0xFFFFFFFE⟩ ∧ busy.ht.treeValid = true ∧ busy.ht.lenOf (0x78#8).toNat ≠ 0 ∧
      (0xFFFFFFFE#32).toNat + (busy.ht.lenOf (0x78#8).toNat).toNat ≤ 2 ^ 32 - 1 := ⟨⟨by decide⟩, by decide, by decide, by decide⟩

/-- HfDecbitsFollowsTheTree: no bits, and 8. -/
theorem witness_decbits :
    busy.ht.treeValid = true ∧ (0#4).toNat ≤ 8 ∧ traverse busy.ht busy.hd.pos (lowBits (0#4).toNat (0xFF#8)) = some ([], some 256) ∧
      (8#4).toNat ≤ 8 ∧ traverse busy.ht busy.hd.pos (lowBits (8#4).toNat (0#8)) = some (List.replicate 8 0x78, some 256) := by decide

/-- HfDecbitsErrorsAbortTheCall: 9 bits; 8 bits and no tree; the first and the last bit of 8 leading nowhere. -/
theorem witness_decbitsErrors :
    (8 < (9#4).toNat ∧ (8#4).toNat ≤ 8 ∧ State.reset.ht.treeValid = false) ∧
      (busy.ht.treeValid = true ∧ HtInv busy.ht ∧ HdInv busy.hd ∧
        traverse busy.ht busy.hd.pos (lowBits 0 (0x01#8)) = some ([], some 256) ∧
        childOf busy.ht (some 256) ((0x01#8).getLsbD 0) = none ∧
        traverse busy.ht busy.hd.pos (lowBits 7 (0x80#8)) = some (List.replicate 7 0x78, some 256) ∧
        childOf busy.ht (some 256) ((0x80#8).getLsbD 7) = none) :=
  ⟨by decide, by decide, witness_htInv, witness_machineInv.1.hd.1 |> fun h => ⟨h⟩, by decide, by decide, by decide, by decide⟩

/-- AccessesToNoEntryFault: an entry that is its own prefix; an engine at a leaf, and at the one index the arena lacks. -/
theorem witness_noEntry :
    ((⟨true, 0, 4096, 0, [(256, ⟨256, 0, 0, 0⟩)]⟩ : LdUnit).entry (256#12).toNat).pre = 256 ∧ 256 ≤ (256#12).toNat ∧
      busy.ht.treeValid = true ∧ 1 ≤ (1#4).toNat ∧ ((255#9).toNat < 256 ∨ (255#9).toNat = 511) ∧
      ((511#9).toNat < 256 ∨ (511#9).toNat = 511) := by decide

/-- HfDecendChecksTheBoundary. -/
theorem witness_decend : busy.hd.pos = busy.ht.root ∧ (some 256 : Option NodeIdx) ≠ threeLeaves.root := by decide

/-- UnitsAreWrittenOnlyByTheirCommands, HuffmanIgnoresTheDictionaryUnits, EncoderAndDecoderIgnoreEachOther: pairs of states that agree
where they must and differ elsewhere. -/
theorem witness_pairs :
    ((Instr.nop).opcode ∉ ([0x04, 0x10, 0x11] : List (BitVec 8)) ∧ (Instr.leByte 0x43).opcode ∈ ([0x10, 0x11] : List (BitVec 8)) ∧
        raw.hi.leRaw = true) ∧
      (0x30 ≤ (Instr.hfClear).opcode.toNat ∧ busy ≠ { State.reset with hi := busy.hi, ht := busy.ht, he := busy.he, hd := busy.hd } ∧
        Completes (exec .hfClear busy)) ∧
      ((Instr.ldCode 0x100).opcode ∈ ([0x18, 0x19, 0x1A] : List (BitVec 8)) ∧ Completes (exec (.ldCode 0x100) busy) ∧
        Completes (exec (.leByte 0x43) busy)) :=
  ⟨by decide, ⟨by decide, by decide, ⟨_, rfl⟩⟩, by decide, ⟨_, rfl⟩, ⟨_, rfl⟩⟩

end Sys2Proof.Tests
end

/-! PROOF. The fields of a command's first word, and the decoder's answer to an encoded command (30_encoding.md R55 to R62). -/

namespace Sys2Proof

/-- The operand area of a command's first word has no bit at or above bit 24 (R55). -/
theorem Instr.getLsbD_operands_of_ge (i : Instr) {k : Nat} (hk : 24 ≤ k) : i.operands.getLsbD k = false :=
  Nat.testBit_lt_two_pow (Nat.lt_of_lt_of_le i.operands_lt (Nat.pow_le_pow_right (by decide) hk))

/-- A field below bit 24 is read from the operand area alone (R55, R56). -/
theorem Instr.extractLsb'_word (i : Instr) {start len : Nat} (h : start + len ≤ 24) :
    i.word.extractLsb' start len = i.operands.extractLsb' start len := by
  ext k hk
  have below : start + k < 24 := by omega
  simp [Instr.word, below]

@[simp] theorem Instr.byteField_word (i : Instr) : byteField i.word = byteField i.operands := i.extractLsb'_word (by decide)
@[simp] theorem Instr.codeField_word (i : Instr) : codeField i.word = codeField i.operands := i.extractLsb'_word (by decide)
@[simp] theorem Instr.valueField_word (i : Instr) : valueField i.word = valueField i.operands := i.extractLsb'_word (by decide)
@[simp] theorem Instr.bitsField_word (i : Instr) : bitsField i.word = bitsField i.operands := i.extractLsb'_word (by decide)
@[simp] theorem Instr.selectField_word (i : Instr) : selectField i.word = selectField i.operands := i.extractLsb'_word (by decide)

/-- The lowest bits of a widened value are the value (R9). -/
theorem extractLsb'_zext32 {n : Nat} (v : BitVec n) (hn : n ≤ 32) : (zext32 v).extractLsb' 0 n = v := by
  ext k hk
  have inside : k < 32 := by omega
  simp [zext32, inside, BitVec.getLsbD_eq_getElem hk]

@[simp] theorem byteField_zext32 (b : Byte) : byteField (zext32 b) = b := extractLsb'_zext32 b (by decide)
@[simp] theorem codeField_zext32 (c : Code) : codeField (zext32 c) = c := extractLsb'_zext32 c (by decide)
@[simp] theorem valueField_zext32 (v : BitVec 2) : valueField (zext32 v) = v := extractLsb'_zext32 v (by decide)

/-- A value above a byte in the operand area is the two of them side by side (R56, formats `FN` and `FW`). -/
theorem zext32_shiftLeft_or {m : Nat} (a : BitVec m) (b : Byte) : zext32 a <<< 8 ||| zext32 b = zext32 (a ++ b) := by
  ext k hk
  by_cases low : k < 8
  · simp [zext32, BitVec.getLsbD_append, low]
  · simp [zext32, BitVec.getLsbD_append, low, b.getLsbD_of_ge k (by omega)]

@[simp] theorem byteField_zext32_append {m : Nat} (a : BitVec m) (b : Byte) : byteField (zext32 (a ++ b)) = b := by
  ext k hk
  have inside : k < 32 := by omega
  simp [byteField, zext32, BitVec.getLsbD_append, inside, hk]

/-- The bits above a byte are read back, as `n` of `FN` or `w_sel` of `FW` (R57). -/
theorem extractLsb'_zext32_append {m : Nat} (a : BitVec m) (b : Byte) (hm : m ≤ 24) : (zext32 (a ++ b)).extractLsb' 8 m = a := by
  ext k hk
  have inside : 8 + k < 32 := by omega
  simp [zext32, BitVec.getLsbD_append, inside, BitVec.getLsbD_eq_getElem hk]

@[simp] theorem bitsField_zext32_append (n : BitVec 4) (b : Byte) : bitsField (zext32 (n ++ b)) = n :=
  extractLsb'_zext32_append n b (by decide)
@[simp] theorem selectField_zext32_append (w : BitVec 3) (b : Byte) : selectField (zext32 (w ++ b)) = w :=
  extractLsb'_zext32_append w b (by decide)

/-- A value of `n` bits sets none of the bits of a mask that starts at bit `n` (R58). -/
theorem zext32_and_eq_zero {n : Nat} (v : BitVec n) (m : Word) (hm : m.extractLsb' 0 n = 0) : zext32 v &&& m = 0 := by
  ext k hk
  by_cases inside : k < n
  · have bit : m.getLsbD k = false := by simpa [inside] using congrArg (fun x => x.getLsbD k) hm
    simp [← BitVec.getLsbD_eq_getElem, bit]
  · simp [zext32, v.getLsbD_of_ge k (by omega)]

/-- The mask test of R62 passes when no operand of the command sets a reserved bit (R58). -/
theorem Instr.reservedClear_word (i : Instr) (f : Format) (h : i.operands &&& f.reserved = 0) : reservedClear f i.word = true := by
  have opcodeMask : ∀ k (hk : k < 32), (0xFF000000#32)[k] = decide (24 ≤ k) := by decide
  simp only [reservedClear, opcField_word, Format.mask, beq_iff_eq]
  ext k hk
  by_cases low : k < 24
  · have bit : (i.operands &&& f.reserved).getLsbD k = false := by rw [h]; simp
    simpa [Instr.word, opcodeMask, low, BitVec.getLsbD_eq_getElem hk] using bit
  · have high : 24 ≤ k := by omega
    have clear : i.operands[k] = false := i.getLsbD_operands_of_ge high
    simp [Instr.word, opcodeMask, low, high, clear]

/-- A one-word command decodes from its word: its row of the opcode map is found, no reserved bit is set, and the row builds the
command back from the word's fields (R62). -/
theorem Instr.decode_word {i : Instr} {row : OpRow} (rest : List Word) (hrow : opRow i.opcode = some row) (hf : row.format ≠ .FS)
    (hres : i.operands &&& row.format.reserved = 0) (hbuild : row.build i.word 0 = i) : decode (i.word :: rest) = .instr i rest := by
  rw [decode_one rest (by rwa [opcField_word]) hf, i.reservedClear_word row.format hres, if_pos rfl, hbuild]

/-- Decoding an encoded command gives it back, with the words after it; one case per format of R56. -/
theorem decode_encode (i : Instr) (rest : List Word) : decode (encode i ++ rest) = .instr i rest := by
  cases i with
  | nop | clrerr | softreset | leEnd | ldEnd | bpFlush | buEnd | hfClear | hfBuild | hfEncend | hfDecend =>
    exact Instr.decode_word rest rfl (by decide) (by decide) rfl
  | rdreg b | leByte b | ldByte b | buPut b | hfCount b | hfEnc b | hfRdfreq b | hfRdlen b =>
    exact Instr.decode_word rest rfl (by decide) (zext32_and_eq_zero b _ (by decide)) (by simp [Instr.operands])
  | ldCode c | bpPut c =>
    exact Instr.decode_word rest rfl (by decide) (zext32_and_eq_zero c _ (by decide)) (by simp [Instr.operands])
  | wrctrl v =>
    exact Instr.decode_word rest rfl (by decide) (zext32_and_eq_zero v _ (by decide)) (by simp [Instr.operands])
  | hfDecbits n b =>
    refine Instr.decode_word rest rfl (by decide) ?_ (by simp [Instr.operands, zext32_shiftLeft_or])
    rw [Instr.operands, zext32_shiftLeft_or]
    exact zext32_and_eq_zero (n ++ b) _ (by decide)
  | hfRdcode b w =>
    refine Instr.decode_word rest rfl (by decide) ?_ (by simp [Instr.operands, zext32_shiftLeft_or])
    rw [Instr.operands, zext32_shiftLeft_or]
    exact zext32_and_eq_zero (w ++ b) _ (by decide)
  | hfSetfreq b count =>
    have clear := Instr.reservedClear_word (.hfSetfreq b count) .FS (zext32_and_eq_zero b _ (by decide))
    have back : byteField (Instr.hfSetfreq b count).word = b := by simp [Instr.operands]
    change decode ((Instr.hfSetfreq b count).word :: count :: rest) = _
    rw [decode_setfreq count rest (opcField_word _), clear, if_pos rfl, back]

end Sys2Proof

/-! PROOF. One step of the core on a stream that begins with a whole command (00_scope.md R3, 20_memory.md R48). -/

namespace Sys2Proof.Machine

/-- A step on a stream whose head decodes to a command is that command, on the state without its words (R3, R48). -/
theorem step_of_decode {s : State} {i : Instr} {rest : List Word} (h : decode s.cmds = .instr i rest) :
    step s = exec i { s with cmds := rest } := by
  simp only [step, h]

/-- Settles O9: the stream's head decodes to the encoded command, and a step runs what the head decodes to. -/
theorem stepRunsTheDecodedCommand : Obligations.StepRunsTheDecodedCommand := by
  unfold Obligations.StepRunsTheDecodedCommand
  intro s i rest hcmds
  have hdecode : decode s.cmds = .instr i rest := by rw [hcmds, decode_encode]
  exact step_of_decode hdecode

end Sys2Proof.Machine

/-! PROOF. What a command can do (45_control.md, 10_state.md R22, R54): every command is a body and the end of R62, and a body writes
only the fields its command owns. -/

namespace Sys2Proof.Machine

/-! ## The state a body leaves -/

/-- The body of a command leaves a state with `P`, at its last line or at a `raise`; a body that stops leaves none. -/
def Effect.Leaves (r : Effect) (P : State → Prop) : Prop :=
  match r with
  | .done u => P u
  | .error _ _ u => P u
  | .stop _ => True

@[simp] theorem Effect.leaves_done (u : State) (P : State → Prop) : (Effect.done u).Leaves P ↔ P u := Iff.rfl

@[simp] theorem Effect.leaves_error (e : ErrorKind) (info : BitVec 16) (u : State) (P : State → Prop) :
    (Effect.error e info u).Leaves P ↔ P u := Iff.rfl

@[simp] theorem Effect.leaves_stop (f : Fault) (P : State → Prop) : (Effect.stop f).Leaves P := trivial

/-- What follows from `P` holds of the state left too. -/
theorem Effect.Leaves.mono {r : Effect} {P Q : State → Prop} (h : r.Leaves P) (hPQ : ∀ u, P u → Q u) : r.Leaves Q := by
  cases r with
  | done u => exact hPQ u h
  | error e info u => exact hPQ u h
  | stop f => trivial

/-- Two parts in a row leave a state with `P`, if the second keeps `P`. -/
theorem Effect.Leaves.bind {r : Effect} {f : State → Effect} {P : State → Prop} (h : r.Leaves P)
    (hf : ∀ u, P u → (f u).Leaves P) : (r.bind f).Leaves P := by
  cases r with
  | done u => exact hf u h
  | error e info u => exact h
  | stop flt => trivial

/-! ## Every command is a body and an end -/

/-- The body of a command: what it does before the end that all commands share (R62). -/
def body (i : Instr) (s : State) : Effect :=
  match i with
  | .nop => .done s
  | .rdreg r =>
    match regValue r s with
    | none => .error .illegal 2 s
    | some v => .done (s.push .reg v)
  | .wrctrl v => .done { s with hi := { s.hi with leRaw := v.getLsbD 0, irqEn := v.getLsbD 1 } }
  | .clrerr => .done (acknowledge s)
  | .softreset => .done (softReset s)
  | .leByte b => .done (leByte b s)
  | .leEnd => .done (leEnd s)
  | .ldCode c => ldStep c s
  | .ldByte b =>
    match buFeed b s.bu with
    | (none, u) => .done { s with bu := u }
    | (some c, u) => ldStep c { s with bu := u }
  | .ldEnd => .done (ldEnd s)
  | .bpPut c => .done (bpPut c s)
  | .bpFlush => .done (bpFlush s)
  | .buPut b =>
    match buFeed b s.bu with
    | (none, u) => .done { s with bu := u }
    | (some c, u) => .done ({ s with bu := u }.push .ucode (zext32 c))
  | .buEnd => .done { s with bu := ⟨0, 0⟩ }
  | .hfClear => .done (hfClear s)
  | .hfCount b =>
    if (s.ht.freqOf b.toNat).toNat = Config.countMax then .error .overflow (0x0100#16 + b.setWidth 16) s
    else .done (setFreq b (s.ht.freqOf b.toNat + 1) s)
  | .hfSetfreq b count => .done (setFreq b count s)
  | .hfBuild => .done (hfBuild s)
  | .hfEnc b => hfEnc b s
  | .hfEncend => .done (hfEncend s)
  | .hfDecbits n b => hfDecbits n b s
  | .hfDecend => hfDecend s
  | .hfRdfreq b => .done (s.push .reg (s.ht.freqOf b.toNat))
  | .hfRdlen b => if s.ht.treeValid then .done (s.push .reg (zext32 (s.ht.lenOf b.toNat))) else .error .noTree 0 s
  | .hfRdcode b w =>
    if s.ht.treeValid then .done (s.push .reg (codeSlice (s.ht.bitsOf b.toNat) w)) else .error .noTree 0 s

theorem exec_eq_complete_body (i : Instr) (s : State) : exec i s = complete i (body i s) := by cases i <;> rfl

/-- The control and error state at a command's end: as its body left it, or with an error recorded (R111). -/
def EndsHi (before after : HiUnit) : Prop := after = before ∨ ∃ w, after = before.record w

/-- The end of a command moves the command pointer by the command's length, may record an error and push its word, and changes
nothing else (R62, R111). -/
theorem complete_frame {i : Instr} {r : Effect} {t : State} {P : State → Prop} (hr : r.Leaves P) (h : complete i r = .next t) :
    ∃ u hi out, P u ∧ EndsHi u.hi hi ∧ t = { u with cp := u.cp + i.length, hi := hi, out := out } := by
  rcases complete_next h with ⟨u, rfl, rfl⟩ | ⟨e, info, u, rfl, rfl⟩
  · exact ⟨u, u.hi, u.out, hr, .inl rfl, rfl⟩
  · exact ⟨u, _, _, hr, .inr ⟨_, rfl⟩, rfl⟩

/-! ## What each operation writes -/

/-- `emit_code` counts the code and writes the packer and the queue (R71). -/
theorem emitCode_frame (c : Code) (s : State) : emitCode c s = { s with
    le := { s.le with ncodes := s.le.ncodes + 1 }, bp := (emitCode c s).bp, out := (emitCode c s).out } := by
  unfold emitCode; split <;> rfl

theorem emitCode_le (c : Code) (s : State) : (emitCode c s).le = { s.le with ncodes := s.le.ncodes + 1 } :=
  congrArg State.le (emitCode_frame c s)

/-- In raw mode `emit_code` leaves the packer alone (R71). -/
theorem emitCode_bp_of_raw (c : Code) {s : State} (h : s.hi.leRaw = true) : (emitCode c s).bp = s.bp := by
  rw [emitCode_raw c s h]; rfl

/-- The three things `LE.BYTE` can do: begin a call, extend the accumulator, or emit, insert and restart (R70). -/
theorem leByte_cases (b : Byte) (s : State) :
    (s.le.curValid = false ∧ leByte b s = { s with le := leRestart b s.le }) ∨
      (∃ k, s.le.curValid = true ∧ camFind s.le ⟨s.le.cur, b⟩ 256 s.le.next.toNat = some k ∧
        leByte b s = { s with le := { s.le with cur := k } }) ∨
      (s.le.curValid = true ∧ camFind s.le ⟨s.le.cur, b⟩ 256 s.le.next.toNat = none ∧
        leByte b s = { emitCode s.le.cur s with
          le := leRestart b (leInsert ⟨s.le.cur, b⟩ { s.le with ncodes := s.le.ncodes + 1 }) }) := by
  cases hv : s.le.curValid with
  | false => exact .inl ⟨rfl, by simp [leByte, hv]⟩
  | true =>
    cases hk : camFind s.le ⟨s.le.cur, b⟩ 256 s.le.next.toNat with
    | some k => exact .inr (.inl ⟨k, rfl, rfl, by simp [leByte, hv, hk, Config.nsym]⟩)
    | none =>
      refine .inr (.inr ⟨rfl, rfl, ?_⟩)
      unfold leByte
      rw [if_pos hv]
      simp only [Config.nsym, hk, emitCode_le]

/-- `LE.BYTE` writes LE, the packer and the queue (R70). -/
theorem leByte_frame (b : Byte) (s : State) :
    leByte b s = { s with le := (leByte b s).le, bp := (leByte b s).bp, out := (leByte b s).out } := by
  rcases leByte_cases b s with ⟨-, h⟩ | ⟨k, -, -, h⟩ | ⟨-, -, h⟩ <;> rw [h]
  rw [emitCode_frame]

/-- In raw mode `LE.BYTE` leaves the packer alone (R71). -/
theorem leByte_bp_of_raw (b : Byte) {s : State} (hraw : s.hi.leRaw = true) : (leByte b s).bp = s.bp := by
  rcases leByte_cases b s with ⟨-, h⟩ | ⟨k, -, -, h⟩ | ⟨-, -, h⟩ <;> rw [h]
  exact emitCode_bp_of_raw _ hraw

/-- The part of `LE.END` before the report: the accumulator is emitted, if there is one, and in packed mode the packer is
flushed (R72). -/
def leDrain (s : State) : State :=
  let t := if s.le.curValid then emitCode s.le.cur s else s
  if s.hi.leRaw then t else bpFlush t

/-- `LE.END` drains, makes LE fresh and reports (R72). -/
theorem leEnd_eq (s : State) :
    leEnd s = { leDrain s with le := (leDrain s).le.refresh }.push .leDone (leDrain s).le.ncodes := rfl

/-- Draining writes LE, the packer and the queue (R72). -/
theorem leDrain_frame (s : State) : leDrain s = { s with
    le := (leDrain s).le, bp := (leDrain s).bp, out := (leDrain s).out } := by
  unfold leDrain
  dsimp only
  split_ifs
  · rw [emitCode_frame]
  · rfl
  · rw [bpFlush_frame, emitCode_frame]
  · rw [bpFlush_frame]

/-- `LE.END` writes LE, the packer and the queue (R72). -/
theorem leEnd_frame (s : State) :
    leEnd s = { s with le := (leEnd s).le, bp := (leEnd s).bp, out := (leEnd s).out } := by
  rw [leEnd_eq, leDrain_frame]; rfl

/-- In raw mode `LE.END` leaves the packer alone (R72). -/
theorem leEnd_bp_of_raw {s : State} (hraw : s.hi.leRaw = true) : (leEnd s).bp = s.bp := by
  rw [leEnd_eq, State.push_bp]
  cases hv : s.le.curValid with
  | false => simp [leDrain, hv, hraw]
  | true => simpa [leDrain, hv, hraw] using emitCode_bp_of_raw _ hraw

/-- The end of `ld_step` where a code is accepted: output its string and keep it as the previous code (R74). -/
def ldAccept (c : Code) (s : State) : Effect := (outputString c s).bind (fun t => .done (ldSetPrev c t))

/-- Accepting a code stops at a full string stack, or it counts and pushes bytes and keeps the code (R74, R75). -/
theorem ldAccept_leaves (c : Code) (s : State) : (ldAccept c s).Leaves (fun t => ∃ nbytes out,
    t = { s with ld := { s.ld with prevValid := true, prev := c, nbytes := nbytes }, out := out }) := by
  unfold ldAccept
  rcases outputString_cases c s with ⟨-, h⟩ | ⟨bytes, -, h⟩ <;> rw [h]
  · simp
  · exact ⟨_, _, rfl⟩

/-- The three things `ld_step` can do: refuse the code, accept the first code of a call, or insert an entry and accept a code up to
the next one (R74). -/
theorem ldStep_cases (c : Code) (s : State) :
    ldStep c s = ldFail c s ∨
      (c.toNat < 256 ∧ ldStep c s = ldAccept c s) ∨
      ∃ f, s.ld.prevValid = true ∧ c.toNat ≤ s.ld.next.toNat ∧
        ldStep c s = ldAccept c { s with ld := ldInsert f s.ld } := by
  unfold ldStep
  split_ifs with hv hlt heq hbig
  · exact .inr (.inr ⟨_, hv, hlt.le, rfl⟩)
  · exact .inr (.inr ⟨_, hv, heq.le, rfl⟩)
  · exact .inl rfl
  · exact .inl rfl
  · exact .inr (.inl ⟨by simpa [Config.nsym] using hbig, rfl⟩)

/-- `ld_step` writes LD, on an error the unpacker, and the queue (R74). -/
theorem ldStep_frame (c : Code) (s : State) :
    (ldStep c s).Leaves (fun t => ∃ ld bu out, t = { s with ld := ld, bu := bu, out := out }) := by
  rcases ldStep_cases c s with h | ⟨-, h⟩ | ⟨f, -, -, h⟩ <;> rw [h]
  · exact ⟨_, _, _, rfl⟩
  · refine (ldAccept_leaves c s).mono ?_
    rintro _ ⟨nbytes, out, rfl⟩
    exact ⟨_, _, _, rfl⟩
  · refine (ldAccept_leaves c _).mono ?_
    rintro _ ⟨nbytes, out, rfl⟩
    exact ⟨_, _, _, rfl⟩

/-- One bit into the coder writes HE and the queue (R98). -/
theorem heBit_frame (s : State) (bit : Bool) : heBit s bit = { s with he := (heBit s bit).he, out := (heBit s bit).out } := by
  unfold heBit; dsimp only; split <;> rfl

/-- A string of bits into the coder writes HE and the queue (R98). -/
theorem heBits_frame (bits : List Bool) (s : State) :
    bits.foldl heBit s = { s with he := (bits.foldl heBit s).he, out := (bits.foldl heBit s).out } := by
  induction bits generalizing s with
  | nil => rfl
  | cons bit bits ih => rw [List.foldl_cons, ih, heBit_frame]

/-- `HF.ENC` writes HE and the queue (R98). -/
theorem hfEnc_frame (b : Byte) (s : State) : (hfEnc b s).Leaves (fun t => ∃ he out, t = { s with he := he, out := out }) := by
  unfold hfEnc
  dsimp only
  split_ifs
  · exact ⟨_, _, rfl⟩
  · exact ⟨_, _, rfl⟩
  · exact ⟨_, _, rfl⟩
  · rw [heBits_frame]; exact ⟨_, _, rfl⟩

/-- `HF.ENCEND` writes HE and the queue (R99). -/
theorem hfEncend_frame (s : State) : hfEncend s = { s with he := HeUnit.fresh, out := (hfEncend s).out } := by
  unfold hfEncend; dsimp only; split <;> rfl

/-- One bit into the traversal engine writes HD and the queue (R100). -/
theorem hdBit_frame (bit : Bool) (s : State) : (hdBit bit s).Leaves (fun t => ∃ hd out, t = { s with hd := hd, out := out }) := by
  rcases hdBit_cases bit s with ⟨-, h⟩ | ⟨i, -, -, h⟩ | ⟨i, e, -, -, -, h⟩ | ⟨i, e, child, -, -, -, h⟩ <;> rw [h]
  · exact ⟨_, _, rfl⟩
  · trivial
  · exact ⟨_, _, rfl⟩
  · exact ⟨_, _, hdMove_frame child s⟩

/-- A string of bits into the traversal engine writes HD and the queue (R100). -/
theorem hdBits_frame (bits : List Bool) (s : State) :
    (hdBits bits s).Leaves (fun t => ∃ hd out, t = { s with hd := hd, out := out }) := by
  induction bits generalizing s with
  | nil => exact ⟨_, _, rfl⟩
  | cons bit bits ih =>
    refine (hdBit_frame bit s).bind ?_
    rintro _ ⟨hd, out, rfl⟩
    exact ih _

/-- `HF.DECBITS` writes HD and the queue (R100). -/
theorem hfDecbits_frame (n : BitVec 4) (b : Byte) (s : State) :
    (hfDecbits n b s).Leaves (fun t => ∃ hd out, t = { s with hd := hd, out := out }) := by
  unfold hfDecbits
  split_ifs
  · exact ⟨_, _, rfl⟩
  · exact ⟨_, _, rfl⟩
  · exact hdBits_frame _ s

/-- `HF.DECEND` writes HD and the queue (R101). -/
theorem hfDecend_frame (s : State) : (hfDecend s).Leaves (fun t => ∃ hd out, t = { s with hd := hd, out := out }) := by
  unfold hfDecend
  split_ifs <;> exact ⟨_, _, rfl⟩

/-! ## What each command writes -/

/-- The fields that the body of a command may write, each with any value (R22, R54); in raw mode the encoder leaves the packer
alone (R71). -/
def Writes (i : Instr) (s u : State) : Prop :=
  match i with
  | .nop | .rdreg _ | .hfRdfreq _ | .hfRdlen _ | .hfRdcode _ _ => ∃ out, u = { s with out := out }
  | .wrctrl _ => ∃ leRaw irqEn, u = { s with hi := { s.hi with leRaw := leRaw, irqEn := irqEn } }
  | .clrerr => u = acknowledge s
  | .softreset => u = softReset s
  | .leByte _ | .leEnd => ∃ le bp out, u = { s with le := le, bp := bp, out := out } ∧ (s.hi.leRaw = true → bp = s.bp)
  | .ldCode _ | .ldByte _ | .ldEnd => ∃ ld bu out, u = { s with ld := ld, bu := bu, out := out }
  | .bpPut _ | .bpFlush => ∃ bp out, u = { s with bp := bp, out := out }
  | .buPut _ | .buEnd => ∃ bu out, u = { s with bu := bu, out := out }
  | .hfClear | .hfBuild => ∃ ht he hd, u = { s with ht := ht, he := he, hd := hd }
  | .hfCount _ | .hfSetfreq _ _ => ∃ ht, u = { s with ht := ht }
  | .hfEnc _ | .hfEncend => ∃ he out, u = { s with he := he, out := out }
  | .hfDecbits _ _ | .hfDecend => ∃ hd out, u = { s with hd := hd, out := out }

/-- The body of a command writes only the fields that are the command's. -/
theorem body_writes (i : Instr) (s : State) : (body i s).Leaves (Writes i s) := by
  cases i with
  | nop | hfRdfreq => exact ⟨_, rfl⟩
  | rdreg r => simp only [body]; split <;> exact ⟨_, rfl⟩
  | hfRdlen | hfRdcode => simp only [body]; split_ifs <;> exact ⟨_, rfl⟩
  | wrctrl v => exact ⟨_, _, rfl⟩
  | clrerr | softreset => exact rfl
  | leByte b => exact ⟨_, _, _, leByte_frame b s, leByte_bp_of_raw b⟩
  | leEnd => exact ⟨_, _, _, leEnd_frame s, leEnd_bp_of_raw⟩
  | ldCode c => exact ldStep_frame c s
  | ldByte b =>
    simp only [body]
    split
    · exact ⟨_, _, _, rfl⟩
    · refine (ldStep_frame _ _).mono ?_
      rintro _ ⟨ld, bu, out, rfl⟩
      exact ⟨_, _, _, rfl⟩
  | ldEnd => exact ⟨_, _, _, rfl⟩
  | bpPut c => exact ⟨_, _, bpPut_frame c s⟩
  | bpFlush => exact ⟨_, _, bpFlush_frame s⟩
  | buPut b => simp only [body]; split <;> exact ⟨_, _, rfl⟩
  | buEnd => exact ⟨_, _, rfl⟩
  | hfClear | hfBuild => exact ⟨_, _, _, rfl⟩
  | hfCount b => simp only [body]; split_ifs <;> exact ⟨_, rfl⟩
  | hfSetfreq b count => exact ⟨_, rfl⟩
  | hfEnc b => exact hfEnc_frame b s
  | hfEncend => exact ⟨_, _, hfEncend_frame s⟩
  | hfDecbits n b => exact hfDecbits_frame n b s
  | hfDecend => exact hfDecend_frame s

/-- What bodies write in common: a body acknowledges, resets, or writes some of CTRL, the units and the queue, and so neither the
error state nor the interface (R20, R25). -/
theorem Writes.cases {i : Instr} {s u : State} (h : Writes i s u) :
    (i = .clrerr ∧ u = acknowledge s) ∨ (i = .softreset ∧ u = softReset s) ∨
      ∃ leRaw irqEn le ld bp bu ht he hd out, u = { s with
        hi := { s.hi with leRaw := leRaw, irqEn := irqEn }
        le := le, ld := ld, bp := bp, bu := bu, ht := ht, he := he, hd := hd, out := out } := by
  cases i with
  | clrerr => exact .inl ⟨rfl, h⟩
  | softreset => exact .inr (.inl ⟨rfl, h⟩)
  | nop | rdreg | hfRdfreq | hfRdlen | hfRdcode | hfCount | hfSetfreq =>
    obtain ⟨_, rfl⟩ := h; exact .inr (.inr ⟨_, _, _, _, _, _, _, _, _, _, rfl⟩)
  | wrctrl | bpPut | bpFlush | buPut | buEnd | hfEnc | hfEncend | hfDecbits | hfDecend =>
    obtain ⟨_, _, rfl⟩ := h; exact .inr (.inr ⟨_, _, _, _, _, _, _, _, _, _, rfl⟩)
  | ldCode | ldByte | ldEnd | hfClear | hfBuild =>
    obtain ⟨_, _, _, rfl⟩ := h; exact .inr (.inr ⟨_, _, _, _, _, _, _, _, _, _, rfl⟩)
  | leByte | leEnd => obtain ⟨_, _, _, rfl, -⟩ := h; exact .inr (.inr ⟨_, _, _, _, _, _, _, _, _, _, rfl⟩)

/-- Everything a command that completes can change: what its body may write, then the command pointer, the error state and the
queue (R54, R62, R111). -/
theorem exec_frame {i : Instr} {s t : State} (h : exec i s = .next t) :
    ∃ u hi out, Writes i s u ∧ EndsHi u.hi hi ∧ t = { u with cp := u.cp + i.length, hi := hi, out := out } := by
  rw [exec_eq_complete_body] at h
  exact complete_frame (body_writes i s) h

end Sys2Proof.Machine

/-! PROOF. The words that decoding takes from the stream (30_encoding.md R61, R62). -/

namespace Sys2Proof

/-- A command is at least one word (R61). -/
theorem wordsOf_pos (opc : BitVec 8) : 0 < wordsOf opc := by unfold wordsOf; split <;> decide

/-- A row of the opcode map builds commands of its own opcode (R59). -/
theorem opRow_build_opcode {opc : BitVec 8} {row : OpRow} (h : opRow opc = some row) (w w2 : Word) :
    (row.build w w2).opcode = opc := by
  unfold opRow at h
  split at h
  case h_26 => cases h
  all_goals
    next hopc =>
      cases h
      exact (BitVec.eq_of_toNat_eq hopc).symm

/-- Decoding waits for a word, or it takes as many words as the opcode gives, and answers a command of that opcode or an illegal word
(R61, R62). -/
theorem decode_cases (w : Word) (ws : List Word) :
    decode (w :: ws) = .incomplete ∨ ∃ rest, (w :: ws).length = rest.length + wordsOf (opcField w) ∧
      ((∃ i, i.opcode = opcField w ∧ decode (w :: ws) = .instr i rest) ∨
        ∃ why, decode (w :: ws) = .illegal why (opcField w) rest) := by
  by_cases hop : opcField w = 0x32#8
  · cases ws with
    | nil => exact .inl (decode_setfreq_waits hop)
    | cons w2 ws =>
      refine .inr ⟨ws, by simp [wordsOf, hop], ?_⟩
      rw [decode_setfreq w2 ws hop, hop]
      split_ifs
      · exact .inl ⟨_, rfl, rfl⟩
      · exact .inr ⟨_, rfl⟩
  · refine .inr ⟨ws, by simp [wordsOf, hop], ?_⟩
    cases hrow : opRow (opcField w) with
    | none => exact .inr ⟨_, decode_unassigned ws hrow⟩
    | some row =>
      rw [decode_one ws hrow (fun hf => hop ((opRow_format_FS _ _ hrow).mp hf))]
      split_ifs
      · exact .inl ⟨_, opRow_build_opcode hrow w 0, rfl⟩
      · exact .inr ⟨_, rfl⟩

end Sys2Proof

/-! PROOF. What a step consumes, and the statements that follow from what a command writes (10_state.md R21 to R25, R54). -/

namespace Sys2Proof.Machine

/-- No body writes the host's half of the interface or the command pointer (R20, R21). -/
theorem Writes.interface {i : Instr} {s u : State} (h : Writes i s u) : u.cp = s.cp ∧ u.cmds = s.cmds ∧ u.host = s.host := by
  rcases h.cases with ⟨-, rfl⟩ | ⟨-, rfl⟩ | ⟨_, _, _, _, _, _, _, _, _, _, rfl⟩ <;> exact ⟨rfl, rfl, rfl⟩

/-- A command that completes moves the command pointer by its length and leaves the host's half of the interface (R62). -/
theorem exec_interface {i : Instr} {s t : State} (h : exec i s = .next t) :
    t.cp = s.cp + i.length ∧ t.cmds = s.cmds ∧ t.host = s.host := by
  obtain ⟨u, hi, out, hw, -, rfl⟩ := exec_frame h
  obtain ⟨hcp, hcmds, hhost⟩ := hw.interface
  exact ⟨by simp [hcp], hcmds, hhost⟩

/-- Everything a step can be: a command, an illegal word, each on the state without its words, or the host's turn (R3, R62). -/
theorem step_cases (s : State) :
    (decode s.cmds = .incomplete ∧ step s = .next (hostTurn s)) ∨
      (∃ i rest, s.cmds.length = rest.length + i.length ∧ step s = exec i { s with cmds := rest }) ∨
      ∃ why opc rest, s.cmds.length = rest.length + wordsOf opc ∧
        step s = rejectIllegal why opc { s with cmds := rest } := by
  cases hcmds : s.cmds with
  | nil => exact .inl ⟨rfl, by simp [step, hcmds, decode]⟩
  | cons w ws =>
    rcases decode_cases w ws with h | ⟨rest, hlen, ⟨i, hopc, h⟩ | ⟨why, h⟩⟩
    · exact .inl ⟨h, by simp [step, hcmds, h]⟩
    · exact .inr (.inl ⟨i, rest, by rw [hlen, Instr.length, hopc], step_of_decode (by rw [hcmds, h])⟩)
    · exact .inr (.inr ⟨why, _, rest, hlen, by simp [step, hcmds, h]⟩)

/-- Settles O12: no body writes the command pointer or the stream, and the end of a command or of an illegal word moves the pointer by
as many words as decoding took. -/
theorem commandPointerCountsWords : Obligations.CommandPointerCountsWords := by
  unfold Obligations.CommandPointerCountsWords
  refine ⟨fun i s t h => ?_, fun s t hwhole h => ?_⟩
  · rw [← Instr.length_eq]
    exact exec_interface h
  · rcases step_cases s with ⟨hwait, -⟩ | ⟨i, rest, hlen, hstep⟩ | ⟨why, opc, rest, hlen, hstep⟩
    · exact absurd hwait hwhole
    · have hpos : 0 < i.length := wordsOf_pos _
      obtain ⟨hcp, hcmds, hhost⟩ := exec_interface (hstep ▸ h)
      rw [hcp, hcmds, hlen]
      refine ⟨?_, ?_, hhost⟩ <;> dsimp only <;> omega
    · have hpos := wordsOf_pos opc
      cases hstep ▸ h
      simp only [State.advance_cp, raise_cp, State.advance_cmds, raise_cmds, State.advance_host, raise_host, hlen, and_true]
      omega

/-- Only the acknowledging commands and `SOFTRESET` write the error state other than by recording an error (R25, R111). -/
theorem Writes.errors {i : Instr} {s u : State} (h : Writes i s u) (hclr : i ≠ .clrerr) (hreset : i ≠ .softreset) :
    u.hi.errPending = s.hi.errPending ∧ u.hi.errMulti = s.hi.errMulti ∧ u.hi.errinfo = s.hi.errinfo := by
  rcases h.cases with ⟨hi, -⟩ | ⟨hi, -⟩ | ⟨_, _, _, _, _, _, _, _, _, _, rfl⟩
  · exact absurd hi hclr
  · exact absurd hi hreset
  · exact ⟨rfl, rfl, rfl⟩

/-- While an error is pending, the end of a command keeps it and can only set `ERR_MULTI` (R117). -/
theorem EndsHi.keeps_first {before after : HiUnit} (h : EndsHi before after) (hp : before.errPending = true) :
    after.errPending = true ∧ after.errinfo = before.errinfo ∧ (before.errMulti = true → after.errMulti = true) := by
  rcases h with rfl | ⟨w, rfl⟩
  · exact ⟨hp, rfl, id⟩
  · simp [HiUnit.record_errinfo, HiUnit.record_errMulti, hp]

/-- Settles O20: the body leaves the error state alone, and recording an error while one is pending keeps the first. -/
theorem firstErrorIsKept : Obligations.FirstErrorIsKept := by
  unfold Obligations.FirstErrorIsKept
  intro i s t hp hclr hreset h
  obtain ⟨u, hi, out, hw, hend, rfl⟩ := exec_frame h
  obtain ⟨hpending, hmulti, hinfo⟩ := hw.errors hclr hreset
  have kept := hend.keeps_first (hpending.trans hp)
  rwa [hinfo, hmulti] at kept

/-- No end of a command writes CTRL (R22). -/
theorem EndsHi.ctrl {before after : HiUnit} (h : EndsHi before after) :
    after.leRaw = before.leRaw ∧ after.irqEn = before.irqEn := by
  rcases h with rfl | ⟨w, rfl⟩
  · exact ⟨rfl, rfl⟩
  · exact ⟨before.record_leRaw w, before.record_irqEn w⟩

/-- Settles O58: the end of a command writes no unit and not CTRL, and each body writes only the fields of its own command. -/
theorem unitsAreWrittenOnlyByTheirCommands : Obligations.UnitsAreWrittenOnlyByTheirCommands := by
  unfold Obligations.UnitsAreWrittenOnlyByTheirCommands
  intro i s t h
  obtain ⟨u, hi, out, hw, hend, rfl⟩ := exec_frame h
  obtain ⟨hraw, hirq⟩ := hend.ctrl
  cases i with
  | softreset => simp [Instr.opcode]
  | clrerr => cases hw; simp [Instr.opcode, hraw, hirq]
  | wrctrl | bpPut | bpFlush | buPut | buEnd | hfEnc | hfEncend | hfDecbits | hfDecend =>
    obtain ⟨_, _, rfl⟩ := hw; simp [Instr.opcode, hraw, hirq]
  | ldCode | ldByte | ldEnd | hfClear | hfBuild => obtain ⟨_, _, _, rfl⟩ := hw; simp [Instr.opcode, hraw, hirq]
  | leByte | leEnd => obtain ⟨_, _, _, rfl, hbp⟩ := hw; simpa [Instr.opcode, hraw, hirq] using hbp
  | nop | rdreg | hfRdfreq | hfRdlen | hfRdcode | hfCount | hfSetfreq =>
    obtain ⟨_, rfl⟩ := hw; simp [Instr.opcode, hraw, hirq]

/-- Settles O11: without a whole command a step is the host's turn, one case per action. -/
theorem stepWithoutACommandIsTheHosts : Obligations.StepWithoutACommandIsTheHosts := by
  unfold Obligations.StepWithoutACommandIsTheHosts
  intro s hwait
  have hturn : step s = .next (hostTurn s) := by simp only [step, hwait]
  rw [hturn]
  refine ⟨fun hhost => ?_, fun w acts hhost => ?_, fun acts hhost => ?_, fun acts hhost => ?_⟩
  · simp only [hostTurn, hhost]
  · simp only [hostTurn, hhost, hostAct, hostSend]
  · simp only [hostTurn, hhost, hostAct, hostTake, List.drop_one]
  · simp only [hostTurn, hhost, hostAct, hostReset]

/-- `irq` is a level: the two flags at once (R115). -/
theorem irq_iff (s : State) : irq s = true ↔ s.hi.errPending = true ∧ s.hi.irqEn = true := by simp [irq]

/-- Settles O23: the level is its definition, and a `raise` leaves an error pending and `IRQ_EN` alone. -/
theorem irqIsALevel : Obligations.IrqIsALevel := by
  unfold Obligations.IrqIsALevel
  refine ⟨irq_iff, fun i e info s t h => ?_⟩
  cases h
  simp [irq]

end Sys2Proof.Machine

/-! PROOF. The units' invariants (10_state.md R25 to R34), each kept by every operation that writes the unit. -/

namespace Sys2Proof.Machine

/-! ## Bit buffers (R29, R33) -/

/-- A value of `k` bits put above `n` bits makes `n + k` bits. -/
theorem append_lt_two_pow {a b n k : Nat} (ha : a < 2 ^ n) (hb : b < 2 ^ k) : a + b * 2 ^ n < 2 ^ (n + k) := by
  calc a + b * 2 ^ n < 2 ^ n + b * 2 ^ n := by omega
    _ = (b + 1) * 2 ^ n := by ring
    _ ≤ 2 ^ k * 2 ^ n := Nat.mul_le_mul_right _ hb
    _ = 2 ^ (n + k) := by rw [Nat.pow_add, Nat.mul_comm]

/-- Without its `k` lowest bits a value of `n` bits has `n - k`. -/
theorem div_lt_two_pow {x n k : Nat} (hx : x < 2 ^ n) (hk : k ≤ n) : x / 2 ^ k < 2 ^ (n - k) := by
  apply Nat.div_lt_of_lt_mul
  rwa [← Nat.pow_add, Nat.add_sub_cancel' hk]

/-- A value of `n` bits, narrowed to a buffer's width, still has at most `n` bits. -/
theorem toNat_ofNat_lt_two_pow {x n : Nat} (w : Nat) (hx : x < 2 ^ n) : (BitVec.ofNat w x).toNat < 2 ^ n :=
  Nat.lt_of_le_of_lt (by rw [BitVec.toNat_ofNat]; exact Nat.mod_le ..) hx

theorem BpInv.empty : BpInv ⟨0, 0⟩ := ⟨by decide⟩

/-- `bp_put` holds 4 bits more or 4 bits fewer (R80). -/
theorem BpInv.bpPut {s : State} (h : BpInv s.bp) (c : Code) : BpInv (bpPut c s).bp := by
  have hbuf := append_lt_two_pow h.buf c.isLt
  have hn := s.bp.n.isLt
  rcases Nat.lt_or_ge s.bp.n.toNat 4 with hfew | hmany
  · rw [bpPut_few c s hfew]
    have held : (BitVec.ofNat 3 (s.bp.n.toNat + 4)).toNat = s.bp.n.toNat + 4 := Nat.mod_eq_of_lt (by omega)
    refine ⟨?_⟩
    simp only [State.pushBytes_bp, held]
    exact toNat_ofNat_lt_two_pow 8 (div_lt_two_pow (k := 8) hbuf (by omega))
  · rw [bpPut_many c s hmany]
    have held : (BitVec.ofNat 3 (s.bp.n.toNat - 4)).toNat = s.bp.n.toNat + 12 - 16 := by
      rw [BitVec.toNat_ofNat, Nat.mod_eq_of_lt (by omega)]; omega
    refine ⟨?_⟩
    simp only [State.pushBytes_bp, held]
    exact toNat_ofNat_lt_two_pow 8 (div_lt_two_pow (k := 16) hbuf (by omega))

/-- `bp_flush` empties the packer, or finds it without bits (R81). -/
theorem BpInv.bpFlush {s : State} (h : BpInv s.bp) : BpInv (bpFlush s).bp := by
  unfold Machine.bpFlush
  split
  · exact BpInv.empty
  · exact h

theorem BuInv.empty : BuInv ⟨0, 0⟩ := ⟨by decide, by decide⟩

/-- `bu_feed` holds 8 bits more, or after a code 4 bits fewer (R82). -/
theorem BuInv.buFeed {u : BuUnit} (h : BuInv u) (b : Byte) : BuInv (buFeed b u).2 := by
  have hbuf := append_lt_two_pow h.buf b.isLt
  have hn := h.n
  rcases Nat.lt_or_ge u.n.toNat 4 with hfew | hmany
  · rw [buFeed_few b u hfew]
    have held : (BitVec.ofNat 4 (u.n.toNat + 8)).toNat = u.n.toNat + 8 := Nat.mod_eq_of_lt (by omega)
    refine ⟨by simp only [held]; omega, ?_⟩
    simp only [held]
    exact toNat_ofNat_lt_two_pow 12 hbuf
  · rw [buFeed_code b u hmany]
    have held : (BitVec.ofNat 4 (u.n.toNat - 4)).toNat = u.n.toNat + 8 - 12 := by
      rw [BitVec.toNat_ofNat, Nat.mod_eq_of_lt (by omega)]; omega
    refine ⟨by simp only [held]; omega, ?_⟩
    simp only [held]
    exact toNat_ofNat_lt_two_pow 12 (div_lt_two_pow (k := 12) hbuf (by omega))

theorem HeInv.fresh : HeInv HeUnit.fresh := ⟨by decide⟩

/-- One bit into the coder: a complete byte leaves no bits, any other joins those held (R98). -/
theorem HeInv.heBit {s : State} (h : HeInv s.he) (bit : Bool) : HeInv (heBit s bit).he := by
  rcases heBit_cases s bit with ⟨-, hbyte⟩ | ⟨hn, hheld⟩
  · rw [hbyte]; exact ⟨by simp⟩
  · rw [hheld]
    have hbuf := append_lt_two_pow (k := 1) h.buf (Bool.toNat_lt bit)
    have held : (s.he.n + 1).toNat = s.he.n.toNat + 1 := by bv_omega
    refine ⟨?_⟩
    simp only [held]
    exact toNat_ofNat_lt_two_pow 8 hbuf

theorem HeInv.heBits {s : State} (h : HeInv s.he) (bits : List Bool) : HeInv (bits.foldl Machine.heBit s).he := by
  induction bits generalizing s with
  | nil => exact h
  | cons bit bits ih => exact ih (h.heBit bit)

/-! ## Control and error state (R25) -/

/-- The end of a command keeps the error state's invariant: recording an error leaves one pending (R111). -/
theorem HiInv.endsHi {before after : HiUnit} (h : HiInv before) (hend : EndsHi before after) : HiInv after := by
  rcases hend with rfl | ⟨w, rfl⟩
  · exact h
  · exact ⟨fun _ => before.record_errPending w, fun hp => absurd hp (by simp)⟩

/-! ## The dictionary encoder (R27) -/

/-- The next code counts up without wrapping while the dictionary has room (R27, R28). -/
theorem toNat_next_succ {next : BitVec 13} (h : next.toNat < 4096) : (next + 1).toNat = next.toNat + 1 := by bv_omega

/-- A fresh encoder has no entries to speak of. -/
theorem LeInv.of_fresh {u : LeUnit} (h : LeFresh u)
    (form : Memory.wf LeEntry.blank u.dict = true ∧ Memory.within 256 4095 u.dict = true) : LeInv u := by
  obtain ⟨hvalid, hcur, hnext, hcodes⟩ := h
  have h256 : u.next.toNat = 256 := by rw [hnext]; rfl
  exact {
    next_lo := h256.ge
    next_hi := by omega
    cur := fun hv => absurd hv (by simp [hvalid])
    pre := fun k _ _ => by omega
    distinct := fun j k _ _ _ => by omega
    fresh := fun _ => ⟨hcur, hnext, hcodes⟩
    form := form }

/-- During a call LE may count a code (R71). -/
theorem LeInv.count {u : LeUnit} (h : LeInv u) (hv : u.curValid = true) (n : Word) : LeInv { u with ncodes := n } :=
  { h with fresh := fun hf => absurd (hv.symm.trans hf) (by decide) }

/-- The accumulator may become any code below the next one (R70). -/
theorem LeInv.setCur {u : LeUnit} (h : LeInv u) {c : Code} (hc : c.toNat < u.next.toNat) :
    LeInv { u with curValid := true, cur := c } :=
  { h with
    cur := fun _ => hc
    fresh := nofun }

/-- Restarting at a byte keeps the invariant: a singleton lies below every next code (R70). -/
theorem LeInv.restart {u : LeUnit} (h : LeInv u) (b : Byte) : LeInv (leRestart b u) := by
  have hb := b.isLt
  have hlo := h.next_lo
  exact h.setCur (by rw [BitVec.toNat_setWidth_of_le (by decide)]; omega)

/-- An insertion keeps the encoder's invariant: the entry extends a code below the new one, and it equals no other entry
because the lookup missed it (R38, R70). -/
theorem LeInv.insert {u : LeUnit} (h : LeInv u) (hv : u.curValid = true) (b : Byte)
    (hmiss : ∀ k, 256 ≤ k → k < u.next.toNat → u.entry k ≠ ⟨u.cur, b⟩) : LeInv (leInsert ⟨u.cur, b⟩ u) := by
  have hlo := h.next_lo
  by_cases hroom : u.next.toNat < 4096
  · have hins : leInsert ⟨u.cur, b⟩ u = { u with
        dict := u.dict.write LeEntry.blank u.next.toNat ⟨u.cur, b⟩, next := u.next + 1 } := if_pos hroom
    have hnext : (leInsert ⟨u.cur, b⟩ u).next.toNat = u.next.toNat + 1 := by rw [hins]; exact toNat_next_succ hroom
    have hnew : (leInsert ⟨u.cur, b⟩ u).entry u.next.toNat = ⟨u.cur, b⟩ := by simp [leInsert_entry, hroom]
    have hold : ∀ k, k < u.next.toNat → (leInsert ⟨u.cur, b⟩ u).entry k = u.entry k := fun k hk => by
      simp [leInsert_entry, hk.ne]
    have hcur := h.cur hv
    refine {
      next_lo := by omega
      next_hi := by omega
      cur := fun _ => ?_
      pre := fun k h1 h2 => ?_
      distinct := fun j k h1 h2 h3 => ?_
      fresh := fun hf => ?_
      form := ?_ }
    · rw [hnext, hins]; exact Nat.lt_succ_of_lt hcur
    · rcases Nat.lt_or_eq_of_le (show k ≤ u.next.toNat by omega) with hk | rfl
      · rw [hold k hk]; exact h.pre k h1 hk
      · rw [hnew]; exact hcur
    · rcases Nat.lt_or_eq_of_le (show k ≤ u.next.toNat by omega) with hk | rfl
      · rw [hold j (by omega), hold k hk]; exact h.distinct j k h1 h2 hk
      · rw [hold j h2, hnew]; exact hmiss j h1 h2
    · rw [hins] at hf; exact absurd (hv.symm.trans hf) (by decide)
    · rw [hins]
      exact ⟨Memory.wf_write h.form.1 _ _, Memory.within_write h.form.2 (by omega) (by omega) _⟩
  · rwa [show leInsert ⟨u.cur, b⟩ u = u from if_neg hroom]

/-- `LE.BYTE` keeps the encoder's invariant (R70). -/
theorem LeInv.leByte {s : State} (h : LeInv s.le) (b : Byte) : LeInv (leByte b s).le := by
  rcases leByte_cases b s with ⟨-, hnew⟩ | ⟨c, hv, hfind, hhit⟩ | ⟨hv, hfind, hmiss⟩
  · rw [hnew]; exact h.restart b
  · obtain ⟨k, hlo, hhi, -, rfl⟩ := camFind_some hfind
    have hcode : (BitVec.ofNat 12 k).toNat < s.le.next.toNat := Nat.lt_of_le_of_lt (Nat.mod_le ..) hhi
    rw [hhit]
    simpa [hv] using h.setCur hcode
  · rw [hmiss]
    exact ((h.count hv (s.le.ncodes + 1)).insert hv b (camFind_none.mp hfind)).restart b

theorem BpInv.emitCode {s : State} (h : BpInv s.bp) (c : Code) : BpInv (emitCode c s).bp := by
  cases hraw : s.hi.leRaw with
  | true => rwa [emitCode_bp_of_raw c hraw]
  | false => rw [emitCode_packed c s hraw]; exact h.bpPut c

theorem BpInv.leByte {s : State} (h : BpInv s.bp) (b : Byte) : BpInv (leByte b s).bp := by
  rcases leByte_cases b s with ⟨-, hnew⟩ | ⟨c, -, -, hhit⟩ | ⟨-, -, hmiss⟩
  · rwa [hnew]
  · rwa [hhit]
  · rw [hmiss]; exact h.emitCode _

/-- Draining LE keeps its dictionary (R72). -/
theorem leDrain_dict (s : State) : (leDrain s).le.dict = s.le.dict := by
  unfold leDrain
  dsimp only
  split_ifs
  · rw [emitCode_le]
  · rfl
  · rw [bpFlush_frame, emitCode_le]
  · rw [bpFlush_frame]

/-- `LE.END` leaves LE fresh (R72). -/
theorem LeInv.leEnd {s : State} (h : LeInv s.le) : LeInv (leEnd s).le := by
  rw [leEnd_eq]
  exact LeInv.of_fresh ⟨rfl, rfl, rfl, rfl⟩ ((leDrain_dict s).symm ▸ h.form)

theorem BpInv.leEnd {s : State} (h : BpInv s.bp) : BpInv (leEnd s).bp := by
  rw [leEnd_eq]
  show BpInv (leDrain s).bp
  unfold leDrain
  dsimp only
  split_ifs
  · exact h.emitCode _
  · exact h
  · exact (h.emitCode _).bpFlush
  · exact h.bpFlush

/-! ## The dictionary decoder (R28) -/

/-- A fresh decoder has no entries to speak of. -/
theorem LdInv.of_fresh {u : LdUnit} (h : LdFresh u)
    (form : Memory.wf LdEntry.blank u.dict = true ∧ Memory.within 256 4095 u.dict = true) : LdInv u := by
  obtain ⟨hvalid, hprev, hnext, hbytes⟩ := h
  have h256 : u.next.toNat = 256 := by rw [hnext]; rfl
  exact {
    next_lo := h256.ge
    next_hi := by omega
    prev := fun hv => absurd hv (by simp [hvalid])
    pre := fun k _ _ => by omega
    first := fun k _ _ => by omega
    len := fun k _ _ => by omega
    fresh := fun _ => ⟨hprev, hnext, hbytes⟩
    form := form }

theorem LdInv.refresh {u : LdUnit} (h : LdInv u) : LdInv u.refresh := LdInv.of_fresh ⟨rfl, rfl, rfl, rfl⟩ h.form

/-- The previous code may become any code below the next one, whatever the count of bytes (R74). -/
theorem LdInv.accept {u : LdUnit} (h : LdInv u) {c : Code} (hc : c.toNat < u.next.toNat) (n : Word) :
    LdInv { u with prevValid := true, prev := c, nbytes := n } :=
  { h with
    prev := fun _ => hc
    fresh := nofun }

/-- The string of a code is one byte longer than the one it extends, so its length is bounded by how far the code lies above the
singletons (R39, R75). -/
theorem LdInv.lenOf_le {u : LdUnit} (h : LdInv u) (k : Code) (hk : k.toNat < u.next.toNat) :
    (u.lenOf k).toNat ≤ k.toNat - 254 + 1 := by
  induction hn : k.toNat using Nat.strong_induction_on generalizing k with
  | _ n ih =>
    subst hn
    by_cases hsingle : k.toNat < 256
    · simp [LdUnit.lenOf, Config.nsym, hsingle]
    · have hpre := h.pre k.toNat (by omega) hk
      have hlen := h.len k.toNat (by omega) hk
      have hrec := ih _ hpre (u.entry k.toNat).pre (by omega) rfl
      have hstored : u.lenOf k = (u.entry k.toNat).len := if_neg hsingle
      rw [hstored, hlen]
      omega

theorem ldInsert_firstOf {u : LdUnit} (f : Byte) {k : Code} (hk : k.toNat < u.next.toNat) :
    (ldInsert f u).firstOf k = u.firstOf k := by
  simp [LdUnit.firstOf, ldInsert_entry, hk.ne]

theorem ldInsert_lenOf {u : LdUnit} (f : Byte) {k : Code} (hk : k.toNat < u.next.toNat) :
    (ldInsert f u).lenOf k = u.lenOf k := by
  simp [LdUnit.lenOf, ldInsert_entry, hk.ne]

/-- While the dictionary has room an insertion moves the next code (R74). -/
theorem ldInsert_next {u : LdUnit} (f : Byte) (hroom : u.next.toNat < 4096) :
    (ldInsert f u).next.toNat = u.next.toNat + 1 := by
  rw [show ldInsert f u = _ from if_pos hroom]; exact toNat_next_succ hroom

/-- An insertion keeps the decoder's invariant: the new entry extends a code below it, and its `first` and `len` are those of
that code's string with a byte more, which does not pass 12 bits (R39, R74). -/
theorem LdInv.insert {u : LdUnit} (h : LdInv u) (hv : u.prevValid = true) (f : Byte) : LdInv (ldInsert f u) := by
  have hlo := h.next_lo
  by_cases hroom : u.next.toNat < 4096
  · have hins : ldInsert f u = { u with
        dict := u.dict.write LdEntry.blank u.next.toNat ⟨u.prev, f, u.firstOf u.prev, u.lenOf u.prev + 1⟩
        next := u.next + 1 } := if_pos hroom
    have hnext := ldInsert_next f hroom
    have hnew : (ldInsert f u).entry u.next.toNat = ⟨u.prev, f, u.firstOf u.prev, u.lenOf u.prev + 1⟩ := by
      simp [ldInsert_entry, hroom]
    have hold : ∀ k, k < u.next.toNat → (ldInsert f u).entry k = u.entry k := fun k hk => by
      simp [ldInsert_entry, hk.ne]
    have hprev := h.prev hv
    refine {
      next_lo := by omega
      next_hi := by omega
      prev := fun _ => ?_
      pre := fun k h1 h2 => ?_
      first := fun k h1 h2 => ?_
      len := fun k h1 h2 => ?_
      fresh := fun hf => ?_
      form := ?_ }
    · rw [hnext, hins]; exact Nat.lt_succ_of_lt hprev
    · rcases Nat.lt_or_eq_of_le (show k ≤ u.next.toNat by omega) with hk | rfl
      · rw [hold k hk]; exact h.pre k h1 hk
      · rw [hnew]; exact hprev
    · rcases Nat.lt_or_eq_of_le (show k ≤ u.next.toNat by omega) with hk | rfl
      · rw [hold k hk, ldInsert_firstOf f ((h.pre k h1 hk).trans hk)]; exact h.first k h1 hk
      · rw [hnew, ldInsert_firstOf f hprev]
    · rcases Nat.lt_or_eq_of_le (show k ≤ u.next.toNat by omega) with hk | rfl
      · rw [hold k hk, ldInsert_lenOf f ((h.pre k h1 hk).trans hk)]; exact h.len k h1 hk
      · have hbound := h.lenOf_le u.prev hprev
        rw [hnew, ldInsert_lenOf f hprev]
        bv_omega
    · rw [hins] at hf; exact absurd (hv.symm.trans hf) (by decide)
    · rw [hins]
      exact ⟨Memory.wf_write h.form.1 _ _, Memory.within_write h.form.2 (by omega) (by omega) _⟩
  · rwa [show ldInsert f u = u from if_neg hroom]

/-- A code up to the next one names an entry once the insertion is done, the self-referential code the new entry (R74). -/
theorem lt_ldInsert_next {u : LdUnit} (f : Byte) {c : Code} (hc : c.toNat ≤ u.next.toNat) :
    c.toNat < (ldInsert f u).next.toNat := by
  have hcode := c.isLt
  by_cases hroom : u.next.toNat < 4096
  · rw [ldInsert_next f hroom]; omega
  · rw [show ldInsert f u = u from if_neg hroom]; omega

end Sys2Proof.Machine

/-! PROOF. The tree builder's invariant (10_state.md R30 to R32), kept by every operation that writes HT. -/

namespace Sys2Proof.Machine

/-! ## The arena (R31) -/

/-- What `HtInv` says of the arena. -/
structure ArenaInv (m : Memory Node) : Prop where
  left : ∀ k, inArena (m.read Node.blank k).left
  right : ∀ k, inArena (m.read Node.blank k).right
  form : Memory.wf Node.blank m = true ∧ Memory.within 256 510 m = true

theorem inArena_none : inArena none := nofun

theorem inArena_some {i : NodeIdx} (h : i.toNat ≤ 510) : inArena (some i) := by rintro _ ⟨⟩; exact h

theorem internalOrNone_none : internalOrNone none := nofun

theorem internalOrNone_some {i : NodeIdx} (h : 256 ≤ i.toNat ∧ i.toNat ≤ 510) : internalOrNone (some i) := by
  rintro _ ⟨⟩; exact h

/-- Writing an internal node whose children are in the arena keeps the arena. -/
theorem ArenaInv.write {m : Memory Node} (h : ArenaInv m) {k : Nat} {e : Node} (hlo : 256 ≤ k) (hhi : k ≤ 510)
    (hl : inArena e.left) (hr : inArena e.right) : ArenaInv (m.write Node.blank k e) where
  left j := by
    rw [Memory.read_write]
    split
    · exact hl
    · exact h.left j
  right j := by
    rw [Memory.read_write]
    split
    · exact hr
    · exact h.right j
  form := ⟨Memory.wf_write h.form.1 _ _, Memory.within_write h.form.2 hlo hhi _⟩

/-! ## The tree builder (R91) -/

/-- A round of the loop of R91 ends it, with one live node or none, or combines two live nodes `x` and `y` into node `k`. -/
theorem combine_succ (rounds : Nat) (live : List LiveNode) (k : Nat) (arena : Memory Node) :
    (live.length ≤ 1 ∧ combine (rounds + 1) live k arena = (live, arena)) ∨
      ∃ x y rest, live.Perm (x :: y :: rest) ∧ combine (rounds + 1) live k arena =
        combine rounds (⟨x.weight + y.weight, BitVec.ofNat 9 k⟩ :: rest) (k + 1)
          (arena.write Node.blank k ⟨some x.idx, some y.idx⟩) := by
  cases hx : takeLeast live with
  | none => exact .inl ⟨by simp [takeLeast_none.mp hx], by simp only [combine, hx]⟩
  | some p =>
    obtain ⟨x, rest⟩ := p
    have hperm := takeLeast_perm hx
    cases hy : takeLeast rest with
    | none => exact .inl ⟨by simp [hperm.length_eq, takeLeast_none.mp hy], by simp only [combine, hx, hy]⟩
    | some q =>
      obtain ⟨y, rest'⟩ := q
      exact .inr ⟨x, y, rest', hperm.trans ((takeLeast_perm hy).cons x), by simp only [combine, hx, hy]⟩

/-- The loop builds internal nodes only, with children in the arena; there is room for as many as there are live nodes to combine. -/
theorem ArenaInv.combine {arena : Memory Node} (h : ArenaInv arena) (rounds : Nat) {live : List LiveNode} {k : Nat}
    (hk : 256 ≤ k) (hroom : k + live.length ≤ 512) (hlive : ∀ x ∈ live, x.idx.toNat ≤ 510) :
    ArenaInv (combine rounds live k arena).2 := by
  induction rounds generalizing live k arena with
  | zero => exact h
  | succ rounds ih =>
    rcases combine_succ rounds live k arena with ⟨-, hdone⟩ | ⟨x, y, rest, hperm, hround⟩
    · rwa [hdone]
    · have hlen : live.length = rest.length + 2 := hperm.length_eq
      have hold : ∀ z ∈ x :: y :: rest, z.idx.toNat ≤ 510 := fun z hz => hlive z (hperm.mem_iff.mpr hz)
      have hnew : (BitVec.ofNat 9 k).toNat ≤ 510 := (Nat.mod_le ..).trans (by omega)
      rw [hround]
      refine ih (h.write hk (by omega) (inArena_some (hold x (by simp))) (inArena_some (hold y (by simp)))) (by omega)
        (by simp; omega) (List.forall_mem_cons.mpr ⟨hnew, fun z hz => hold z (by simp [hz])⟩)

/-- The node at the head of the live list is an internal node from the first round on, and so is the root (R91). -/
theorem combine_head_internal (rounds : Nat) {live : List LiveNode} {k : Nat} (arena : Memory Node) (hk : 256 ≤ k)
    (hroom : k + live.length ≤ 512)
    (hhead : internalOrNone (live.head?.map (fun z => z.idx)) ∨ 1 ≤ rounds ∧ 2 ≤ live.length) :
    internalOrNone ((combine rounds live k arena).1.head?.map (fun z => z.idx)) := by
  induction rounds generalizing live k arena with
  | zero => exact hhead.resolve_right (by omega)
  | succ rounds ih =>
    rcases combine_succ rounds live k arena with ⟨hlen, hdone⟩ | ⟨x, y, rest, hperm, hround⟩
    · rw [hdone]; exact hhead.resolve_right (by omega)
    · have hlen : live.length = rest.length + 2 := hperm.length_eq
      have hidx : (BitVec.ofNat 9 k).toNat = k := Nat.mod_eq_of_lt (by omega)
      rw [hround]
      exact ih _ (by omega) (by simp; omega) (.inl (internalOrNone_some (by rw [hidx]; omega)))

theorem length_leavesOf_le (u : HtUnit) : (leavesOf u).length ≤ 256 :=
  (List.length_filter_le ..).trans (by simp [Config.nsym])

/-- A live leaf is a symbol (R91). -/
theorem idx_liveLeaves_lt {u : HtUnit} {x : LiveNode} (h : x ∈ liveLeaves u) : x.idx.toNat < 256 := by
  obtain ⟨b, hb, rfl⟩ := List.mem_map.mp h
  have hlt : b < 256 := List.mem_range.mp (List.mem_filter.mp hb).1
  exact Nat.lt_of_le_of_lt (Nat.mod_le ..) hlt

theorem HtInv.arena {u : HtUnit} (h : HtInv u) : ArenaInv u.node := ⟨h.left, h.right, h.nodeForm⟩

/-- `build_tree` keeps the tree builder's invariant (R91). -/
theorem HtInv.buildTree {u : HtUnit} (h : HtInv u) : HtInv (buildTree u) := by
  have hcount := length_leavesOf_le u
  have hlen : (liveLeaves u).length ≤ 256 := by simpa [liveLeaves] using hcount
  have hidx : ∀ x ∈ liveLeaves u, x.idx.toNat ≤ 510 := fun x hx => (idx_liveLeaves_lt hx).le.trans (by decide)
  have hn : (BitVec.ofNat 9 (leavesOf u).length).toNat ≤ 256 := (Nat.mod_le ..).trans hcount
  unfold Machine.buildTree
  dsimp only
  split
  · exact { h with nleaves := hn, root := internalOrNone_none }
  · next x hx =>
    have ha := h.arena.write (k := 256) (e := ⟨some x.idx, none⟩) (by decide) (by decide)
      (inArena_some (hidx x (by simp [hx]))) inArena_none
    exact { h with
      nleaves := hn
      root := internalOrNone_some (by decide)
      left := ha.left
      right := ha.right
      nodeForm := ha.form }
  · next x y live hx =>
    rw [hx] at hlen hidx
    have ha := h.arena.combine (x :: y :: live).length (k := Config.nodeLo) (by decide)
      (by simp only [Config.nodeLo]; omega) hidx
    exact { h with
      nleaves := hn
      root := combine_head_internal _ _ (by decide) (by simp only [Config.nodeLo]; omega) (.inr (by simp))
      left := ha.left
      right := ha.right
      nodeForm := ha.form }

/-! ## The codebook (R92) -/

/-- Storing a path of at most 255 bits for a symbol keeps the invariant: its value has no bit at or above its length (R32). -/
theorem HtInv.setCode {u : HtUnit} (h : HtInv u) {b : Nat} (hb : b < 256) {path : List Bool} (hpath : path.length < 256) :
    HtInv (u.setCode b path) where
  nleaves := h.nleaves
  root := h.root
  left := h.left
  right := h.right
  code j := by
    simp only [HtUnit.bitsOf, HtUnit.lenOf, HtUnit.setCode, Memory.read_write]
    split
    · rw [BitVec.toNat_ofNat (x := path.length), Nat.mod_eq_of_lt (by omega)]
      exact toNat_ofNat_lt_two_pow 256 (bitsValue_lt path)
    · exact h.code j
  freqForm := h.freqForm
  nodeForm := h.nodeForm
  lenForm := ⟨Memory.wf_write h.lenForm.1 _ _, Memory.within_write h.lenForm.2 (by omega) (by omega) _⟩
  bitsForm := ⟨Memory.wf_write h.bitsForm.1 _ _, Memory.within_write h.bitsForm.2 (by omega) (by omega) _⟩

/-- A walk no deeper than 256 keeps the invariant: a leaf it meets lies on a path of at most 255 bits (R92). -/
theorem HtInv.walk {u : HtUnit} (h : HtInv u) (depth : Nat) (i : Option NodeIdx) (path : List Bool)
    (hdepth : depth + path.length ≤ 256) : HtInv (walk depth i path u) := by
  induction depth generalizing i path u with
  | zero => exact h
  | succ depth ih =>
    cases i with
    | none => exact h
    | some i =>
      simp only [Machine.walk]
      split
      · next hi => exact h.setCode hi (by omega)
      · exact ih (ih h _ _ (by simp; omega)) _ _ (by simp; omega)

/-- `gen_codebook` keeps the invariant (R92). -/
theorem HtInv.genCodebook {u : HtUnit} (h : HtInv u) : HtInv (genCodebook u) := by
  refine HtInv.walk ?_ _ _ _ (by decide)
  exact { h with
    code := fun _ => Nat.one_pos
    lenForm := ⟨rfl, rfl⟩
    bitsForm := ⟨rfl, rfl⟩ }

/-- `HF.BUILD` keeps the invariant (R93). -/
theorem HtInv.hfBuild {s : State} (h : HtInv s.ht) : HtInv (hfBuild s).ht := { h.buildTree.genCodebook with }

/-- Writing a frequency keeps the invariant (R89, R90). -/
theorem HtInv.setFreq {s : State} (h : HtInv s.ht) (b : Byte) (v : Word) : HtInv (setFreq b v s).ht :=
  { h with freqForm := ⟨Memory.wf_write h.freqForm.1 _ _, Memory.within_write h.freqForm.2 (by omega) (by omega) _⟩ }

/-- `HF.CLEAR` keeps the invariant (R88). -/
theorem HtInv.hfClear {s : State} (h : HtInv s.ht) : HtInv (hfClear s).ht :=
  { h with nleaves := Nat.zero_le _, root := internalOrNone_none, freqForm := ⟨rfl, rfl⟩ }

end Sys2Proof.Machine

/-! PROOF. Every step keeps the machine's invariant (10_state.md R27 to R34). -/

namespace Sys2Proof.Machine

/-! ## Reset -/

theorem HtInv.reset : HtInv HtUnit.reset where
  nleaves := by decide
  root := internalOrNone_none
  left _ := inArena_none
  right _ := inArena_none
  code _ := Nat.one_pos
  freqForm := ⟨rfl, rfl⟩
  nodeForm := ⟨rfl, rfl⟩
  lenForm := ⟨rfl, rfl⟩
  bitsForm := ⟨rfl, rfl⟩

/-- The reset state meets the invariant: every unit is fresh and every memory empty (R127). -/
theorem MachineInv.reset : MachineInv State.reset where
  hi := ⟨nofun, fun _ => rfl⟩
  le := LeInv.of_fresh ⟨rfl, rfl, rfl, rfl⟩ ⟨rfl, rfl⟩
  ld := LdInv.of_fresh ⟨rfl, rfl, rfl, rfl⟩ ⟨rfl, rfl⟩
  bp := BpInv.empty
  bu := BuInv.empty
  ht := HtInv.reset
  he := HeInv.fresh
  hd := ⟨internalOrNone_none⟩

/-- Settles O2: the reset state's units are fresh and its memories empty. -/
theorem resetMeetsInvariant : Obligations.ResetMeetsInvariant := MachineInv.reset

/-! ## Bodies of commands -/

/-- The queue is no part of the invariant. -/
theorem MachineInv.push {s : State} (h : MachineInv s) (t : Tag) (d : Word) : MachineInv (s.push t d) := { h with }

/-- Accepting a code keeps the invariant, if the code is below the next one (R74). -/
theorem MachineInv.ldAccept {s : State} (h : MachineInv s) {c : Code} (hc : c.toNat < s.ld.next.toNat) :
    (ldAccept c s).Leaves MachineInv := by
  refine (ldAccept_leaves c s).mono ?_
  rintro _ ⟨nbytes, out, rfl⟩
  exact { h with ld := h.ld.accept hc nbytes }

/-- `ld_step` keeps the invariant (R74). -/
theorem MachineInv.ldStep {s : State} (h : MachineInv s) (c : Code) : (ldStep c s).Leaves MachineInv := by
  rcases ldStep_cases c s with hfail | ⟨hc, hfirst⟩ | ⟨f, hv, hc, hlater⟩
  · rw [hfail]
    exact { h with ld := h.ld.refresh, bu := BuInv.empty }
  · rw [hfirst]
    exact h.ldAccept (Nat.lt_of_lt_of_le hc h.ld.next_lo)
  · rw [hlater]
    have hins : MachineInv { s with ld := ldInsert f s.ld } := { h with ld := h.ld.insert hv f }
    exact hins.ldAccept (lt_ldInsert_next f hc)

/-- An aborted decode call leaves the engine at the root (R34, R100). -/
theorem MachineInv.hdAbort {s : State} (h : MachineInv s) : MachineInv (hdAbort s) := { h with hd := ⟨h.ht.root⟩ }

/-- What is read at an internal node is the arena's entry (R31). -/
theorem eq_read_of_nodeAt {u : HtUnit} {i : NodeIdx} {e : Node} (h : u.nodeAt i = some e) :
    e = u.node.read Node.blank i.toNat := by
  unfold HtUnit.nodeAt at h
  split at h
  · exact (Option.some.inj h).symm
  · cases h

/-- Moving to a child in the arena keeps the engine at internal nodes: at a leaf it returns to the root (R100). -/
theorem MachineInv.hdMove {s : State} (h : MachineInv s) {child : NodeIdx} (hc : child.toNat ≤ 510) :
    MachineInv (hdMove child s) := by
  unfold Machine.hdMove
  split
  · exact { h with hd := ⟨h.ht.root⟩ }
  · next hinternal => exact { h with hd := ⟨internalOrNone_some ⟨Nat.not_lt.mp hinternal, hc⟩⟩ }

/-- One bit into the traversal engine keeps the invariant (R100). -/
theorem MachineInv.hdBit {s : State} (h : MachineInv s) (bit : Bool) : (hdBit bit s).Leaves MachineInv := by
  rcases hdBit_cases bit s with ⟨-, hr⟩ | ⟨i, -, -, hr⟩ | ⟨i, e, -, -, -, hr⟩ | ⟨i, e, child, -, hnode, hchild, hr⟩ <;>
    rw [hr]
  · exact h.hdAbort
  · trivial
  · exact h.hdAbort
  · refine h.hdMove ?_
    rw [eq_read_of_nodeAt hnode] at hchild
    cases bit with
    | false => exact h.ht.left _ child hchild
    | true => exact h.ht.right _ child hchild

/-- A string of bits into the traversal engine keeps the invariant (R100). -/
theorem MachineInv.hdBits {s : State} (h : MachineInv s) (bits : List Bool) : (hdBits bits s).Leaves MachineInv := by
  induction bits generalizing s with
  | nil => exact h
  | cons bit bits ih => exact (h.hdBit bit).bind fun u hu => ih hu

/-- `HF.ENC` keeps the invariant (R98). -/
theorem MachineInv.hfEnc {s : State} (h : MachineInv s) (b : Byte) : (hfEnc b s).Leaves MachineInv := by
  have habort : MachineInv (heAbort s) := { h with he := HeInv.fresh }
  have hbits := h.he.heBits (s.ht.codeOf b.toNat)
  unfold Machine.hfEnc
  dsimp only
  split_ifs
  · exact habort
  · exact habort
  · exact habort
  · rw [Effect.leaves_done, heBits_frame]
    exact { h with he := ⟨hbits.buf⟩ }

/-- The body of every command keeps the invariant. -/
theorem MachineInv.body {s : State} (h : MachineInv s) (i : Instr) : (body i s).Leaves MachineInv := by
  cases i with
  | nop => exact h
  | hfRdfreq => exact h.push _ _
  | rdreg r =>
    simp only [Machine.body]
    split
    · exact h
    · exact h.push _ _
  | hfRdlen | hfRdcode =>
    simp only [Machine.body]
    split_ifs
    · exact h.push _ _
    · exact h
  | wrctrl v => exact { h with hi := ⟨h.hi.multi, h.hi.clear⟩ }
  | clrerr => exact { h with hi := ⟨nofun, fun _ => rfl⟩ }
  | softreset => exact { MachineInv.reset with }
  | leByte b =>
    rw [Machine.body, Effect.leaves_done, leByte_frame]
    exact { h with le := h.le.leByte b, bp := h.bp.leByte b }
  | leEnd =>
    rw [Machine.body, Effect.leaves_done, leEnd_frame]
    exact { h with le := h.le.leEnd, bp := h.bp.leEnd }
  | ldCode c => exact h.ldStep c
  | ldByte b =>
    have hfed := h.bu.buFeed b
    simp only [Machine.body]
    split
    · next u hu => rw [hu] at hfed; exact { h with bu := hfed }
    · next c u hu =>
      rw [hu] at hfed
      have hkept : MachineInv { s with bu := u } := { h with bu := hfed }
      exact hkept.ldStep c
  | ldEnd => exact { h with bu := BuInv.empty, ld := h.ld.refresh }
  | bpPut c =>
    rw [Machine.body, Effect.leaves_done, bpPut_frame]
    exact { h with bp := h.bp.bpPut c }
  | bpFlush =>
    rw [Machine.body, Effect.leaves_done, bpFlush_frame]
    exact { h with bp := h.bp.bpFlush }
  | buPut b =>
    have hfed := h.bu.buFeed b
    simp only [Machine.body]
    split
    · next u hu => rw [hu] at hfed; exact { h with bu := hfed }
    · next c u hu =>
      rw [hu] at hfed
      have hkept : MachineInv { s with bu := u } := { h with bu := hfed }
      exact hkept.push _ _
  | buEnd => exact { h with bu := BuInv.empty }
  | hfClear => exact { h with ht := h.ht.hfClear, he := HeInv.fresh, hd := ⟨internalOrNone_none⟩ }
  | hfCount b =>
    simp only [Machine.body]
    split_ifs
    · exact h
    · exact { h with ht := h.ht.setFreq b _ }
  | hfSetfreq b count => exact { h with ht := h.ht.setFreq b count }
  | hfBuild => exact { h with ht := h.ht.hfBuild, he := HeInv.fresh, hd := ⟨h.ht.hfBuild.root⟩ }
  | hfEnc b => exact h.hfEnc b
  | hfEncend =>
    rw [Machine.body, Effect.leaves_done, hfEncend_frame]
    exact { h with he := HeInv.fresh }
  | hfDecbits n b =>
    simp only [Machine.body, hfDecbits]
    split_ifs
    · exact h
    · exact h.hdAbort
    · exact h.hdBits _
  | hfDecend =>
    simp only [Machine.body, hfDecend]
    split_ifs
    · exact { h with hd := ⟨h.hd.pos⟩ }
    · exact h.hdAbort

/-! ## Steps -/

/-- Recording an error, or none, keeps the invariant (R111). -/
theorem MachineInv.endsHi {s : State} (h : MachineInv s) {hi : HiUnit} (hend : EndsHi s.hi hi) :
    MachineInv { s with hi := hi } := { h with hi := h.hi.endsHi hend }

/-- A command that completes keeps the invariant. -/
theorem MachineInv.exec {s t : State} (h : MachineInv s) {i : Instr} (hexec : exec i s = .next t) : MachineInv t := by
  rw [exec_eq_complete_body] at hexec
  obtain ⟨u, hi, out, hu, hend, rfl⟩ := complete_frame (h.body i) hexec
  exact { hu.endsHi hend with }

/-- A host action keeps the invariant (R15, R16, R125). -/
theorem MachineInv.hostTurn {s : State} (h : MachineInv s) : MachineInv (hostTurn s) := by
  unfold Machine.hostTurn
  split
  · exact h
  · next a rest _ =>
    cases a with
    | send w => exact { h with }
    | take => exact { h with }
    | reset => exact { MachineInv.reset with }

/-- Settles O3: the host's turn, the body of every command and the recording of an error each keep the invariant. -/
theorem stepKeepsInvariant : Obligations.StepKeepsInvariant := by
  unfold Obligations.StepKeepsInvariant
  intro s t h hnext
  rcases step_cases s with ⟨-, hstep⟩ | ⟨i, rest, -, hstep⟩ | ⟨why, opc, rest, -, hstep⟩
  · cases hstep ▸ hnext
    exact h.hostTurn
  · have hwords : MachineInv { s with cmds := rest } := { h with }
    exact hwords.exec (hstep ▸ hnext)
  · cases hstep ▸ hnext
    exact { h with hi := h.hi.endsHi (.inr ⟨_, rfl⟩) }

end Sys2Proof.Machine

/-! PROOF. Packed streams as numbers (20_memory.md R44), and the packer's share of one (42_bitpack.md R80 to R87). -/

namespace Sys2Proof.Machine

/-! ## The value of a bit string -/

theorem bitsValue_append (xs ys : List Bool) : bitsValue (xs ++ ys) = bitsValue xs + 2 ^ xs.length * bitsValue ys := by
  induction xs with
  | nil => simp [bitsValue]
  | cons x xs ih => simp only [List.cons_append, bitsValue, ih, List.length_cons, Nat.pow_succ]; ring

/-- The bits after the first `k` are the value without its `k` lowest bits, and the first `k` are those lowest bits. -/
theorem bitsValue_split (bits : List Bool) (k : Nat) :
    bitsValue (bits.drop k) = bitsValue bits / 2 ^ k ∧ bitsValue (bits.take k) = bitsValue bits % 2 ^ k := by
  rcases Nat.le_total k bits.length with hk | hk
  · have hlen : (bits.take k).length = k := List.length_take_of_le hk
    have hlow : bitsValue (bits.take k) < 2 ^ k := (bitsValue_lt _).trans_eq (by rw [hlen])
    have hsum := bitsValue_append (bits.take k) (bits.drop k)
    rw [List.take_append_drop, hlen] at hsum
    rw [hsum, Nat.add_mul_div_left _ _ (by positivity), Nat.add_mul_mod_self_left, Nat.div_eq_of_lt hlow,
      Nat.mod_eq_of_lt hlow, Nat.zero_add]
    exact ⟨rfl, rfl⟩
  · have hlow : bitsValue bits < 2 ^ k := (bitsValue_lt bits).trans_le (Nat.pow_le_pow_right (by decide) hk)
    rw [List.drop_eq_nil_of_le hk, List.take_of_length_le hk, Nat.div_eq_of_lt hlow, Nat.mod_eq_of_lt hlow]
    exact ⟨rfl, rfl⟩

@[simp] theorem length_lowBits {m : Nat} (n : Nat) (v : BitVec m) : (lowBits n v).length = n := by simp [lowBits]

/-- The first `n` bits of a number, bit 0 first, have its value modulo `2^n`. -/
theorem bitsValue_lowBits {m : Nat} (n : Nat) (v : BitVec m) : bitsValue (lowBits n v) = v.toNat % 2 ^ n := by
  induction n with
  | zero => simp [lowBits, bitsValue, Nat.mod_one]
  | succ n ih =>
    have hsnoc : lowBits (n + 1) v = lowBits n v ++ [v.getLsbD n] := by simp [lowBits, List.range_succ]
    rw [hsnoc, bitsValue_append, ih, length_lowBits, Nat.mod_pow_succ, ← BitVec.testBit_toNat, Nat.testBit_eq_decide_div_mod_eq]
    rcases Nat.mod_two_eq_zero_or_one (v.toNat / 2 ^ n) with h | h <;> simp [bitsValue, h]

/-! ## The bytes of a number -/

/-- The `k` lowest bytes, one by one (R80). -/
theorem lowBytes_eq_map (k v : Nat) : lowBytes k v = (List.range k).map (fun j => BitVec.ofNat 8 (v / 256 ^ j)) := by
  induction k generalizing v with
  | zero => rfl
  | succ k ih =>
    rw [lowBytes, ih, List.range_succ_eq_map]
    simp [Nat.div_div_eq_div_mul, Nat.pow_succ, Nat.mul_comm, Function.comp_def]

@[simp] theorem length_lowBytes (k v : Nat) : (lowBytes k v).length = k := by simp [lowBytes_eq_map]

/-- The bytes of a number in two runs. -/
theorem lowBytes_add (j k v : Nat) : lowBytes (j + k) v = lowBytes j v ++ lowBytes k (v / 256 ^ j) := by
  induction j generalizing v with
  | zero => simp [lowBytes]
  | succ j ih =>
    rw [Nat.add_right_comm, lowBytes, ih, lowBytes, Nat.div_div_eq_div_mul, Nat.pow_succ, Nat.mul_comm 256]
    rfl

/-- What lies above the `k` lowest bytes does not change them. -/
theorem lowBytes_add_mul (k v w : Nat) : lowBytes k (v + 256 ^ k * w) = lowBytes k v := by
  induction k generalizing v with
  | zero => rfl
  | succ k ih =>
    have hbyte : BitVec.ofNat 8 (v + 256 ^ (k + 1) * w) = BitVec.ofNat 8 v := by
      apply BitVec.eq_of_toNat_eq
      rw [BitVec.toNat_ofNat, BitVec.toNat_ofNat, Nat.pow_succ, Nat.mul_comm (256 ^ k), Nat.mul_assoc,
        Nat.add_mul_mod_self_left]
    have hrest : (v + 256 ^ (k + 1) * w) / 256 = v / 256 + 256 ^ k * w := by
      rw [Nat.pow_succ, Nat.mul_comm (256 ^ k), Nat.mul_assoc, Nat.add_mul_div_left _ _ (by decide)]
    rw [lowBytes, lowBytes, hbyte, hrest, ih]

/-- The bytes of a bit string are the bytes of its value (R44, R45). -/
theorem bytesOfBits_eq_lowBytes (bits : List Bool) : bytesOfBits bits = lowBytes ((bits.length + 7) / 8) (bitsValue bits) := by
  rw [lowBytes_eq_map, bytesOfBits]
  refine List.map_congr_left fun k _ => ?_
  rw [(bitsValue_split _ 8).2, (bitsValue_split bits (8 * k)).1, Nat.pow_mul]
  apply BitVec.eq_of_toNat_eq
  rw [BitVec.toNat_ofNat, BitVec.toNat_ofNat, Nat.mod_mod]

/-! ## What the packer still owes -/

/-- The bytes to come from a packer that holds `u`, if `codes` are put into it and it is then flushed: the bits held and the codes'
bits, packed (R44). -/
def packedFrom (u : BpUnit) (codes : List Code) : List Byte :=
  bytesOfBits (lowBits u.n.toNat u.buf ++ codes.flatMap (lowBits 12))

theorem packedFrom_empty (codes : List Code) : packedFrom ⟨0, 0⟩ codes = packedCodes codes := rfl

theorem length_flatMap_lowBits (codes : List Code) : (codes.flatMap (lowBits 12)).length = 12 * codes.length := by
  simp [List.length_flatMap, Nat.mul_comm]

/-- The packed stream of `n` codes is `ceil(3n / 2)` bytes long (R44). -/
theorem length_packedCodes (codes : List Code) : (packedCodes codes).length = (3 * codes.length + 1) / 2 := by
  rw [packedCodes, bytesOfBits_eq_lowBytes, length_lowBytes, length_flatMap_lowBits]
  omega

/-- The bytes owed, as the bytes of one number: the buffer, and above its `n` bits the codes (R44). -/
theorem packedFrom_eq_lowBytes {u : BpUnit} (h : BpInv u) (codes : List Code) : packedFrom u codes =
    lowBytes ((u.n.toNat + 12 * codes.length + 7) / 8)
      (u.buf.toNat + 2 ^ u.n.toNat * bitsValue (codes.flatMap (lowBits 12))) := by
  rw [packedFrom, bytesOfBits_eq_lowBytes, bitsValue_append, bitsValue_lowBits, Nat.mod_eq_of_lt h.buf, List.length_append,
    length_flatMap_lowBits, length_lowBits]

theorem bitsValue_flatMap_lowBits_cons (c : Code) (codes : List Code) :
    bitsValue ((c :: codes).flatMap (lowBits 12)) = c.toNat + 2 ^ 12 * bitsValue (codes.flatMap (lowBits 12)) := by
  rw [List.flatMap_cons, bitsValue_append, bitsValue_lowBits, Nat.mod_eq_of_lt c.isLt, length_lowBits]

/-- The packer after `bp_put`: of the bits held and the code's, those that make no whole byte (R80). -/
theorem bpPut_bp {s : State} (h : BpInv s.bp) (c : Code) :
    (bpPut c s).bp.n.toNat = (s.bp.n.toNat + 12) % 8 ∧
      (bpPut c s).bp.buf.toNat = (s.bp.buf.toNat + c.toNat * 2 ^ s.bp.n.toNat) / 256 ^ ((s.bp.n.toNat + 12) / 8) := by
  have hbuf := append_lt_two_pow h.buf c.isLt
  have hheld : (s.bp.buf.toNat + c.toNat * 2 ^ s.bp.n.toNat) / 256 ^ ((s.bp.n.toNat + 12) / 8) < 2 ^ 8 := by
    rw [show (256 : Nat) = 2 ^ 8 from rfl, ← Nat.pow_mul]
    exact (div_lt_two_pow hbuf (by omega)).trans_le (Nat.pow_le_pow_right (by decide) (by omega))
  exact ⟨Nat.mod_eq_of_lt (Nat.mod_lt _ (by decide)), Nat.mod_eq_of_lt hheld⟩

/-- `bp_put` outputs the first bytes owed and owes the others (R80). -/
theorem bpPut_eq_packedFrom {s : State} (h : BpInv s.bp) (c : Code) :
    ∃ bp bytes, bpPut c s = { s with bp := bp }.pushBytes .lbyte bytes ∧ BpInv bp ∧
      ∀ codes, packedFrom s.bp (c :: codes) = bytes ++ packedFrom bp codes := by
  refine ⟨(bpPut c s).bp, _, rfl, h.bpPut c, fun codes => ?_⟩
  obtain ⟨hn, hbuf⟩ := bpPut_bp h c
  rw [packedFrom_eq_lowBytes h, packedFrom_eq_lowBytes (h.bpPut c), hn, hbuf, bitsValue_flatMap_lowBits_cons]
  generalize bitsValue (codes.flatMap (lowBits 12)) = later
  have hcount : (s.bp.n.toNat + 12 * (c :: codes).length + 7) / 8 =
      (s.bp.n.toNat + 12) / 8 + ((s.bp.n.toNat + 12) % 8 + 12 * codes.length + 7) / 8 := by
    rw [List.length_cons]; omega
  have hpow : 2 ^ s.bp.n.toNat * 2 ^ 12 = 256 ^ ((s.bp.n.toNat + 12) / 8) * 2 ^ ((s.bp.n.toNat + 12) % 8) := by
    rw [show (256 : Nat) = 2 ^ 8 from rfl, ← Nat.pow_mul, ← Nat.pow_add, ← Nat.pow_add, Nat.div_add_mod]
  have hvalue : s.bp.buf.toNat + 2 ^ s.bp.n.toNat * (c.toNat + 2 ^ 12 * later) =
      (s.bp.buf.toNat + c.toNat * 2 ^ s.bp.n.toNat) +
        256 ^ ((s.bp.n.toNat + 12) / 8) * (2 ^ ((s.bp.n.toNat + 12) % 8) * later) := by
    rw [← Nat.mul_assoc, ← hpow]; ring
  rw [hcount, hvalue, lowBytes_add, lowBytes_add_mul, Nat.add_mul_div_left _ _ (by positivity)]

/-- `bp_flush` outputs the bytes owed and leaves the packer empty (R81). -/
theorem bpFlush_eq_packedFrom {s : State} (h : BpInv s.bp) :
    bpFlush s = { s with bp := ⟨0, 0⟩ }.pushBytes .lbyte (packedFrom s.bp []) := by
  have hn := s.bp.n.isLt
  have howed : packedFrom s.bp [] = lowBytes ((s.bp.n.toNat + 7) / 8) s.bp.buf.toNat := by
    simp [packedFrom_eq_lowBytes h, bitsValue]
  rw [howed]
  by_cases hheld : 0 < s.bp.n.toNat
  · rw [bpFlush, if_pos hheld, show (s.bp.n.toNat + 7) / 8 = 1 by omega]
    simp [State.push, State.pushBytes, lowBytes]
  · have hempty : s.bp = ⟨0, 0⟩ := by
      have hn0 : s.bp.n.toNat = 0 := by omega
      have hbuf := h.buf
      rw [hn0] at hbuf
      exact congrArg₂ BpUnit.mk (BitVec.eq_of_toNat_eq (by simpa using hbuf)) (BitVec.eq_of_toNat_eq hn0)
    rw [bpFlush, if_neg hheld, show (s.bp.n.toNat + 7) / 8 = 0 by omega, ← hempty]
    simp [State.pushBytes, lowBytes]

/-- Putting codes into the packer and flushing it pushes the bytes owed and leaves the packer empty (R87). -/
theorem execAll_pack (codes : List Code) {s : State} (h : BpInv s.bp) :
    execAll (Pseudo.pack codes) s = .next ({ s with
      cp := s.cp + codes.length + 1, bp := ⟨0, 0⟩ }.pushBytes .lbyte (packedFrom s.bp codes)) := by
  induction codes generalizing s with
  | nil =>
    show execAll [.bpFlush] s = _
    simp only [execAll, exec_eq_complete_body, body, bpFlush_eq_packedFrom h]
    rfl
  | cons c codes ih =>
    obtain ⟨bp, bytes, hput, hbp, howed⟩ := bpPut_eq_packedFrom h c
    have hexec : exec (.bpPut c) s = .next (({ s with bp := bp }.pushBytes .lbyte bytes).advance 1) := by
      rw [exec_eq_complete_body, body, hput]; rfl
    show execAll (.bpPut c :: Pseudo.pack codes) s = _
    simp only [execAll, hexec]
    rw [ih hbp, howed codes]
    simp [State.pushBytes, State.advance, Nat.add_assoc, Nat.add_comm 1]

/-- Settles O40: the empty packer owes the packed stream of the codes. -/
theorem packIsTheWireFormat : Obligations.PackIsTheWireFormat := by
  unfold Obligations.PackIsTheWireFormat
  intro s codes hempty
  refine ⟨?_, length_packedCodes codes⟩
  rw [execAll_pack codes (hempty ▸ BpInv.empty), hempty, packedFrom_empty, State.pushBytes]
  simp only [zext32_eq]

end Sys2Proof.Machine

/-! PROOF. The strings of the decoder's dictionary (20_memory.md R39) read through its stack (41_lzw_decoder.md R75), and the model's
faults at an entry that does not exist (log 9). -/

namespace Sys2Proof.Machine

/-! ## The chain of prefixes -/

/-- A singleton is the bottom of its chain (R75). -/
theorem unwind_singleton (u : LdUnit) (room : Nat) {k : Code} (stack : List Byte) (hk : k.toNat < 256) :
    u.unwind (room + 1) k stack = some (k.setWidth 8 :: stack) := if_pos hk

/-- An entry puts its byte on the stack and goes on with the code it extends (R75). -/
theorem unwind_entry (u : LdUnit) (room : Nat) {k : Code} (stack : List Byte) (hk : 256 ≤ k.toNat) :
    u.unwind (room + 1) k stack = u.unwind room (u.entry k.toNat).pre ((u.entry k.toNat).byte :: stack) := if_neg hk.not_gt

/-- `bytes` is the one string that the code `k` names: a stack with room for it reads it, it has the stored length and first byte,
and its length is bounded by how far `k` lies above the singletons (R39, R75). -/
structure LdString (u : LdUnit) (k : Code) (bytes : List Byte) : Prop where
  names : LdNames u k.toNat bytes
  unique : ∀ other, LdNames u k.toNat other → other = bytes
  unwind : ∀ room stack, bytes.length ≤ room → u.unwind room k stack = some (bytes ++ stack)
  length : bytes.length = (u.lenOf k).toNat
  bound : bytes.length ≤ k.toNat - 255 + 1
  first : bytes.head? = some (u.firstOf k)

/-- The string of a singleton is its byte (R39). -/
theorem LdString.singleton (u : LdUnit) {k : Code} (hk : k.toNat < 256) : LdString u k [k.setWidth 8] where
  names := by
    have h := LdNames.singleton (u := u) k.toNat hk
    rwa [BitVec.ofNat_toNat] at h
  unique other h := by
    cases h with
    | singleton => rw [BitVec.ofNat_toNat]
    | entry _ _ lo => omega
  unwind room stack hroom := by
    obtain ⟨room, rfl⟩ := Nat.exists_eq_succ_of_ne_zero (Nat.ne_of_gt hroom)
    exact unwind_singleton u room stack hk
  length := by simp [LdUnit.lenOf, Config.nsym, hk]
  bound := by simp
  first := by simp [LdUnit.firstOf, Config.nsym, hk]

/-- The string of an entry is that of the code it extends, with its byte at the end (R39). -/
theorem LdString.entry {u : LdUnit} (h : LdInv u) {k : Code} (lo : 256 ≤ k.toNat) (hi : k.toNat < u.next.toNat)
    {bytes : List Byte} (hpre : LdString u (u.entry k.toNat).pre bytes) :
    LdString u k (bytes ++ [(u.entry k.toNat).byte]) where
  names := .entry k.toNat bytes lo hi hpre.names
  unique other hother := by
    cases hother with
    | singleton => omega
    | entry _ t _ _ ht => rw [hpre.unique t ht]
  unwind room stack hroom := by
    rw [List.length_append, List.length_singleton] at hroom
    obtain ⟨room, rfl⟩ := Nat.exists_eq_succ_of_ne_zero (n := room) (by omega)
    rw [unwind_entry u room stack lo, hpre.unwind room _ (by omega), List.append_assoc, List.singleton_append]
  length := by
    rw [show u.lenOf k = (u.entry k.toNat).len from if_neg lo.not_gt, h.len k.toNat lo hi, ← hpre.length]
    simp
  bound := by
    have hlt := h.pre k.toNat lo hi
    have hbound := hpre.bound
    simp only [List.length_append, List.length_singleton]
    omega
  first := by
    rw [show u.firstOf k = (u.entry k.toNat).first from if_neg lo.not_gt, h.first k.toNat lo hi, List.head?_append,
      hpre.first, Option.some_or]

/-- Under the decoder's invariant every code below the next one has its string: prefixes lead down to the singletons (R39). -/
theorem LdInv.exists_string {u : LdUnit} (h : LdInv u) (k : Code) (hk : k.toNat < u.next.toNat) : ∃ bytes, LdString u k bytes := by
  induction hn : k.toNat using Nat.strong_induction_on generalizing k with
  | _ n ih =>
    subst hn
    rcases Nat.lt_or_ge k.toNat 256 with hsingle | hentry
    · exact ⟨_, .singleton u hsingle⟩
    · have hlt := h.pre k.toNat hentry hk
      obtain ⟨bytes, hbytes⟩ := ih _ hlt _ (hlt.trans hk) rfl
      exact ⟨_, hbytes.entry h hentry hk⟩

/-- Settles O31: the stack of 3841 bytes has room for the string of the last code, 4095, and so for every string. -/
theorem ldEveryCodeNamesAString : Obligations.LdEveryCodeNamesAString := by
  unfold Obligations.LdEveryCodeNamesAString
  intro u k h hk
  obtain ⟨bytes, hbytes⟩ := h.exists_string k hk
  have hroom : bytes.length ≤ 3841 := by
    have hbound := hbytes.bound
    have hcode := k.isLt
    omega
  have hread : u.stringOf k = some bytes := by
    simpa [LdUnit.stringOf] using hbytes.unwind Config.strMax [] hroom
  exact ⟨bytes, hbytes.names, hbytes.unique, hread, hbytes.length, hroom, hbytes.first⟩

/-! ## Accesses to entries that do not exist -/

/-- The chain of a code that extends itself has no bottom: the stack overflows, whatever its depth (log 9). -/
theorem unwind_of_own_prefix {u : LdUnit} {k : Code} (hk : 256 ≤ k.toNat) (hpre : (u.entry k.toNat).pre = k) (room : Nat)
    (stack : List Byte) : u.unwind room k stack = none := by
  induction room generalizing stack with
  | zero => rfl
  | succ room ih => rw [unwind_entry u room stack hk, hpre, ih]

/-- An index below or above the internal nodes has no entry (R31). -/
theorem nodeAt_eq_none (u : HtUnit) {i : NodeIdx} (hi : i.toNat < 256 ∨ i.toNat = 511) : u.nodeAt i = none := by
  apply if_neg
  simp only [Config.nodeLo, Config.nodeHi]
  omega

/-- An engine that stands at no entry stops at the first bit (log 9). -/
theorem hdBits_stop {s : State} {i : NodeIdx} (hpos : s.hd.pos = some i) (hnode : s.ht.nodeAt i = none) (bit : Bool)
    (bits : List Bool) : hdBits (bit :: bits) s = .stop .arenaIndex := by
  simp [hdBits, hdBit, hpos, hnode]

/-- Settles O55: with the dictionary full no insertion mends the chain, and a byte with at least one bit makes the engine read. -/
theorem accessesToNoEntryFault : Obligations.AccessesToNoEntryFault := by
  unfold Obligations.AccessesToNoEntryFault
  refine ⟨fun c s hvalid hfull hc hpre => ?_, fun n b s i hvalid hpos hle hstand hi => ?_⟩
  · have hbelow : c.toNat < s.ld.next.toNat := by rw [hfull]; exact c.isLt
    have hkeep : ∀ f, ldInsert f s.ld = s.ld := fun f => if_neg (by rw [hfull]; decide)
    have hnone : s.ld.stringOf c = none := unwind_of_own_prefix hc hpre _ _
    have hstep : ldStep c s = .stop .stringStackOverflow := by
      simp [ldStep, hvalid, hbelow, ldResolve, hkeep, outputString, hnone]
    rw [exec_eq_complete_body, body, hstep, complete_stop]
  · obtain ⟨m, hm⟩ := Nat.exists_eq_succ_of_ne_zero (Nat.ne_of_gt hpos)
    have hbits : lowBits n.toNat b = b.getLsbD 0 :: ((List.range m).map Nat.succ).map b.getLsbD := by
      rw [lowBits, hm, List.range_succ_eq_map, List.map_cons]
    have hstop : hfDecbits n b s = .stop .arenaIndex := by
      rw [hfDecbits, if_neg hle.not_gt, if_neg (by simp [hvalid]), hbits, hdBits_stop hstand (nodeAt_eq_none s.ht hi)]
    rw [exec_eq_complete_body, body, hstop, complete_stop]

end Sys2Proof.Machine

/-! PROOF. What a command can depend on (20_memory.md R49, R54). A body of the encoder, the decoder or the Huffman units does the same
wherever the units of its own stand: it commutes with putting them into another state, whose queue it only lengthens. -/

namespace Sys2Proof.Machine

/-! ## A body in another state -/

/-- The end of a body in the state that `g` makes of the one it left. -/
def Effect.map (g : State → State) (r : Effect) : Effect :=
  match r with
  | .done u => .done (g u)
  | .error e info u => .error e info (g u)
  | .stop f => .stop f

@[simp] theorem Effect.map_done (g : State → State) (u : State) : (Effect.done u).map g = .done (g u) := rfl

@[simp] theorem Effect.map_error (g : State → State) (e : ErrorKind) (info : BitVec 16) (u : State) :
    (Effect.error e info u).map g = .error e info (g u) := rfl

@[simp] theorem Effect.map_stop (g : State → State) (f : Fault) : (Effect.stop f).map g = .stop f := rfl

/-- Two parts in a row commute with `g` if the second does. -/
theorem Effect.bind_map {g : State → State} {f : State → Effect} (r : Effect) (hf : ∀ u, f (g u) = (f u).map g) :
    (r.map g).bind f = (r.bind f).map g := by
  cases r with
  | done u => exact hf u
  | error e info u => rfl
  | stop flt => rfl

/-- The state `s` with the encoder's part of `t`, and with the words of `t` pushed behind its own. -/
def encoderIn (s t : State) : State := { s with hi := t.hi, le := t.le, bp := t.bp, out := s.out ++ t.out }

/-- The state `s` with the decoder's part of `t`, and with the words of `t` pushed behind its own. -/
def decoderIn (s t : State) : State := { s with hi := t.hi, ld := t.ld, bu := t.bu, out := s.out ++ t.out }

/-- The state `s` with the Huffman units and the error state of `t`, and with the words of `t` pushed behind its own. -/
def huffmanIn (s t : State) : State :=
  { s with hi := t.hi, ht := t.ht, he := t.he, hd := t.hd, out := s.out ++ t.out }

/-- A state before it pushed anything. -/
def unpushed (s : State) : State := { s with out := [] }

@[simp] theorem encoderIn_hi (s t : State) : (encoderIn s t).hi = t.hi := rfl
@[simp] theorem encoderIn_le (s t : State) : (encoderIn s t).le = t.le := rfl
@[simp] theorem decoderIn_ld (s t : State) : (decoderIn s t).ld = t.ld := rfl
@[simp] theorem decoderIn_bu (s t : State) : (decoderIn s t).bu = t.bu := rfl
@[simp] theorem huffmanIn_ht (s t : State) : (huffmanIn s t).ht = t.ht := rfl
@[simp] theorem huffmanIn_he (s t : State) : (huffmanIn s t).he = t.he := rfl
@[simp] theorem huffmanIn_hd (s t : State) : (huffmanIn s t).hd = t.hd := rfl

/-! ## The encoder (R70 to R72, R80, R81) -/

theorem bpPut_encoderIn (c : Code) (s t : State) : bpPut c (encoderIn s t) = encoderIn s (bpPut c t) := by
  simp [bpPut, encoderIn, State.pushBytes]

theorem bpFlush_encoderIn (s t : State) : bpFlush (encoderIn s t) = encoderIn s (bpFlush t) := by
  by_cases h : 0 < t.bp.n.toNat <;> simp [bpFlush, encoderIn, State.push, h]

theorem emitCode_encoderIn (c : Code) (s t : State) : emitCode c (encoderIn s t) = encoderIn s (emitCode c t) := by
  cases hraw : t.hi.leRaw with
  | true =>
    rw [emitCode_raw c t hraw, emitCode_raw c (encoderIn s t) hraw]
    simp [encoderIn, State.push]
  | false =>
    rw [emitCode_packed c t hraw, emitCode_packed c (encoderIn s t) hraw, bpPut_encoderIn]
    rfl

theorem leByte_encoderIn (b : Byte) (s t : State) : leByte b (encoderIn s t) = encoderIn s (leByte b t) := by
  unfold leByte
  cases hv : t.le.curValid with
  | false => simp [encoderIn, hv]
  | true =>
    cases hfind : camFind t.le ⟨t.le.cur, b⟩ Config.nsym t.le.next.toNat with
    | some k => simp [encoderIn, hv, hfind]
    | none =>
      simp only [encoderIn_le, hv, hfind, emitCode_encoderIn]
      rfl

theorem leDrain_encoderIn (s t : State) : leDrain (encoderIn s t) = encoderIn s (leDrain t) := by
  simp only [leDrain, encoderIn_le, encoderIn_hi, emitCode_encoderIn, ← apply_ite (encoderIn s), bpFlush_encoderIn]

theorem leEnd_encoderIn (s t : State) : leEnd (encoderIn s t) = encoderIn s (leEnd t) := by
  rw [leEnd_eq, leDrain_encoderIn, leEnd_eq]
  simp [encoderIn, State.push]

/-! ## The decoder (R74 to R78) -/

theorem outputString_decoderIn (c : Code) (s t : State) :
    outputString c (decoderIn s t) = (outputString c t).map (decoderIn s) := by
  cases h : t.ld.stringOf c <;> simp [outputString, decoderIn, State.pushBytes, h]

theorem ldAccept_decoderIn (c : Code) (s t : State) : ldAccept c (decoderIn s t) = (ldAccept c t).map (decoderIn s) := by
  rw [ldAccept, outputString_decoderIn, Effect.bind_map _ (fun _ => rfl), ldAccept]

theorem ldStep_decoderIn (c : Code) (s t : State) : ldStep c (decoderIn s t) = (ldStep c t).map (decoderIn s) := by
  have hresolve : ∀ f, ldResolve c f (decoderIn s t) = (ldResolve c f t).map (decoderIn s) :=
    fun f => ldAccept_decoderIn c s { t with ld := ldInsert f t.ld }
  have hfirst := ldAccept_decoderIn c s t
  simp only [ldAccept] at hfirst
  simp only [ldStep, decoderIn_ld, apply_ite (Effect.map (decoderIn s)), hresolve, hfirst]
  rfl

/-! ## The Huffman coder and decoder (R98 to R101) -/

theorem heBit_huffmanIn (s t : State) (bit : Bool) : heBit (huffmanIn s t) bit = huffmanIn s (heBit t bit) := by
  by_cases h : t.he.n.toNat + 1 = 8 <;> simp [heBit, huffmanIn, State.push, h]

theorem heBits_huffmanIn (s t : State) (bits : List Bool) :
    bits.foldl heBit (huffmanIn s t) = huffmanIn s (bits.foldl heBit t) := by
  induction bits generalizing t with
  | nil => rfl
  | cons bit bits ih => rw [List.foldl_cons, List.foldl_cons, heBit_huffmanIn, ih]

theorem hdMove_huffmanIn (child : NodeIdx) (s t : State) : hdMove child (huffmanIn s t) = huffmanIn s (hdMove child t) := by
  by_cases h : child.toNat < Config.nsym <;> simp [hdMove, huffmanIn, State.push, h]

theorem hdBit_huffmanIn (bit : Bool) (s t : State) : hdBit bit (huffmanIn s t) = (hdBit bit t).map (huffmanIn s) := by
  unfold hdBit
  simp only [huffmanIn_hd, huffmanIn_ht]
  cases t.hd.pos with
  | none => rfl
  | some i =>
    dsimp only
    cases t.ht.nodeAt i with
    | none => rfl
    | some e =>
      dsimp only
      cases (if bit then e.right else e.left) with
      | none => rfl
      | some child => exact congrArg Effect.done (hdMove_huffmanIn child s t)

theorem hdBits_huffmanIn (bits : List Bool) (s t : State) :
    hdBits bits (huffmanIn s t) = (hdBits bits t).map (huffmanIn s) := by
  induction bits generalizing t with
  | nil => rfl
  | cons bit bits ih => rw [hdBits, hdBit_huffmanIn, Effect.bind_map _ ih, hdBits]

theorem hfEnc_huffmanIn (b : Byte) (s t : State) : hfEnc b (huffmanIn s t) = (hfEnc b t).map (huffmanIn s) := by
  simp only [hfEnc, apply_ite (Effect.map (huffmanIn s)), huffmanIn_ht, huffmanIn_he, heBits_huffmanIn]
  rfl

theorem hfEncend_huffmanIn (s t : State) : hfEncend (huffmanIn s t) = huffmanIn s (hfEncend t) := by
  by_cases h : 0 < t.he.n.toNat <;> simp [hfEncend, huffmanIn, State.push, h]

theorem hfDecend_huffmanIn (s t : State) : hfDecend (huffmanIn s t) = (hfDecend t).map (huffmanIn s) := by
  by_cases h : t.hd.pos = t.ht.root <;> simp [hfDecend, huffmanIn, State.push, hdAbort, h]

theorem hfDecbits_huffmanIn (n : BitVec 4) (b : Byte) (s t : State) :
    hfDecbits n b (huffmanIn s t) = (hfDecbits n b t).map (huffmanIn s) := by
  simp only [hfDecbits, apply_ite (Effect.map (huffmanIn s)), huffmanIn_ht, hdBits_huffmanIn]
  rfl

/-! ## Bodies of commands -/

/-- The encoder's commands (R59). -/
theorem body_encoderIn {i : Instr} (hi : i.opcode ∈ ([0x10, 0x11] : List (BitVec 8))) (s t : State) :
    body i (encoderIn s t) = (body i t).map (encoderIn s) := by
  cases i with
  | leByte b => exact congrArg Effect.done (leByte_encoderIn b s t)
  | leEnd => exact congrArg Effect.done (leEnd_encoderIn s t)
  | _ => simp [Instr.opcode] at hi

/-- The decoder's commands (R59). -/
theorem body_decoderIn {i : Instr} (hi : i.opcode ∈ ([0x18, 0x19, 0x1A] : List (BitVec 8))) (s t : State) :
    body i (decoderIn s t) = (body i t).map (decoderIn s) := by
  cases i with
  | ldCode c => exact ldStep_decoderIn c s t
  | ldByte b =>
    simp only [body, decoderIn_bu]
    rcases buFeed b t.bu with ⟨_ | c, u⟩
    · rfl
    · exact ldStep_decoderIn c s { t with bu := u }
  | ldEnd => simp [body, ldEnd, decoderIn, State.push]
  | _ => simp [Instr.opcode] at hi

/-- The Huffman commands (R59). -/
theorem body_huffmanIn {i : Instr} (hi : 0x30 ≤ i.opcode.toNat) (s t : State) :
    body i (huffmanIn s t) = (body i t).map (huffmanIn s) := by
  cases i with
  | hfClear | hfSetfreq | hfBuild => rfl
  | hfRdfreq => simp [body, huffmanIn, State.push]
  | hfCount =>
    simp only [body, apply_ite (Effect.map (huffmanIn s)), huffmanIn_ht]
    rfl
  | hfRdlen | hfRdcode =>
    simp only [body, apply_ite (Effect.map (huffmanIn s)), huffmanIn_ht]
    simp [huffmanIn, State.push]
  | hfEnc b => exact hfEnc_huffmanIn b s t
  | hfEncend => exact congrArg Effect.done (hfEncend_huffmanIn s t)
  | hfDecbits n b => exact hfDecbits_huffmanIn n b s t
  | hfDecend => exact hfDecend_huffmanIn s t
  | _ => simp [Instr.opcode] at hi

/-- The body of an encoder command in any state that agrees with `s` on the encoder's part (R54). -/
theorem body_of_encoder_eq {i : Instr} (hi : i.opcode ∈ ([0x10, 0x11] : List (BitVec 8))) {s s' : State} (hle : s.le = s'.le)
    (hbp : s.bp = s'.bp) (hhi : s.hi = s'.hi) : body i s' = (body i (unpushed s)).map (encoderIn s') := by
  rw [← body_encoderIn hi]
  simp [encoderIn, unpushed, hle, hbp, hhi]

/-- The body of a decoder command in any state that agrees with `s` on the decoder's part (R54). -/
theorem body_of_decoder_eq {i : Instr} (hi : i.opcode ∈ ([0x18, 0x19, 0x1A] : List (BitVec 8))) {s s' : State} (hld : s.ld = s'.ld)
    (hbu : s.bu = s'.bu) (hhi : s.hi = s'.hi) : body i s' = (body i (unpushed s)).map (decoderIn s') := by
  rw [← body_decoderIn hi]
  simp [decoderIn, unpushed, hld, hbu, hhi]

/-- The body of a Huffman command in any state that agrees with `s` on the Huffman units and the error state (R54). -/
theorem body_of_huffman_eq {i : Instr} (hi : 0x30 ≤ i.opcode.toNat) {s s' : State} (hht : s.ht = s'.ht) (hhe : s.he = s'.he)
    (hhd : s.hd = s'.hd) (hhi : s.hi = s'.hi) : body i s' = (body i (unpushed s)).map (huffmanIn s') := by
  rw [← body_huffmanIn hi]
  simp [huffmanIn, unpushed, hht, hhe, hhd, hhi]

/-! ## Whole commands -/

/-- `g` puts states into one whose queue is `words`: the error state is that of the state put in, and its words come behind. -/
structure PutsBehind (words : List OutWord) (g : State → State) : Prop where
  hi : ∀ u, (g u).hi = u.hi
  out : ∀ u, (g u).out = words ++ u.out

theorem putsBehind_encoderIn (s : State) : PutsBehind s.out (encoderIn s) := ⟨fun _ => rfl, fun _ => rfl⟩

theorem putsBehind_decoderIn (s : State) : PutsBehind s.out (decoderIn s) := ⟨fun _ => rfl, fun _ => rfl⟩

theorem putsBehind_huffmanIn (s : State) : PutsBehind s.out (huffmanIn s) := ⟨fun _ => rfl, fun _ => rfl⟩

theorem PutsBehind.advance_eq {words : List OutWord} {g : State → State} (hg : PutsBehind words g) (u : State) (n : Nat) :
    (g u).advance n = { g u with cp := (g u).cp + n, hi := u.hi, out := words ++ u.out } := by
  rw [← hg.hi u, ← hg.out u]; rfl

/-- An error is recorded and its word pushed alike wherever the state is put (R111). -/
theorem PutsBehind.raise_eq {words : List OutWord} {g : State → State} (hg : PutsBehind words g) (u : State) (n : Nat)
    (e : ErrorKind) (info : BitVec 16) (opc : BitVec 8) : (raise e info opc (g u)).advance n = { g u with
      cp := (g u).cp + n, hi := (raise e info opc u).hi, out := words ++ (raise e info opc u).out } := by
  simp [State.advance, raise, State.push, hg.hi, hg.out]

/-- A command whose body in `s` and in `s'` is one body put behind their queues: it leaves the same units, records the same error
and pushes the same words (R62, R111). -/
theorem exec_next_of_body_map {i : Instr} {s s' t : State} {r : Effect} {g g' : State → State} (hg : PutsBehind s.out g)
    (hg' : PutsBehind s'.out g') (hs : body i s = r.map g) (hs' : body i s' = r.map g') (h : exec i s = .next t) :
    ∃ u cp cp' hi words, t = { g u with cp := cp, hi := hi, out := s.out ++ words } ∧
      exec i s' = .next { g' u with cp := cp', hi := hi, out := s'.out ++ words } := by
  rw [exec_eq_complete_body, hs] at h
  rw [exec_eq_complete_body, hs']
  cases r with
  | done u =>
    cases h
    exact ⟨u, _, _, _, _, hg.advance_eq u _, congrArg Host.Outcome.next (hg'.advance_eq u _)⟩
  | error e info u =>
    cases h
    exact ⟨u, _, _, _, _, hg.raise_eq u _ e info _, congrArg Host.Outcome.next (hg'.raise_eq u _ e info _)⟩
  | stop f => cases h

/-- Settles O59: in both states the body is that of the Huffman units before anything is pushed. -/
theorem huffmanIgnoresTheDictionaryUnits : Obligations.HuffmanIgnoresTheDictionaryUnits := by
  unfold Obligations.HuffmanIgnoresTheDictionaryUnits
  intro i s s' t hi hht hhe hhd hhi h
  obtain ⟨u, _, _, _, words, rfl, h'⟩ := exec_next_of_body_map (putsBehind_huffmanIn s) (putsBehind_huffmanIn s')
    (body_of_huffman_eq hi rfl rfl rfl rfl) (body_of_huffman_eq hi hht hhe hhd hhi) h
  exact ⟨_, words, h', rfl, rfl, rfl, rfl, rfl, rfl⟩

/-- Settles O60: in both states the body is that of the encoder's part, or the decoder's, before anything is pushed. -/
theorem encoderAndDecoderIgnoreEachOther : Obligations.EncoderAndDecoderIgnoreEachOther := by
  unfold Obligations.EncoderAndDecoderIgnoreEachOther
  refine ⟨fun i s s' t hi hle hbp hhi h => ?_, fun i s s' t hi hld hbu hhi h => ?_⟩
  · obtain ⟨u, _, _, _, words, rfl, h'⟩ := exec_next_of_body_map (putsBehind_encoderIn s) (putsBehind_encoderIn s')
      (body_of_encoder_eq hi rfl rfl rfl) (body_of_encoder_eq hi hle hbp hhi) h
    exact ⟨_, words, h', rfl, rfl, rfl, rfl, rfl⟩
  · obtain ⟨u, _, _, _, words, rfl, h'⟩ := exec_next_of_body_map (putsBehind_decoderIn s) (putsBehind_decoderIn s')
      (body_of_decoder_eq hi rfl rfl rfl) (body_of_decoder_eq hi hld hbu hhi) h
    exact ⟨_, words, h', rfl, rfl, rfl, rfl, rfl⟩

/-! ## The queue -/

/-- A body put behind a queue leaves that queue and more. -/
theorem PutsBehind.leaves_prefix {words : List OutWord} {g : State → State} (hg : PutsBehind words g) (r : Effect) :
    (r.map g).Leaves (fun u => words <+: u.out) := by
  have hprefix : ∀ u, words <+: (g u).out := fun u => by rw [hg.out u]; exact List.prefix_append ..
  cases r with
  | done u => exact hprefix u
  | error e info u => exact hprefix u
  | stop f => trivial

/-- No body takes a word from the queue (R49). -/
theorem body_out_prefix (i : Instr) (s : State) : (body i s).Leaves (fun u => s.out <+: u.out) := by
  have hencoder (hi : i.opcode ∈ ([0x10, 0x11] : List (BitVec 8))) : (body i s).Leaves (fun u => s.out <+: u.out) :=
    body_of_encoder_eq hi rfl rfl rfl ▸ (putsBehind_encoderIn s).leaves_prefix _
  have hdecoder (hi : i.opcode ∈ ([0x18, 0x19, 0x1A] : List (BitVec 8))) : (body i s).Leaves (fun u => s.out <+: u.out) :=
    body_of_decoder_eq hi rfl rfl rfl ▸ (putsBehind_decoderIn s).leaves_prefix _
  have hhuffman (hi : 0x30 ≤ i.opcode.toNat) : (body i s).Leaves (fun u => s.out <+: u.out) :=
    body_of_huffman_eq hi rfl rfl rfl rfl ▸ (putsBehind_huffmanIn s).leaves_prefix _
  cases i with
  | leByte | leEnd => exact hencoder (by simp [Instr.opcode])
  | ldCode | ldByte | ldEnd => exact hdecoder (by simp [Instr.opcode])
  | nop | wrctrl | clrerr | softreset | buEnd => exact List.prefix_rfl
  | rdreg | buPut =>
    simp only [body]
    split
    · exact List.prefix_rfl
    · exact List.prefix_append ..
  | bpPut c => exact List.prefix_append ..
  | bpFlush =>
    show s.out <+: (bpFlush s).out
    unfold bpFlush
    split
    · exact List.prefix_append ..
    · exact List.prefix_rfl
  | _ => exact hhuffman (by simp [Instr.opcode])

/-- Settles O13: the body takes no word from the queue, and the end of a command can only push one. -/
theorem outputOnlyGrows : Obligations.OutputOnlyGrows := by
  unfold Obligations.OutputOnlyGrows
  intro i s t h
  have hbody := body_out_prefix i s
  rw [exec_eq_complete_body] at h
  rcases complete_next h with ⟨u, hu, rfl⟩ | ⟨e, info, u, hu, rfl⟩ <;> rw [hu] at hbody
  · exact hbody
  · exact List.IsPrefix.trans hbody (List.prefix_append ..)

end Sys2Proof.Machine

/-! PROOF. The words that are commands (30_encoding.md R58 to R62): what a word of each format holds besides its opcode, the
opcode map as the spec's table of masks, and the encoding as the one way to write a command. -/

namespace Sys2Proof

/-- Settles O5: the row of the command's opcode reads every operand back from its field. -/
theorem decodeOfEncode : Obligations.DecodeOfEncode := decode_encode

/-! ## A legal first word -/

/-- The width of a format's operand area: the operand bits that are not reserved are the lowest ones (R56). -/
def Format.width : Format → Nat
  | .F0 => 0
  | .FV => 2
  | .FB => 8
  | .FR => 8
  | .FS => 8
  | .FW => 11
  | .FC => 12
  | .FN => 12

/-- The mask of R62 is every bit from the operand area up. -/
theorem Format.getElem_mask (f : Format) : ∀ k (hk : k < 32), f.mask[k] = decide (f.width ≤ k) := by
  cases f <;> decide

/-- A word that passes the mask test is its opcode above its operand area (R55, R58). -/
theorem eq_opcode_or_operands_of_reservedClear {f : Format} {w : Word} (h : reservedClear f w = true) :
    w = zext32 (opcField w) <<< 24 ||| zext32 (w.extractLsb' 0 f.width) := by
  have hmask : w &&& f.mask = zext32 (opcField w) <<< 24 := by simpa [reservedClear] using h
  ext k hk
  have hbit : (w &&& f.mask)[k] = (zext32 (opcField w) <<< 24)[k] := by rw [hmask]
  by_cases hop : k < f.width
  · have hwidth : f.width ≤ 24 := by cases f <;> decide
    have hlow : k < 24 := by omega
    simp [zext32, hop, hlow, BitVec.getLsbD_eq_getElem hk]
  · simp only [BitVec.getElem_and, f.getElem_mask k hk, Nat.not_lt.mp hop, decide_true, Bool.and_true] at hbit
    simp [hbit, zext32, hop]

/-- The command that a row builds holds exactly the operand area of its word (R56, R57). -/
theorem operands_build_of_opRow {opc : BitVec 8} {row : OpRow} (h : opRow opc = some row) (w w2 : Word) :
    (row.build w w2).operands = zext32 (w.extractLsb' 0 row.format.width) := by
  have hbits : bitsField w ++ byteField w = w.extractLsb' 0 12 := BitVec.extractLsb'_append_extractLsb'_eq_extractLsb' rfl
  have hselect : selectField w ++ byteField w = w.extractLsb' 0 11 := BitVec.extractLsb'_append_extractLsb'_eq_extractLsb' rfl
  unfold opRow at h
  split at h
  case h_26 => cases h
  case h_21 => cases h; exact (zext32_shiftLeft_or _ _).trans (congrArg zext32 hbits)
  case h_25 => cases h; exact (zext32_shiftLeft_or _ _).trans (congrArg zext32 hselect)
  all_goals cases h; simp [Instr.operands, Format.width, byteField, codeField, valueField, zext32]

/-- A legal word is the first word of the command that its row builds (R55, R62). -/
theorem word_build_of_reservedClear {w : Word} {row : OpRow} (h : opRow (opcField w) = some row)
    (hclear : reservedClear row.format w = true) (w2 : Word) : (row.build w w2).word = w := by
  rw [Instr.word, opRow_build_opcode h, operands_build_of_opRow h, ← eq_opcode_or_operands_of_reservedClear hclear]

/-- Every command but `HF.SETFREQ` is one word (R61). -/
theorem encode_of_opcode_ne {i : Instr} (h : i.opcode ≠ 0x32#8) : encode i = [i.word] := by
  cases i with
  | hfSetfreq => exact absurd rfl h
  | _ => rfl

/-- A one-word command decodes from its own encoding only (R62). -/
theorem encode_build_of_reservedClear {w : Word} {row : OpRow} (h : opRow (opcField w) = some row) (hop : opcField w ≠ 0x32#8)
    (hclear : reservedClear row.format w = true) : encode (row.build w 0) = [w] := by
  rw [encode_of_opcode_ne (by rwa [opRow_build_opcode h]), word_build_of_reservedClear h hclear]

/-- `HF.SETFREQ` decodes from its own encoding only (R61, R62). -/
theorem encode_hfSetfreq_of_reservedClear {w : Word} (w2 : Word) (hop : opcField w = 0x32#8) (hclear : reservedClear .FS w = true) :
    encode (.hfSetfreq (byteField w) w2) = [w, w2] := by
  have hrow : opRow (opcField w) = some ⟨.FS, fun w w2 => .hfSetfreq (byteField w) w2⟩ := by rw [hop]; rfl
  exact congrArg (fun first => [first, w2]) (word_build_of_reservedClear hrow hclear w2)

/-- Settles O6: a stream decodes to a command only at a row whose mask test its first word passes, and that word is then the
command's. -/
theorem encodeOfDecode : Obligations.EncodeOfDecode := by
  unfold Obligations.EncodeOfDecode
  intro ws i rest h
  cases ws with
  | nil => cases h
  | cons w ws =>
    by_cases hop : opcField w = 0x32#8
    · cases ws with
      | nil => rw [decode_setfreq_waits hop] at h; cases h
      | cons w2 ws =>
        rw [decode_setfreq w2 ws hop] at h
        split at h
        · next hclear => cases h; rw [encode_hfSetfreq_of_reservedClear w2 hop hclear]; rfl
        · cases h
    · cases hrow : opRow (opcField w) with
      | none => rw [decode_unassigned ws hrow] at h; cases h
      | some row =>
        rw [decode_one ws hrow (fun hf => hop ((opRow_format_FS _ _ hrow).mp hf))] at h
        split at h
        · next hclear => cases h; rw [encode_build_of_reservedClear hrow hop hclear]; rfl
        · cases h

/-! ## The opcode map as a table -/

/-- The opcode of every command is in the table (R59). -/
theorem opcode_mem_specRows (i : Instr) : i.opcode ∈ specRows.map Prod.fst := by cases i <;> simp [specRows, Instr.opcode]

/-- An opcode that is not in the table is unassigned: no row of the map builds a command of it (R60). -/
theorem opRow_eq_none_of_notMem_specRows {opc : BitVec 8} (h : opc ∉ specRows.map Prod.fst) : opRow opc = none := by
  cases hrow : opRow opc with
  | none => rfl
  | some row => exact absurd (opRow_build_opcode hrow 0 0 ▸ opcode_mem_specRows _) h

/-- Each row of the table is a row of the map, with its format's mask (R59, R62). -/
theorem exists_opRow_of_mem_specRows {opc : BitVec 8} {mask : Word} (h : (opc, mask) ∈ specRows) :
    ∃ row, opRow opc = some row ∧ row.format.mask = mask := by
  have key : specRows.all (fun p => (opRow p.1).map (fun row => row.format.mask) == some p.2) = true := by decide
  have hrow : (opRow opc).map (fun row => row.format.mask) = some mask := by simpa using List.all_eq_true.mp key _ h
  exact Option.map_eq_some_iff.mp hrow

/-- The mask test of R62 with `match` as a number. -/
theorem reservedClear_iff (f : Format) (w : Word) :
    reservedClear f w = true ↔ w &&& f.mask = BitVec.ofNat 32 ((opcField w).toNat * 2 ^ 24) := by
  have hmatch : zext32 (opcField w) <<< 24 = BitVec.ofNat 32 ((opcField w).toNat * 2 ^ 24) := by
    apply BitVec.eq_of_toNat_eq
    simp [zext32, Nat.shiftLeft_eq]
  rw [reservedClear, hmatch, beq_iff_eq]

/-- A one-word row of the table: the mask test decides between a command of that opcode and an illegal word (R62). -/
theorem decode_of_mem_specRows {w mask : Word} (ws : List Word) (hmem : (opcField w, mask) ∈ specRows) (hop : opcField w ≠ 0x32) :
    ∃ i, i.opcode = opcField w ∧ decode (w :: ws) =
      if w &&& mask = BitVec.ofNat 32 ((opcField w).toNat * 2 ^ 24) then .instr i ws
      else .illegal .reservedBits (opcField w) ws := by
  obtain ⟨row, hrow, rfl⟩ := exists_opRow_of_mem_specRows hmem
  refine ⟨row.build w 0, opRow_build_opcode hrow w 0, ?_⟩
  rw [decode_one ws hrow (fun hf => hop ((opRow_format_FS _ _ hrow).mp hf))]
  simp only [reservedClear_iff]

/-- The row of `HF.SETFREQ`: the mask test on its first word decides, once the second is there (R61, R62). -/
theorem decode_setfreq_of_mem_specRows {w mask : Word} (w2 : Word) (ws : List Word) (hmem : (opcField w, mask) ∈ specRows)
    (hop : opcField w = 0x32) : decode (w :: w2 :: ws) =
      if w &&& mask = BitVec.ofNat 32 ((opcField w).toNat * 2 ^ 24) then .instr (.hfSetfreq (byteField w) w2) ws
      else .illegal .reservedBits 0x32 ws := by
  obtain ⟨row, hrow, rfl⟩ := exists_opRow_of_mem_specRows hmem
  rw [decode_setfreq w2 ws hop, (opRow_format_FS _ _ hrow).mpr hop]
  simp only [reservedClear_iff]

/-- Settles O8: a word is of no row of the table, or of one whose mask test decides. -/
theorem decodeIsTotalAndNamed : Obligations.DecodeIsTotalAndNamed := by
  unfold Obligations.DecodeIsTotalAndNamed
  refine ⟨decode_nil, fun w ws hopc => decode_unassigned ws (opRow_eq_none_of_notMem_specRows hopc),
    fun w w2 ws mask hmem hbits => ⟨fun hop => ?_, fun hop => ⟨?_, decode_setfreq_waits hop⟩⟩,
    fun w w2 ws mask hmem hbits => ⟨fun hop => ?_, fun hop => ⟨?_, decode_setfreq_waits hop⟩⟩⟩
  · obtain ⟨i, -, hdecode⟩ := decode_of_mem_specRows ws hmem hop
    rw [hdecode, if_neg hbits]
  · rw [decode_setfreq_of_mem_specRows w2 ws hmem hop, if_neg hbits]
  · obtain ⟨i, hopc, hdecode⟩ := decode_of_mem_specRows ws hmem hop
    exact ⟨i, by rw [hdecode, if_pos hbits], hopc⟩
  · rw [decode_setfreq_of_mem_specRows w2 ws hmem hop, if_pos hbits]

end Sys2Proof

/-! PROOF. Words and fields that are illegal (30_encoding.md R58, R60, R62; 60_exceptions.md R110): `E_ILLEGAL` is raised for them
and by nothing else, and it changes only the error state and the queue. -/

namespace Sys2Proof.Machine

/-- A step on an illegal word consumes it, latches its error and pushes the error's word, and does nothing else (R58, R60, R111). -/
theorem step_of_decode_illegal {s : State} {why : IllegalWord} {opc : BitVec 8} {rest : List Word}
    (h : decode s.cmds = .illegal why opc rest) : step s = .next { s with
      cmds := rest
      cp := s.cp + wordsOf opc
      hi := s.hi.record (errorWord .illegal why.info opc)
      out := s.out ++ [⟨.err, errorWord .illegal why.info opc⟩] } := by
  simp only [step, h]; rfl

/-- Every opcode but that of `HF.SETFREQ` is of one word (R61). -/
theorem wordsOf_of_ne {opc : BitVec 8} (h : opc ≠ 0x32) : wordsOf opc = 1 := if_neg h

/-- Settles O10: the opcode map or the mask test names the word illegal, and `0x32` alone takes two words. -/
theorem stepRejectsIllegalWords : Obligations.StepRejectsIllegalWords := by
  unfold Obligations.StepRejectsIllegalWords
  refine fun s w ws => ⟨fun hcmds hopc => ?_, fun mask hcmds hmem hop hbits => ?_, fun w2 hcmds hop hbits => ?_⟩
  · have hone : opcField w ≠ 0x32 := fun hop => hopc (hop ▸ by decide)
    have hword := errorWord_eq .illegal IllegalWord.unassignedOpcode.info (opcField w)
      ((opcField w).toNat * 2 ^ 8 + 1) (by simp [IllegalWord.info, ErrorKind.code])
    have hdecode := decode_unassigned ws (opRow_eq_none_of_notMem_specRows hopc)
    rw [step_of_decode_illegal (hcmds ▸ hdecode), wordsOf_of_ne hone, hword]
  · have hword := errorWord_eq .illegal IllegalWord.reservedBits.info (opcField w)
      (2 ^ 16 + (opcField w).toNat * 2 ^ 8 + 1) rfl
    obtain ⟨i, -, hdecode⟩ := decode_of_mem_specRows ws hmem hop
    rw [if_neg hbits] at hdecode
    rw [step_of_decode_illegal (hcmds ▸ hdecode), wordsOf_of_ne hop, hword]
  · have hdecode := decode_setfreq_of_mem_specRows w2 ws (mask := 0xFFFFFF00) (hop ▸ by decide) hop
    rw [if_neg (by rw [hop]; exact hbits)] at hdecode
    exact step_of_decode_illegal (hcmds ▸ hdecode)

/-! ## Fields out of range (R62, U6) -/

/-- The register numbers without a value are those past the last assigned one (R26). -/
theorem regValue_eq_none_iff (r : BitVec 8) (s : State) : regValue r s = none ↔ 0x11 < r.toNat := by
  unfold regValue
  split
  case h_19 => simp only [imp_false, true_iff] at *; omega
  all_goals simp only [reduceCtorEq, false_iff]; omega

/-- A field out of range raises before the command does anything (R62, R112). -/
theorem body_of_not_wf {i : Instr} (h : i.wf = false) (s : State) : body i s = .error .illegal 2 s := by
  cases i with
  | rdreg r =>
    have hr : 0x11 < r.toNat := by simpa [Instr.wf, registerAssigned] using h
    simp only [body, (regValue_eq_none_iff r s).mpr hr]
  | hfDecbits n b =>
    have hn : 8 < n.toNat := by simpa [Instr.wf, bitCountLegal] using h
    exact if_pos hn
  | _ => cases h

/-- The commands with a range check are one word long (R56). -/
theorem length_of_not_wf {i : Instr} (h : i.wf = false) : i.length = 1 := by
  cases i with
  | rdreg | hfDecbits => rfl
  | _ => cases h

/-! ## The error words a body leaves in the queue -/

/-- The error words of a queue (R63). -/
def errWords (words : List OutWord) : List OutWord := words.filter (fun o => o.tag = .err)

@[simp] theorem errWords_append (xs ys : List OutWord) : errWords (xs ++ ys) = errWords xs ++ errWords ys := List.filter_append ..

@[simp] theorem errWords_nil : errWords [] = [] := rfl

@[simp] theorem errWords_cons_of_ne {t : Tag} (h : t ≠ .err) (d : Word) (words : List OutWord) :
    errWords (⟨t, d⟩ :: words) = errWords words := by simp [errWords, h]

@[simp] theorem errWords_bytes {t : Tag} (h : t ≠ .err) (bytes : List Byte) :
    errWords (bytes.map (fun b => ⟨t, zext32 b⟩)) = [] := by simp [errWords, List.filter_map, Function.comp_def, h]

/-- A queue that grew by no error word grew by other words (R49, R63). -/
theorem exists_append_of_errWords_eq {before after : List OutWord} (hgrows : before <+: after)
    (hsame : errWords after = errWords before) : ∃ ws, after = before ++ ws ∧ ∀ o ∈ ws, o.tag ≠ .err := by
  obtain ⟨ws, rfl⟩ := hgrows
  have hnil : errWords ws = [] := by simpa using hsame
  exact ⟨ws, rfl, by simpa [errWords, List.filter_eq_nil_iff] using hnil⟩

/-- A body ends with the error words `words` in the queue, as an illegal command does not: what it raises, if anything, is not
`E_ILLEGAL`. -/
def Effect.LegalEnd (words : List OutWord) (r : Effect) : Prop :=
  match r with
  | .done u => errWords u.out = words
  | .error e _ u => e ≠ .illegal ∧ errWords u.out = words
  | .stop _ => True

/-- Two parts in a row end so if both do. -/
theorem Effect.LegalEnd.bind {words : List OutWord} {r : Effect} {f : State → Effect} (h : r.LegalEnd words)
    (hf : ∀ u, errWords u.out = words → (f u).LegalEnd words) : (r.bind f).LegalEnd words := by
  cases r with
  | done u => exact hf u h
  | error e info u => exact h
  | stop flt => trivial

/-! ## Operations push no error word -/

@[simp] theorem errWords_bpPut (c : Code) (s : State) : errWords (bpPut c s).out = errWords s.out := by simp [bpPut]

@[simp] theorem errWords_bpFlush (s : State) : errWords (bpFlush s).out = errWords s.out := by
  unfold bpFlush; split <;> simp

@[simp] theorem errWords_emitCode (c : Code) (s : State) : errWords (emitCode c s).out = errWords s.out := by
  cases hraw : s.hi.leRaw with
  | true => simp [emitCode_raw c s hraw]
  | false => simp [emitCode_packed c s hraw]

theorem errWords_leByte (b : Byte) (s : State) : errWords (leByte b s).out = errWords s.out := by
  rcases leByte_cases b s with ⟨-, h⟩ | ⟨k, -, -, h⟩ | ⟨-, -, h⟩ <;> rw [h]
  exact errWords_emitCode _ s

theorem errWords_leEnd (s : State) : errWords (leEnd s).out = errWords s.out := by
  have hdrain : errWords (leDrain s).out = errWords s.out := by
    unfold leDrain
    dsimp only
    split_ifs <;> simp
  simp [leEnd_eq, hdrain]

theorem errWords_heBit (s : State) (bit : Bool) : errWords (heBit s bit).out = errWords s.out := by
  rcases heBit_cases s bit with ⟨-, h⟩ | ⟨-, h⟩ <;> simp [h]

theorem errWords_heBits (bits : List Bool) (s : State) : errWords (bits.foldl heBit s).out = errWords s.out := by
  induction bits generalizing s with
  | nil => rfl
  | cons bit bits ih => rw [List.foldl_cons, ih, errWords_heBit]

theorem errWords_hfEncend (s : State) : errWords (hfEncend s).out = errWords s.out := by
  unfold hfEncend; dsimp only; split <;> simp

theorem errWords_hdMove (child : NodeIdx) (s : State) : errWords (hdMove child s).out = errWords s.out := by
  unfold hdMove; split <;> simp

/-! ## Bodies of well-formed commands -/

/-- Accepting a code raises nothing and pushes decoded bytes (R74, R75). -/
theorem ldAccept_legalEnd (c : Code) (s : State) : (ldAccept c s).LegalEnd (errWords s.out) := by
  unfold ldAccept
  rcases outputString_cases c s with ⟨-, h⟩ | ⟨bytes, -, h⟩ <;> rw [h]
  · trivial
  · simp [Effect.LegalEnd, ldSetPrev]

/-- `ld_step` raises `E_DECODE` only (R74). -/
theorem ldStep_legalEnd (c : Code) (s : State) : (ldStep c s).LegalEnd (errWords s.out) := by
  rcases ldStep_cases c s with h | ⟨-, h⟩ | ⟨f, -, -, h⟩ <;> rw [h]
  · exact ⟨nofun, rfl⟩
  · exact ldAccept_legalEnd c s
  · exact ldAccept_legalEnd c { s with ld := ldInsert f s.ld }

/-- `HF.ENC` raises `E_NOTREE`, `E_NOCODE` or `E_OVERFLOW` only (R98). -/
theorem hfEnc_legalEnd (b : Byte) (s : State) : (hfEnc b s).LegalEnd (errWords s.out) := by
  unfold hfEnc
  dsimp only
  split_ifs
  · exact ⟨nofun, rfl⟩
  · exact ⟨nofun, rfl⟩
  · exact ⟨nofun, rfl⟩
  · exact errWords_heBits _ s

/-- One bit into the traversal engine raises `E_MALFORMED` only (R100). -/
theorem hdBit_legalEnd (bit : Bool) (s : State) : (hdBit bit s).LegalEnd (errWords s.out) := by
  rcases hdBit_cases bit s with ⟨-, h⟩ | ⟨i, -, -, h⟩ | ⟨i, e, -, -, -, h⟩ | ⟨i, e, child, -, -, -, h⟩ <;> rw [h]
  · exact ⟨nofun, rfl⟩
  · trivial
  · exact ⟨nofun, rfl⟩
  · exact errWords_hdMove child s

/-- A string of bits into the traversal engine raises `E_MALFORMED` only (R100). -/
theorem hdBits_legalEnd (bits : List Bool) (s : State) : (hdBits bits s).LegalEnd (errWords s.out) := by
  induction bits generalizing s with
  | nil => rfl
  | cons bit bits ih => exact (hdBit_legalEnd bit s).bind fun u hu => hu ▸ ih u

/-- `HF.DECBITS` with a bit count in range raises `E_NOTREE` or `E_MALFORMED` only (R100). -/
theorem hfDecbits_legalEnd {n : BitVec 4} (hn : n.toNat ≤ 8) (b : Byte) (s : State) :
    (hfDecbits n b s).LegalEnd (errWords s.out) := by
  rw [hfDecbits, if_neg (Nat.not_lt.mpr hn)]
  split_ifs
  · exact ⟨nofun, rfl⟩
  · exact hdBits_legalEnd _ s

/-- `HF.DECEND` raises `E_MALFORMED` only (R101). -/
theorem hfDecend_legalEnd (s : State) : (hfDecend s).LegalEnd (errWords s.out) := by
  unfold hfDecend
  split_ifs
  · simp [Effect.LegalEnd]
  · exact ⟨nofun, rfl⟩

/-- The body of a command whose fields are in range pushes no error word and does not raise `E_ILLEGAL` (R62, R110). -/
theorem body_legalEnd {i : Instr} (h : i.wf = true) (s : State) : (body i s).LegalEnd (errWords s.out) := by
  cases i with
  | nop | wrctrl | clrerr | softreset | buEnd | hfClear | hfSetfreq | hfBuild => rfl
  | ldEnd | hfRdfreq => simp [body, Effect.LegalEnd, ldEnd]
  | rdreg r =>
    have hr : ¬ 0x11 < r.toNat := by simpa [Instr.wf, registerAssigned] using h
    simp only [body]
    split
    · next hnone => exact absurd ((regValue_eq_none_iff r s).mp hnone) hr
    · simp [Effect.LegalEnd]
  | leByte b => exact errWords_leByte b s
  | leEnd => exact errWords_leEnd s
  | ldCode c => exact ldStep_legalEnd c s
  | ldByte b =>
    simp only [body]
    split
    · rfl
    · exact ldStep_legalEnd _ _
  | bpPut c => exact errWords_bpPut c s
  | bpFlush => exact errWords_bpFlush s
  | buPut b => simp only [body]; split <;> simp [Effect.LegalEnd]
  | hfCount b =>
    simp only [body]
    split
    · exact ⟨nofun, rfl⟩
    · rfl
  | hfEnc b => exact hfEnc_legalEnd b s
  | hfEncend => exact errWords_hfEncend s
  | hfDecbits n b => exact hfDecbits_legalEnd (by simpa [Instr.wf, bitCountLegal] using h) b s
  | hfDecend => exact hfDecend_legalEnd s
  | hfRdlen | hfRdcode =>
    simp only [body]
    split
    · simp [Effect.LegalEnd]
    · exact ⟨nofun, rfl⟩

/-! ## The code of an error word -/

/-- The error word carries the error's code in its lowest byte (R111). -/
theorem extractLsb'_errorWord (e : ErrorKind) (info : BitVec 16) (opc : BitVec 8) :
    (errorWord e info opc).extractLsb' 0 8 = e.code := by
  have hcode := e.code.isLt
  apply BitVec.eq_of_toNat_eq
  simp [errorWord]
  omega

theorem ErrorKind.code_eq_one_iff (e : ErrorKind) : e.code = 1 ↔ e = .illegal := by cases e <;> decide

/-- Settles O22: a field out of range raises at once; any other body ends without `E_ILLEGAL`, and the end of the command pushes at
most the word of what was raised. -/
theorem illFormedCommandsAreIllegal : Obligations.IllFormedCommandsAreIllegal := by
  unfold Obligations.IllFormedCommandsAreIllegal
  refine fun i s => ⟨fun hwf => ?_, fun hwf t h => ?_⟩
  · have hword := errorWord_eq .illegal 2 i.opcode (2 * 2 ^ 16 + i.opcode.toNat * 2 ^ 8 + 1) rfl
    rw [exec_eq_complete_body, body_of_not_wf hwf, complete_error, length_of_not_wf hwf, ← hword]
    rfl
  · have hlegal := body_legalEnd hwf s
    have hgrows := body_out_prefix i s
    rw [exec_eq_complete_body] at h
    rcases complete_next h with ⟨u, hu, rfl⟩ | ⟨e, info, u, hu, rfl⟩ <;> rw [hu] at hlegal hgrows
    · obtain ⟨ws, hws, hnone⟩ := exists_append_of_errWords_eq hgrows hlegal
      exact ⟨ws, hws, fun o ho htag => absurd htag (hnone o ho)⟩
    · obtain ⟨hkind, hsame⟩ := hlegal
      obtain ⟨ws, hws, hnone⟩ := exists_append_of_errWords_eq hgrows hsame
      refine ⟨ws ++ [⟨.err, errorWord e info i.opcode⟩], by simp [hws], fun o ho htag => ?_⟩
      rcases List.mem_append.mp ho with ho | ho
      · exact absurd htag (hnone o ho)
      · rw [List.mem_singleton.mp ho, extractLsb'_errorWord]
        exact mt e.code_eq_one_iff.mp hkind

end Sys2Proof.Machine

/-! PROOF. One byte or the end of a call at the encoder (40_lzw_encoder.md R70 to R72): the cases that the statements about `LE.BYTE`
and `LE.END` name. -/

namespace Sys2Proof.Machine

/-! ## The encoder's lookup and insertion (R43, R70) -/

/-- A key that an entry holds is found at that entry, for no other holds it (R38, R43). -/
theorem LeInv.camFind_of_entry {u : LeUnit} (h : LeInv u) {key : LeEntry} {k : Nat} (hlo : 256 ≤ k) (hhi : k < u.next.toNat)
    (hkey : u.entry k = key) : camFind u key 256 u.next.toNat = some (BitVec.ofNat 12 k) := by
  cases hfind : camFind u key 256 u.next.toNat with
  | none => exact absurd hkey (camFind_none.mp hfind k hlo hhi)
  | some c =>
    obtain ⟨j, hjlo, hjhi, hj, rfl⟩ := camFind_some hfind
    rcases Nat.lt_trichotomy j k with hlt | rfl | hgt
    · exact absurd (hj.trans hkey.symm) (h.distinct j k hjlo hlt hhi)
    · rfl
    · exact absurd (hkey.trans hj.symm) (h.distinct k j hlo hgt hjhi)

/-- While the dictionary has room an insertion moves the next code (R70). -/
theorem leInsert_next {u : LeUnit} (e : LeEntry) (hroom : u.next.toNat < 4096) :
    (leInsert e u).next.toNat = u.next.toNat + 1 := by
  rw [show leInsert e u = _ from if_pos hroom]; exact toNat_next_succ hroom

/-- A full dictionary takes no entry (R70). -/
theorem leInsert_of_full {u : LeUnit} (e : LeEntry) (hfull : 4096 ≤ u.next.toNat) : leInsert e u = u :=
  if_neg (Nat.not_lt.mpr hfull)

@[simp] theorem leInsert_ncodes (e : LeEntry) (u : LeUnit) : (leInsert e u).ncodes = u.ncodes := by
  unfold leInsert; split <;> rfl

/-! ## The commands -/

theorem exec_leByte (b : Byte) (s : State) : exec (.leByte b) s = .next ((leByte b s).advance 1) := rfl

theorem exec_leEnd (s : State) : exec .leEnd s = .next ((leEnd s).advance 1) := rfl

/-- Settles O24: the first byte restarts the accumulator, and the lookup finds the one entry that is the key. -/
theorem leByteAccumulates : Obligations.LeByteAccumulates := by
  unfold Obligations.LeByteAccumulates
  refine fun b s => ⟨fun hv => ?_, fun k hinv hv hlo hhi hkey => ?_⟩
  · rw [exec_leByte]
    simp [leByte, hv, leRestart, State.advance]
  · have hfind := hinv.camFind_of_entry hlo hhi hkey
    rw [exec_leByte]
    simp [leByte, hv, hfind, Config.nsym, State.advance]

/-- A byte that extends no known string emits the accumulator, inserts the key and restarts (R70). -/
theorem leByte_of_miss {b : Byte} {s : State} (hv : s.le.curValid = true)
    (hmiss : ∀ k, 256 ≤ k → k < s.le.next.toNat → s.le.entry k ≠ ⟨s.le.cur, b⟩) :
    leByte b s = { emitCode s.le.cur s with
      le := leRestart b (leInsert ⟨s.le.cur, b⟩ { s.le with ncodes := s.le.ncodes + 1 }) } := by
  have hfind := camFind_none.mpr hmiss
  rcases leByte_cases b s with ⟨hnew, -⟩ | ⟨c, -, hhit, -⟩ | ⟨-, -, heq⟩
  · exact absurd (hv.symm.trans hnew) (by decide)
  · exact absurd (hfind.symm.trans hhit) (by simp)
  · exact heq

/-- Settles O25: emitting writes the packer or the queue, and the insertion the entry at the next code. -/
theorem leByteMissEmitsAndInserts : Obligations.LeByteMissEmitsAndInserts := by
  unfold Obligations.LeByteMissEmitsAndInserts
  intro b s hv hmiss
  refine ⟨_, exec_leByte b s, ?_⟩
  rw [leByte_of_miss hv hmiss]
  refine ⟨?_, rfl, by simp [leRestart], by simp [leRestart], fun hroom => ⟨leInsert_next _ hroom, fun j => ?_⟩, fun hfull => ?_,
    fun hraw => ?_, fun hpacked => ⟨_, rfl, ?_⟩⟩
  · rw [emitCode_frame]; rfl
  · exact (leInsert_entry ⟨s.le.cur, b⟩ { s.le with ncodes := s.le.ncodes + 1 } j).trans (by simp [hroom, LeUnit.entry])
  · rw [leInsert_of_full (u := { s.le with ncodes := s.le.ncodes + 1 }) _ hfull]; exact ⟨rfl, rfl⟩
  · rw [emitCode_raw _ _ hraw]; simp [zext32_eq]
  · rw [emitCode_packed _ _ hpacked]; exact ⟨rfl, rfl⟩

@[simp] theorem bpFlush_le (s : State) : (bpFlush s).le = s.le := by rw [bpFlush_frame]

/-- Flushing reads the packer alone (R81). -/
theorem bpFlush_with_le (s : State) (le : LeUnit) : bpFlush { s with le := le } = { bpFlush s with le := le } := by
  unfold bpFlush; split <;> rfl

/-- Flushing does not read the command pointer (R81). -/
theorem bpFlush_advance (s : State) (n : Nat) : bpFlush (s.advance n) = (bpFlush s).advance n := by
  by_cases h : 0 < s.bp.n.toNat <;> simp [bpFlush, h, State.advance, State.push]

/-- In raw mode the end of a call emits the accumulator, if there is one (R72). -/
theorem leDrain_raw {s : State} (hraw : s.hi.leRaw = true) :
    leDrain s = if s.le.curValid then emitCode s.le.cur s else s := by simp [leDrain, hraw]

/-- In packed mode it then flushes the packer (R72). -/
theorem leDrain_packed {s : State} (hpacked : s.hi.leRaw = false) :
    leDrain s = bpFlush (if s.le.curValid then emitCode s.le.cur s else s) := by simp [leDrain, hpacked]

/-- Settles O26: the accumulator is emitted as `LE.BYTE` emits it, and only the dictionary is left of LE. -/
theorem leEndFlushesAndReports : Obligations.LeEndFlushesAndReports := by
  unfold Obligations.LeEndFlushesAndReports
  refine fun s => ⟨_, exec_leEnd s, ?_, fun hraw => ?_, fun hraw hv => ?_, fun hraw hv => ?_, fun hpacked hv => ?_,
    fun hpacked hv => ?_⟩
  · rw [leEnd_eq, leDrain_frame]
    simp [LeUnit.refresh, leDrain_dict, State.advance, State.push]
  · exact leEnd_bp_of_raw hraw
  · rw [leEnd_eq]
    simp [hv, leDrain_raw hraw, emitCode_raw _ _ hraw, zext32_eq]
  · rw [leEnd_eq]
    simp [hv, leDrain_raw hraw]
  · refine ⟨((bpFlush (bpPut s.le.cur s)).advance 1).advance 1, ?_, ?_⟩
    · rw [← bpFlush_advance]; rfl
    · rw [leEnd_eq, leDrain_packed hpacked, if_pos hv, emitCode_packed _ _ hpacked, bpFlush_with_le]
      exact ⟨rfl, rfl⟩
  · rw [leEnd_eq]
    exact ⟨_, rfl, by simp [hv, leDrain_packed hpacked], by simp [hv, leDrain_packed hpacked]⟩

end Sys2Proof.Machine

/-! PROOF. A whole encode call (40_lzw_encoder.md R68, R69): the encoder's dictionary holds the strings that `LZW_encode` has learned,
each byte takes one round of its loop, and what is emitted is what the call owes. -/

namespace Sys2Proof.Machine

/-! ## The strings learned (R68) -/

/-- What is so of the strings that a dictionary has learned: none is a singleton or empty, none is learned twice, and their codes
have 12 bits (R38, R68). -/
structure Learned (learned : List (List Byte)) : Prop where
  long : ∀ t ∈ learned, 2 ≤ t.length
  nodup : learned.Nodup
  room : learned.length ≤ 3840

theorem Learned.nil : Learned [] := ⟨by simp, List.nodup_nil, by simp⟩

theorem codeOfString_singleton (learned : List (List Byte)) (b : Byte) : codeOfString learned [b] = some b.toNat := rfl

/-- The code of a string of two bytes or more is found by its place (R68). -/
theorem codeOfString_long (learned : List (List Byte)) {t : List Byte} (ht : 2 ≤ t.length) :
    codeOfString learned t = (learned.findIdx? (fun u => u == t)).map (fun j => 256 + j) := by
  match t, ht with
  | _ :: _ :: _, _ => rfl

/-- A string of two bytes or more is a key where it is learned (R68). -/
theorem codeOfString_eq_none_iff {learned : List (List Byte)} {t : List Byte} (ht : 2 ≤ t.length) :
    codeOfString learned t = none ↔ t ∉ learned := by
  rw [codeOfString_long learned ht, Option.map_eq_none_iff, List.findIdx?_eq_none_iff]
  simp only [beq_eq_false_iff_ne]
  exact ⟨fun h hmem => h t hmem rfl, fun h u hu heq => h (heq ▸ hu)⟩

theorem stringOfCode_singleton (learned : List (List Byte)) {c : Code} (hc : c.toNat < 256) :
    stringOfCode learned c = some [c.setWidth 8] := if_pos hc

theorem stringOfCode_entry (learned : List (List Byte)) {c : Code} (hc : 256 ≤ c.toNat) :
    stringOfCode learned c = learned[c.toNat - 256]? := if_neg (Nat.not_lt.mpr hc)

/-- A byte is the string of its own code (R68). -/
theorem stringOfCode_setWidth (learned : List (List Byte)) (b : Byte) : stringOfCode learned (b.setWidth 12) = some [b] := by
  have hb := b.isLt
  have hcode : (b.setWidth 12).toNat = b.toNat := BitVec.toNat_setWidth_of_le (by decide)
  rw [stringOfCode_singleton learned (by omega)]
  simp [BitVec.setWidth_setWidth_of_le]

/-- A code that names a string is that string's code (R68, R74). -/
theorem Learned.codeOfString_of_stringOfCode {learned : List (List Byte)} (h : Learned learned) {c : Code} {t : List Byte}
    (hc : stringOfCode learned c = some t) : codeOfString learned t = some c.toNat := by
  rcases Nat.lt_or_ge c.toNat 256 with hsingle | hentry
  · rw [stringOfCode_singleton learned hsingle] at hc
    obtain rfl := Option.some.inj hc
    rw [codeOfString_singleton, BitVec.toNat_setWidth, Nat.mod_eq_of_lt hsingle]
  · rw [stringOfCode_entry learned hentry] at hc
    obtain ⟨hj, rfl⟩ := List.getElem?_eq_some_iff.mp hc
    have hfind : learned.findIdx? (fun u => u == learned[c.toNat - 256]) = some (c.toNat - 256) := by
      refine List.findIdx?_eq_some_iff_getElem.mpr ⟨hj, by simp, fun j hlt heq => ?_⟩
      have hsame := (h.nodup.getElem_inj_iff).mp (beq_iff_eq.mp heq)
      omega
    rw [codeOfString_long learned (h.long _ (List.getElem_mem hj)), hfind, Option.map_some, Nat.add_sub_cancel' hentry]

/-- Two codes that name one string are equal (R38). -/
theorem Learned.code_inj {learned : List (List Byte)} (h : Learned learned) {c d : Code} {t : List Byte}
    (hc : stringOfCode learned c = some t) (hd : stringOfCode learned d = some t) : c = d := by
  have hsame := (h.codeOfString_of_stringOfCode hc).symm.trans (h.codeOfString_of_stringOfCode hd)
  exact BitVec.eq_of_toNat_eq (Option.some.inj hsame)

/-- No code names the empty string. -/
theorem Learned.length_pos {learned : List (List Byte)} (h : Learned learned) {c : Code} {t : List Byte}
    (hc : stringOfCode learned c = some t) : 0 < t.length := by
  rcases Nat.lt_or_ge c.toNat 256 with hsingle | hentry
  · rw [stringOfCode_singleton learned hsingle] at hc
    simp [← Option.some.inj hc]
  · rw [stringOfCode_entry learned hentry] at hc
    exact Nat.lt_of_lt_of_le Nat.two_pos (h.long t (List.mem_of_getElem? hc))

theorem learn_of_room {learned : List (List Byte)} (t : List Byte) (hroom : learned.length < 3840) :
    learn learned t = learned ++ [t] := if_pos (by simp only [Config.nsym, Config.dictCap]; omega)

theorem learn_of_full {learned : List (List Byte)} (t : List Byte) (hfull : 3840 ≤ learned.length) :
    learn learned t = learned := if_neg (by simp only [Config.nsym, Config.dictCap]; omega)

/-- Learning a string that is no key keeps the learned strings distinct (R68). -/
theorem Learned.learn {learned : List (List Byte)} (h : Learned learned) {t : List Byte} (ht : 2 ≤ t.length) (hnew : t ∉ learned) :
    Learned (learn learned t) := by
  rcases Nat.lt_or_ge learned.length 3840 with hroom | hfull
  · rw [learn_of_room t hroom]
    refine ⟨fun u hu => ?_, h.nodup.append (List.nodup_singleton t) (by simpa using hnew), by simp; omega⟩
    rcases List.mem_append.mp hu with hold | hlast
    · exact h.long u hold
    · rwa [List.mem_singleton.mp hlast]
  · rwa [learn_of_full t hfull]

/-- A code keeps its string when another is learned (R68, R74). -/
theorem stringOfCode_learn {learned : List (List Byte)} {c : Code} {t : List Byte} (x : List Byte)
    (hc : stringOfCode learned c = some t) : stringOfCode (learn learned x) c = some t := by
  rcases Nat.lt_or_ge c.toNat 256 with hsingle | hentry
  · rwa [stringOfCode_singleton _ hsingle] at hc ⊢
  · rw [stringOfCode_entry _ hentry] at hc ⊢
    unfold Machine.learn
    split
    · obtain ⟨hj, -⟩ := List.getElem?_eq_some_iff.mp hc
      rwa [List.getElem?_append_left hj]
    · exact hc

/-! ## The encoder's dictionary holds them -/

/-- The entries of LE below its next code are the strings learned: entry `256 + j` extends the string that its `pre` names by its byte
to the `j`-th of them (R38). -/
structure LeHolds (u : LeUnit) (learned : List (List Byte)) : Prop where
  strings : Learned learned
  next : u.next.toNat = 256 + learned.length
  entry : ∀ j t, learned[j]? = some t → ∃ p, stringOfCode learned (u.entry (256 + j)).pre = some p ∧
    t = p ++ [(u.entry (256 + j)).byte]

/-- A fresh encoder holds nothing, whatever its memory holds (R27). -/
theorem LeHolds.of_fresh {u : LeUnit} (h : LeFresh u) : LeHolds u [] := by
  obtain ⟨-, -, hnext, -⟩ := h
  exact ⟨Learned.nil, by rw [hnext]; rfl, by simp⟩

/-- The dictionary is read through its next code and its entries alone. -/
theorem LeHolds.congr {u v : LeUnit} {learned : List (List Byte)} (h : LeHolds u learned) (hnext : v.next = u.next)
    (hdict : v.dict = u.dict) : LeHolds v learned where
  strings := h.strings
  next := by rw [hnext, h.next]
  entry := by simpa only [LeUnit.entry, hdict] using h.entry

section
variable {u : LeUnit} {learned : List (List Byte)} {cur : List Byte} {c : Code} {b : Byte}

/-- A key found is the extended string's code (R70). -/
theorem LeHolds.stringOfCode_of_camFind_some {k : Code} (h : LeHolds u learned) (hc : stringOfCode learned c = some cur)
    (hfind : camFind u ⟨c, b⟩ 256 u.next.toNat = some k) : stringOfCode learned k = some (cur ++ [b]) := by
  obtain ⟨n, hlo, hhi, hkey, rfl⟩ := camFind_some hfind
  have hnext := h.next
  have hroom := h.strings.room
  have hcode : (BitVec.ofNat 12 n).toNat = n := Nat.mod_eq_of_lt (by omega)
  have hj : n - 256 < learned.length := by omega
  obtain ⟨p, hp, ht⟩ := h.entry (n - 256) _ (List.getElem?_eq_getElem hj)
  rw [Nat.add_sub_cancel' hlo, hkey] at hp ht
  obtain rfl := Option.some.inj (hc.symm.trans hp)
  rw [stringOfCode_entry _ (by omega), hcode, List.getElem?_eq_getElem hj, ht]

/-- Where the lookup finds nothing, the extended string is not learned (R70). -/
theorem LeHolds.notMem_of_camFind_none (h : LeHolds u learned) (hc : stringOfCode learned c = some cur)
    (hfind : camFind u ⟨c, b⟩ 256 u.next.toNat = none) : cur ++ [b] ∉ learned := by
  intro hmem
  obtain ⟨j, hj, hget⟩ := List.getElem_of_mem hmem
  obtain ⟨p, hp, ht⟩ := h.entry j _ (hget ▸ List.getElem?_eq_getElem hj)
  obtain ⟨rfl, hbyte⟩ := List.append_singleton_inj.mp ht
  have hpre : (u.entry (256 + j)).pre = c := h.strings.code_inj hp hc
  have hnext := h.next
  refine camFind_none.mp hfind (256 + j) (by omega) (by omega) ?_
  rw [hbyte, ← hpre]

/-- The insertion after a miss is the learning of the extended string (R68, R70). -/
theorem LeHolds.insert (h : LeHolds u learned) (hc : stringOfCode learned c = some cur)
    (hfind : camFind u ⟨c, b⟩ 256 u.next.toNat = none) : LeHolds (leInsert ⟨c, b⟩ u) (learn learned (cur ++ [b])) := by
  have hnext := h.next
  have hpos := h.strings.length_pos hc
  have hstrings := h.strings.learn (t := cur ++ [b]) (by simp; omega) (h.notMem_of_camFind_none hc hfind)
  rcases Nat.lt_or_ge learned.length 3840 with hroom | hfull
  · have hlearn := learn_of_room (cur ++ [b]) hroom
    refine ⟨hstrings, ?_, fun j t ht => ?_⟩
    · rw [leInsert_next _ (by omega), hlearn]
      simp; omega
    · rw [leInsert_entry]
      rw [hlearn] at ht
      rcases Nat.lt_trichotomy j learned.length with hlt | rfl | hgt
      · rw [List.getElem?_append_left hlt] at ht
        rw [if_neg (by omega)]
        obtain ⟨p, hp, ht⟩ := h.entry j t ht
        exact ⟨p, stringOfCode_learn _ hp, ht⟩
      · rw [if_pos (by omega)]
        rw [List.getElem?_concat_length] at ht
        exact ⟨cur, stringOfCode_learn _ hc, (Option.some.inj ht).symm⟩
      · rw [List.getElem?_eq_none (by simp; omega)] at ht
        cases ht
  · rwa [learn_of_full _ hfull, leInsert_of_full _ (by omega)]

end

/-! ## What a call still owes -/

/-- The words that a call still pushes for `codes` before its report: the codes in raw mode, in packed mode the bytes they make with
the bits held (R44, R71). -/
def owedWords (raw : Bool) (u : BpUnit) (codes : List Code) : List OutWord :=
  if raw then codes.map (fun c => ⟨.code, zext32 c⟩) else (packedFrom u codes).map (fun b => ⟨.lbyte, zext32 b⟩)

/-- In raw mode the words owed are the codes. -/
theorem owedWords_raw (u : BpUnit) (codes : List Code) :
    owedWords true u codes = codes.map (fun c => ⟨.code, BitVec.ofNat 32 c.toNat⟩) := by
  simp only [owedWords, if_true, zext32_eq]

/-- In packed mode with an empty packer they are the bytes of the packed stream (R44). -/
theorem owedWords_packed_empty (codes : List Code) :
    owedWords false ⟨0, 0⟩ codes = (packedCodes codes).map (fun b => ⟨.lbyte, BitVec.ofNat 32 b.toNat⟩) := by
  simp only [owedWords, packedFrom_empty, zext32_eq]; rfl

/-- The packer after a call: not used in raw mode, flushed in packed mode (R72). -/
def bpAtEnd (raw : Bool) (u : BpUnit) : BpUnit := if raw then u else ⟨0, 0⟩

/-- `t` is a state in which a call ends that, in `s`, has `n` commands and `codes` to come: LE is fresh, the words owed and the report
are pushed, and every other unit is as it was (R69, R72). -/
structure CallEnds (s : State) (n : Nat) (codes : List Code) (t : State) : Prop where
  fresh : LeFresh t.le
  eq : t = { s with
    cp := s.cp + n
    le := t.le
    bp := bpAtEnd s.hi.leRaw s.bp
    out := s.out ++ owedWords s.hi.leRaw s.bp codes ++ [⟨.leDone, s.le.ncodes + BitVec.ofNat 32 codes.length⟩] }

section
variable {s t : State} {n : Nat} {codes : List Code}

/-- A command that has moved the command pointer was one to come. -/
theorem CallEnds.of_advance (h : CallEnds (s.advance 1) n codes t) : CallEnds s (n + 1) codes t where
  fresh := h.fresh
  eq := by rw [h.eq]; simp [State.advance, Nat.add_assoc, Nat.add_comm 1]

/-- A change of LE that counts no code changes nothing of what is owed. -/
theorem CallEnds.of_le {le : LeUnit} (h : CallEnds { s with le := le } n codes t) (hcount : le.ncodes = s.le.ncodes) :
    CallEnds s n codes t where
  fresh := h.fresh
  eq := by rw [h.eq]; simp [hcount]

/-- Emitting a code pushes the first words owed and owes the others (R71). -/
theorem out_append_owedWords_cons (hbp : s.hi.leRaw = false → BpInv s.bp) (c : Code) (codes : List Code) :
    s.out ++ owedWords s.hi.leRaw s.bp (c :: codes) =
      (emitCode c s).out ++ owedWords s.hi.leRaw (emitCode c s).bp codes := by
  cases hraw : s.hi.leRaw with
  | true => rw [emitCode_raw c s hraw]; simp [owedWords]
  | false =>
    obtain ⟨bp, bytes, hput, -, howed⟩ := bpPut_eq_packedFrom (hbp hraw) c
    rw [emitCode_packed c s hraw, hput]
    simp [owedWords, howed]

theorem bpAtEnd_emitCode (c : Code) (s : State) : bpAtEnd s.hi.leRaw (emitCode c s).bp = bpAtEnd s.hi.leRaw s.bp := by
  cases hraw : s.hi.leRaw with
  | true => rw [emitCode_bp_of_raw c hraw]
  | false => rfl

/-- A code emitted and counted was the first owed (R71). -/
theorem CallEnds.of_emitCode {le : LeUnit} {c : Code} (h : CallEnds { emitCode c s with le := le } n codes t)
    (hbp : s.hi.leRaw = false → BpInv s.bp) (hcount : le.ncodes = s.le.ncodes + 1) : CallEnds s n (c :: codes) t where
  fresh := h.fresh
  eq := by
    have hcodes : s.le.ncodes + BitVec.ofNat 32 (c :: codes).length = le.ncodes + BitVec.ofNat 32 codes.length := by
      rw [hcount, List.length_cons]; bv_omega
    have howed := out_append_owedWords_cons hbp c codes
    have hbpEnd := bpAtEnd_emitCode c s
    obtain ⟨bp, out, hemit⟩ : ∃ bp out, emitCode c s = { s with le := _, bp := bp, out := out } := ⟨_, _, emitCode_frame c s⟩
    rw [hemit] at h howed hbpEnd
    rw [h.eq, hcodes, howed, ← hbpEnd]

end

/-! ## The end of a call (R72) -/

/-- Without an accumulator `LE.END` pushes what the packer owes and the report (R72). -/
theorem leEnd_ends_of_not_curValid {s : State} (hbp : s.hi.leRaw = false → BpInv s.bp) (hv : s.le.curValid = false) :
    CallEnds s 1 [] ((leEnd s).advance 1) := by
  refine ⟨⟨rfl, rfl, rfl, rfl⟩, ?_⟩
  cases hraw : s.hi.leRaw with
  | true => simp [leEnd_eq, leDrain_raw hraw, hv, owedWords, bpAtEnd, State.push, State.advance]
  | false =>
    simp [leEnd_eq, leDrain_packed hraw, hv, bpFlush_eq_packedFrom (hbp hraw), owedWords, bpAtEnd, State.push, State.pushBytes,
      State.advance]

/-- With an accumulator `LE.END` emits it and ends as without one (R72). -/
theorem leEnd_of_curValid {s : State} (hv : s.le.curValid = true) : leEnd s =
    leEnd { emitCode s.le.cur s with le := { s.le with curValid := false, ncodes := s.le.ncodes + 1 } } := by
  have hsame : (emitCode s.le.cur s).hi.leRaw = s.hi.leRaw := by rw [emitCode_frame]
  cases hraw : s.hi.leRaw with
  | true => simp [leEnd_eq, leDrain, hv, hsame, hraw, emitCode_le, LeUnit.refresh]
  | false => simp [leEnd_eq, leDrain, hv, hsame, hraw, emitCode_le, bpFlush_with_le, LeUnit.refresh]

/-- `LE.END` sends the accumulator's code, if there is one, and ends the call (R72). -/
theorem leEnd_ends {s : State} (hbp : s.hi.leRaw = false → BpInv s.bp) :
    CallEnds s 1 (if s.le.curValid then [s.le.cur] else []) ((leEnd s).advance 1) := by
  cases hv : s.le.curValid with
  | false => exact leEnd_ends_of_not_curValid hbp hv
  | true =>
    rw [leEnd_of_curValid hv]
    refine (leEnd_ends_of_not_curValid (fun hpacked => ?_) rfl).of_emitCode hbp rfl
    exact (hbp (by rwa [emitCode_frame] at hpacked)).emitCode _

/-! ## Rounds of `LZW_encode` (R68) -/

/-- LE stands in a round of `LZW_encode`'s loop: it holds the strings learned, and its accumulator, if there is one, names `cur`
(R27, R68). -/
structure LeRound (u : LeUnit) (learned : List (List Byte)) (cur : List Byte) : Prop where
  holds : LeHolds u learned
  invalid : u.curValid = false → cur = []
  valid : u.curValid = true → stringOfCode learned u.cur = some cur

/-- Restarting at a byte begins a round with that byte (R68, R70). -/
theorem LeHolds.restart {u : LeUnit} {learned : List (List Byte)} (h : LeHolds u learned) (b : Byte) :
    LeRound (leRestart b u) learned [b] :=
  ⟨h.congr rfl rfl, nofun, fun _ => stringOfCode_setWidth learned b⟩

/-- Taking the code of a longer string as the accumulator begins a round with that string (R68, R70). -/
theorem LeHolds.extend {u : LeUnit} {learned : List (List Byte)} {cur : List Byte} {k : Code} (h : LeHolds u learned)
    (hv : u.curValid = true) (hk : stringOfCode learned k = some cur) : LeRound { u with cur := k } learned cur :=
  ⟨h.congr rfl rfl, fun hf => absurd (hv.symm.trans hf) (by decide), fun _ => hk⟩

/-- `LE.BYTE` in a round leaves LE in the next one, and what it emits is what the round of the loop outputs (R68, R70). -/
theorem LeRound.leByte {s : State} {learned : List (List Byte)} {cur : List Byte} (h : LeRound s.le learned cur) (b : Byte) :
    ∃ learned' cur' le', LeRound le' learned' cur' ∧
      ((leByte b s = { s with le := le' } ∧ le'.ncodes = s.le.ncodes ∧
          ∀ xs, lzwEncodeFrom learned cur (b :: xs) = lzwEncodeFrom learned' cur' xs) ∨
        (leByte b s = { emitCode s.le.cur s with le := le' } ∧ le'.ncodes = s.le.ncodes + 1 ∧
          ∀ xs, lzwEncodeFrom learned cur (b :: xs) = s.le.cur :: lzwEncodeFrom learned' cur' xs)) := by
  rcases leByte_cases b s with ⟨hv, heq⟩ | ⟨k, hv, hfind, heq⟩ | ⟨hv, hfind, heq⟩
  · obtain rfl := h.invalid hv
    exact ⟨learned, [b], _, h.holds.restart b, .inl ⟨heq, rfl, fun xs => rfl⟩⟩
  · have hk := h.holds.stringOfCode_of_camFind_some (h.valid hv) hfind
    have hkey := h.holds.strings.codeOfString_of_stringOfCode hk
    refine ⟨learned, cur ++ [b], _, h.holds.extend hv hk, .inl ⟨heq, rfl, fun xs => ?_⟩⟩
    rw [lzwEncodeFrom, hkey]; rfl
  · have hcur := h.valid hv
    have hcode := h.holds.strings.codeOfString_of_stringOfCode hcur
    have hlong : 2 ≤ (cur ++ [b]).length := by
      have hpos := h.holds.strings.length_pos hcur
      simp; omega
    have hkey := (codeOfString_eq_none_iff hlong).mpr (h.holds.notMem_of_camFind_none hcur hfind)
    have hcounted : LeHolds { s.le with ncodes := s.le.ncodes + 1 } learned := h.holds.congr rfl rfl
    refine ⟨learn learned (cur ++ [b]), [b], _, (hcounted.insert hcur hfind).restart b,
      .inr ⟨heq, by simp [leRestart], fun xs => ?_⟩⟩
    rw [lzwEncodeFrom, hkey, hcode]
    simp

/-- At the end of the input the loop outputs the accumulator's code (R68). -/
theorem LeRound.lzwEncodeFrom_nil {u : LeUnit} {learned : List (List Byte)} {cur : List Byte} (h : LeRound u learned cur) :
    lzwEncodeFrom learned cur [] = if u.curValid then [u.cur] else [] := by
  cases hv : u.curValid with
  | false => rw [h.invalid hv]; rfl
  | true =>
    have hcur := h.valid hv
    have hne := List.ne_nil_of_length_pos (h.holds.strings.length_pos hcur)
    rw [lzwEncodeFrom, if_neg hne, h.holds.strings.codeOfString_of_stringOfCode hcur]
    simp

/-- The rest of a call sends the codes of the rest of the input (R68, R69). -/
theorem execAll_lzwEncode (input : List Byte) {s : State} {learned : List (List Byte)} {cur : List Byte}
    (h : LeRound s.le learned cur) (hbp : s.hi.leRaw = false → BpInv s.bp) :
    ∃ t, execAll (Pseudo.lzwEncode input) s = .next t ∧ CallEnds s (input.length + 1) (lzwEncodeFrom learned cur input) t := by
  induction input generalizing s learned cur with
  | nil =>
    refine ⟨_, rfl, ?_⟩
    rw [h.lzwEncodeFrom_nil]
    exact leEnd_ends hbp
  | cons b input ih =>
    obtain ⟨learned', cur', le', hround, hstep⟩ := h.leByte b
    have hle : (leByte b s).le = le' := by rcases hstep with ⟨heq, -⟩ | ⟨heq, -⟩ <;> rw [heq]
    have hbp' : (leByte b s).hi.leRaw = false → BpInv (leByte b s).bp := fun hpacked =>
      (hbp (by rwa [leByte_frame] at hpacked)).leByte b
    obtain ⟨t, hrest, hends⟩ := ih (s := (leByte b s).advance 1) (hle ▸ hround) hbp'
    refine ⟨t, hrest, ?_⟩
    rcases hstep with ⟨heq, hcount, hcodes⟩ | ⟨heq, hcount, hcodes⟩
    · rw [hcodes]
      exact (heq ▸ hends.of_advance).of_le hcount
    · rw [hcodes]
      exact (heq ▸ hends.of_advance).of_emitCode hbp hcount

theorem LeRound.of_fresh {u : LeUnit} (h : LeFresh u) : LeRound u [] [] :=
  ⟨LeHolds.of_fresh h, fun _ => rfl, fun hv => absurd (hv.symm.trans h.1) (by decide)⟩

/-- A call from a fresh encoder sends `LZW_encode` of its input (R68, R69). -/
theorem execAll_lzwEncode_of_fresh (input : List Byte) {s : State} (h : LeFresh s.le) (hbp : s.hi.leRaw = false → BpInv s.bp) :
    ∃ t, execAll (Pseudo.lzwEncode input) s = .next t ∧ CallEnds s (input.length + 1) (lzwEncode input) t :=
  execAll_lzwEncode input (LeRound.of_fresh h) hbp

/-- Settles O27: in raw mode the words owed are the codes. -/
theorem rawEncodeCallIsLzwEncode : Obligations.RawEncodeCallIsLzwEncode := by
  unfold Obligations.RawEncodeCallIsLzwEncode
  intro s input hraw hfresh
  obtain ⟨t, hexec, hends⟩ := execAll_lzwEncode_of_fresh input hfresh (by simp [hraw])
  obtain ⟨-, -, -, hcount⟩ := hfresh
  have heq := hends.eq
  rw [hraw, owedWords_raw, hcount, zero_add] at heq
  exact ⟨t, hexec, congrArg State.out heq, hends.fresh, by rw [heq]; rfl⟩

/-- Settles O28: an empty packer owes the packed stream, and the call leaves it empty. -/
theorem packedEncodeCallIsPackedLzwEncode : Obligations.PackedEncodeCallIsPackedLzwEncode := by
  unfold Obligations.PackedEncodeCallIsPackedLzwEncode
  intro s input hpacked hfresh hempty
  obtain ⟨t, hexec, hends⟩ := execAll_lzwEncode_of_fresh input hfresh (fun _ => hempty ▸ BpInv.empty)
  obtain ⟨-, -, -, hcount⟩ := hfresh
  have heq := hends.eq
  rw [hpacked, hempty, owedWords_packed_empty, hcount, zero_add] at heq
  exact ⟨t, hexec, congrArg State.out heq, hends.fresh, by rw [heq, hempty]; rfl⟩

end Sys2Proof.Machine

/-! PROOF. One code at the decoder (41_lzw_decoder.md R74 to R78): the cases that the statements about `LD.CODE`, `LD.BYTE` and
`LD.END` name. -/

namespace Sys2Proof.Machine

/-! ## The strings that the decoder reads (R39, R75) -/

/-- A code that names a string and is no singleton lies below the next code (R39). -/
theorem LdNames.lt_next_of_entry {u : LdUnit} {k : Nat} {t : List Byte} (h : LdNames u k t) (hk : 256 ≤ k) :
    k < u.next.toNat := by
  cases h with
  | singleton => omega
  | entry _ _ _ hi => exact hi

theorem LdNames.lt_next {u : LdUnit} {k : Nat} {t : List Byte} (h : LdNames u k t) (hlo : 256 ≤ u.next.toNat) :
    k < u.next.toNat :=
  (Nat.lt_or_ge k 256).elim (fun hsingle => hsingle.trans_le hlo) h.lt_next_of_entry

/-- A stack with room for the string that a code names reads it (R75). -/
theorem LdNames.unwind {u : LdUnit} {k : Nat} {t : List Byte} (h : LdNames u k t) {c : Code} (hc : c.toNat = k) {room : Nat}
    (stack : List Byte) (hroom : t.length ≤ room) : u.unwind room c stack = some (t ++ stack) := by
  induction h generalizing c room stack with
  | singleton k hk =>
    subst hc
    obtain ⟨room, rfl⟩ := Nat.exists_eq_succ_of_ne_zero (Nat.ne_of_gt hroom)
    rw [unwind_singleton u room stack hk, BitVec.ofNat_toNat]; rfl
  | entry k t lo _ _ ih =>
    subst hc
    rw [List.length_append, List.length_singleton] at hroom
    obtain ⟨room, rfl⟩ := Nat.exists_eq_succ_of_ne_zero (n := room) (by omega)
    rw [unwind_entry u room stack lo, ih rfl _ (by omega), List.append_assoc, List.singleton_append]

/-- The code `k` names `t`, its first byte is the one that the decoder reads, and its length is bounded by how far `k` lies above
the singletons (R39, R75). -/
structure LdReads (u : LdUnit) (k : Code) (t : List Byte) : Prop where
  names : LdNames u k.toNat t
  first : t.head? = some (u.firstOf k)
  bound : t.length ≤ k.toNat - 255 + 1

theorem LdString.reads {u : LdUnit} {k : Code} {t : List Byte} (h : LdString u k t) : LdReads u k t :=
  ⟨h.names, h.first, h.bound⟩

/-- Under the decoder's invariant what a code names is what the decoder reads (R39). -/
theorem LdInv.reads {u : LdUnit} (h : LdInv u) {k : Code} {t : List Byte} (ht : LdNames u k.toNat t) : LdReads u k t := by
  obtain ⟨bytes, hbytes⟩ := h.exists_string k (ht.lt_next h.next_lo)
  rw [hbytes.unique t ht]
  exact hbytes.reads

/-- The stack of 3841 bytes has room for it (R75). -/
theorem LdReads.stringOf {u : LdUnit} {k : Code} {t : List Byte} (h : LdReads u k t) : u.stringOf k = some t := by
  have hbound := h.bound
  have hcode := k.isLt
  have hread := h.names.unwind rfl (room := Config.strMax) [] (Nat.le_trans (m := 3841) (by omega) (by decide))
  rwa [List.append_nil] at hread

theorem LdReads.take_one {u : LdUnit} {k : Code} {t : List Byte} (h : LdReads u k t) : t.take 1 = [u.firstOf k] := by
  rw [List.take_one, h.first]; rfl

/-- The dictionary of `v` has the entries of `u` and may have more. -/
structure LdExtends (u v : LdUnit) : Prop where
  next : u.next.toNat ≤ v.next.toNat
  entry : ∀ k < u.next.toNat, v.entry k = u.entry k

/-- The dictionary is read through its next code and its entries alone. -/
theorem LdExtends.of_eq {u v : LdUnit} (hnext : v.next = u.next) (hdict : v.dict = u.dict) : LdExtends u v :=
  ⟨by rw [hnext], fun k _ => by rw [LdUnit.entry, hdict]; rfl⟩

theorem LdNames.extend {u v : LdUnit} (huv : LdExtends u v) {k : Nat} {t : List Byte} (h : LdNames u k t) : LdNames v k t := by
  induction h with
  | singleton k hk => exact .singleton k hk
  | entry k t lo hi _ ih =>
    rw [← huv.entry k hi] at ih ⊢
    exact .entry k t lo (hi.trans_le huv.next) ih

theorem LdReads.extend {u v : LdUnit} (huv : LdExtends u v) {k : Code} {t : List Byte} (h : LdReads u k t) : LdReads v k t := by
  refine ⟨h.names.extend huv, ?_, h.bound⟩
  rw [h.first]
  rcases Nat.lt_or_ge k.toNat 256 with hsingle | hentry
  · simp [LdUnit.firstOf, Config.nsym, hsingle]
  · simp [LdUnit.firstOf, huv.entry _ (h.names.lt_next_of_entry hentry)]

/-! ## The decoder's insertion (R74) -/

/-- A full dictionary takes no entry (R74). -/
theorem ldInsert_of_full {u : LdUnit} (f : Byte) (hfull : 4096 ≤ u.next.toNat) : ldInsert f u = u :=
  if_neg (Nat.not_lt.mpr hfull)

/-- An insertion keeps the entries there are (R74). -/
theorem ldInsert_extends (f : Byte) (u : LdUnit) : LdExtends u (ldInsert f u) := by
  rcases Nat.lt_or_ge u.next.toNat 4096 with hroom | hfull
  · exact ⟨by rw [ldInsert_next f hroom]; omega, fun k hk => by rw [ldInsert_entry, if_neg (by omega)]⟩
  · rw [ldInsert_of_full f hfull]; exact .of_eq rfl rfl

@[simp] theorem ldInsert_nbytes (f : Byte) (u : LdUnit) : (ldInsert f u).nbytes = u.nbytes := by
  unfold ldInsert; split <;> rfl

/-- The entry inserted is read as the previous string and the byte put after it (R39, R74). -/
theorem LdReads.inserted {u : LdUnit} {prev : List Byte} (h : LdReads u u.prev prev) (hlo : 256 ≤ u.next.toNat) {k : Code}
    (hk : k.toNat = u.next.toNat) (f : Byte) : LdReads (ldInsert f u) k (prev ++ [f]) := by
  have hcode := k.isLt
  have hroom : u.next.toNat < 4096 := by omega
  have hentry : (ldInsert f u).entry k.toNat = ⟨u.prev, f, u.firstOf u.prev, u.lenOf u.prev + 1⟩ := by
    rw [ldInsert_entry, if_pos ⟨hroom, hk⟩]
  refine ⟨?_, ?_, ?_⟩
  · have hpre : LdNames (ldInsert f u) ((ldInsert f u).entry k.toNat).pre.toNat prev := by
      rw [hentry]; exact h.names.extend (ldInsert_extends f u)
    have hnew := LdNames.entry k.toNat prev (by omega) (by rw [ldInsert_next f hroom]; omega) hpre
    rwa [hentry] at hnew
  · have hfirst : (ldInsert f u).firstOf k = u.firstOf u.prev := by
      rw [LdUnit.firstOf, if_neg (by simp only [Config.nsym]; omega), hentry]
    rw [hfirst, List.head?_append, h.first, Option.some_or]
  · have hprev := h.names.lt_next hlo
    have hbound := h.bound
    simp only [List.length_append, List.length_singleton]
    omega

/-! ## `ld_step` (R74) -/

/-- LD when the string `bytes` of the code `c` is output and `c` kept (R74, R75). -/
def LdUnit.accepted (u : LdUnit) (c : Code) (bytes : List Byte) : LdUnit :=
  { u with prevValid := true, prev := c, nbytes := u.nbytes + BitVec.ofNat 32 bytes.length }

theorem LdUnit.accepted_extends (u : LdUnit) (c : Code) (bytes : List Byte) : LdExtends u (u.accepted c bytes) := .of_eq rfl rfl

/-- A code is accepted by counting and pushing its string (R74, R75). -/
theorem ldAccept_of_reads {c : Code} {s : State} {bytes : List Byte} (h : LdReads s.ld c bytes) :
    ldAccept c s = .done ({ s with ld := s.ld.accepted c bytes }.pushBytes .dbyte bytes) := by
  rw [ldAccept, outputString, h.stringOf]; rfl

/-- A singleton is accepted as the first code of a call (R74). -/
theorem ldStep_first {c : Code} {s : State} (hv : s.ld.prevValid = false) (hc : c.toNat < 256) :
    ldStep c s = .done ({ s with ld := s.ld.accepted c [c.setWidth 8] }.pushBytes .dbyte [c.setWidth 8]) := by
  rw [← ldAccept_of_reads (LdString.singleton s.ld hc).reads, ldStep, if_neg (by simp [hv]),
    if_neg (show ¬ Config.nsym ≤ c.toNat from Nat.not_le.mpr hc)]
  rfl

/-- After the first code, a code that names an entry is resolved to its string and the next code to the previous string and its
first byte; the previous string and the first byte of the resolved one are inserted before that is read (R74). -/
theorem ldStep_later {c : Code} {s : State} {prev bytes : List Byte} (hlo : 256 ≤ s.ld.next.toNat) (hv : s.ld.prevValid = true)
    (hprev : LdReads s.ld s.ld.prev prev)
    (hc : c.toNat < s.ld.next.toNat ∧ LdReads s.ld c bytes ∨ c.toNat = s.ld.next.toNat ∧ bytes = prev ++ prev.take 1) :
    ∃ f, bytes.take 1 = [f] ∧
      ldStep c s = .done ({ s with ld := (ldInsert f s.ld).accepted c bytes }.pushBytes .dbyte bytes) ∧
      LdReads (ldInsert f s.ld) c bytes := by
  rcases hc with ⟨hlt, hreads⟩ | ⟨heq, rfl⟩
  · have hread := hreads.extend (ldInsert_extends (s.ld.firstOf c) s.ld)
    refine ⟨_, hreads.take_one, ?_, hread⟩
    rw [ldStep, if_pos hv, if_pos hlt]
    exact ldAccept_of_reads (s := { s with ld := ldInsert (s.ld.firstOf c) s.ld }) hread
  · have hread := hprev.inserted hlo heq (s.ld.firstOf s.ld.prev)
    rw [hprev.take_one]
    refine ⟨_, ?_, ?_, hread⟩
    · rw [List.take_one, List.head?_append, hprev.first]; rfl
    · rw [ldStep, if_pos hv, if_neg (by omega), if_pos heq]
      exact ldAccept_of_reads (s := { s with ld := ldInsert (s.ld.firstOf s.ld.prev) s.ld }) hread

/-- Any other code is refused: a first code that is no singleton, a later one beyond the next (R74). -/
theorem ldStep_fail {c : Code} {s : State}
    (h : s.ld.prevValid = false ∧ 256 ≤ c.toNat ∨ s.ld.prevValid = true ∧ s.ld.next.toNat < c.toNat) :
    ldStep c s = ldFail c s := by
  rcases h with ⟨hv, hc⟩ | ⟨hv, hc⟩
  · rw [ldStep, if_neg (by simp [hv]), if_pos (show Config.nsym ≤ c.toNat from hc)]
  · rw [ldStep, if_pos hv, if_neg (by omega), if_neg (by omega)]

/-- Under the decoder's invariant no other code is refused, and none overflows the stack (R74, R75). -/
theorem LdInv.ldStep_done {c : Code} {s : State} (h : LdInv s.ld) (hfirst : s.ld.prevValid = false → c.toNat < 256)
    (hlater : s.ld.prevValid = true → c.toNat ≤ s.ld.next.toNat) : ∃ t, ldStep c s = .done t := by
  cases hv : s.ld.prevValid with
  | false => exact ⟨_, ldStep_first hv (hfirst hv)⟩
  | true =>
    obtain ⟨prev, hprev⟩ := h.exists_string s.ld.prev (h.prev hv)
    rcases Nat.lt_or_eq_of_le (hlater hv) with hlt | heq
    · obtain ⟨bytes, hbytes⟩ := h.exists_string c hlt
      obtain ⟨f, -, hstep, -⟩ := ldStep_later h.next_lo hv hprev.reads (.inl ⟨hlt, hbytes.reads⟩)
      exact ⟨_, hstep⟩
    · obtain ⟨f, -, hstep, -⟩ := ldStep_later h.next_lo hv hprev.reads (.inr ⟨heq, rfl⟩)
      exact ⟨_, hstep⟩

/-! ## The commands -/

/-- A state after a refused code, `opcWord` being the error's opcode and its own code: LD is fresh, BU cleared, and the error is
recorded and pushed (R74, R111). -/
def ldRefused (opcWord : Nat) (c : Code) (s : State) : State :=
  { s with
    cp := s.cp + 1
    ld := s.ld.refresh
    bu := ⟨0, 0⟩
    hi := s.hi.record (BitVec.ofNat 32 (c.toNat * 2 ^ 16 + opcWord))
    out := s.out ++ [⟨.err, BitVec.ofNat 32 (c.toNat * 2 ^ 16 + opcWord)⟩] }

/-- The end of a one-word command that refuses its code (R62, R74, R111). -/
theorem complete_ldFail {i : Instr} {opcWord : Nat} (hlen : i.length = 1) (hopc : i.opcode.toNat * 2 ^ 8 + 2 = opcWord) (c : Code)
    (s : State) : complete i (ldFail c s) = .next (ldRefused opcWord c s) := by
  have hinfo : (c.setWidth 16).toNat = c.toNat := BitVec.toNat_setWidth_of_le (by decide)
  have hword : errorWord .decode (c.setWidth 16) i.opcode = BitVec.ofNat 32 (c.toNat * 2 ^ 16 + opcWord) :=
    errorWord_eq _ _ _ _ (by rw [hinfo, ← hopc, Nat.add_assoc]; rfl)
  rw [ldFail, complete_error, raise, hword, hlen]
  rfl

theorem exec_ldCode_of_fail {c : Code} {s : State}
    (h : s.ld.prevValid = false ∧ 256 ≤ c.toNat ∨ s.ld.prevValid = true ∧ s.ld.next.toNat < c.toNat) :
    exec (.ldCode c) s = .next (ldRefused 0x1802 c s) := by
  rw [exec_eq_complete_body, body, ldStep_fail h, complete_ldFail (opcWord := 0x1802) rfl (by simp [Instr.opcode])]

/-- A byte that completes no code is kept (R77). -/
theorem body_ldByte_none {b : Byte} {s : State} {u : BuUnit} (h : buFeed b s.bu = (none, u)) :
    body (.ldByte b) s = .done { s with bu := u } := by
  rw [body, h]

/-- A byte that completes a code decodes it (R77). -/
theorem body_ldByte_code {b : Byte} {s : State} {u : BuUnit} {c : Code} (h : buFeed b s.bu = (some c, u)) :
    body (.ldByte b) s = ldStep c { s with bu := u } := by
  rw [body, h]

/-- `LD.BYTE` does what `LD.CODE` does with the code completed, if it is accepted (R77). -/
theorem exec_ldByte_of_accepted {b : Byte} {s : State} {u : BuUnit} {c : Code} (hfed : buFeed b s.bu = (some c, u))
    (hinv : LdInv s.ld) (hfirst : s.ld.prevValid = false → c.toNat < 256)
    (hlater : s.ld.prevValid = true → c.toNat ≤ s.ld.next.toNat) :
    ∃ t, exec (.ldByte b) s = .next t ∧ exec (.ldCode c) { s with bu := u } = .next t := by
  obtain ⟨t, ht⟩ := LdInv.ldStep_done (s := { s with bu := u }) hinv hfirst hlater
  refine ⟨t.advance 1, ?_, ?_⟩
  · rw [exec_eq_complete_body, body_ldByte_code hfed, ht]; rfl
  · rw [exec_eq_complete_body, body, ht]; rfl

/-- `LD.BYTE` refuses the code completed with an opcode of its own (R77, R111). -/
theorem exec_ldByte_of_fail {b : Byte} {s : State} {u : BuUnit} {c : Code} (hfed : buFeed b s.bu = (some c, u))
    (h : s.ld.prevValid = false ∧ 256 ≤ c.toNat ∨ s.ld.prevValid = true ∧ s.ld.next.toNat < c.toNat) :
    exec (.ldByte b) s = .next (ldRefused 0x1902 c s) := by
  rw [exec_eq_complete_body, body_ldByte_code hfed, ldStep_fail (s := { s with bu := u }) h,
    complete_ldFail (opcWord := 0x1902) rfl (by simp [Instr.opcode])]
  rfl

/-- Settles O29: the string of a singleton is its byte. -/
theorem ldFirstCode : Obligations.LdFirstCode := by
  unfold Obligations.LdFirstCode
  refine fun c s hv => ⟨fun hc => ?_, fun hc => ?_⟩
  · have hbyte : zext32 (c.setWidth 8 : Byte) = BitVec.ofNat 32 c.toNat := by
      rw [zext32_eq, BitVec.toNat_setWidth, Nat.mod_eq_of_lt hc]
    rw [exec_eq_complete_body, body, ldStep_first hv hc, State.pushBytes, List.map_singleton, hbyte]
    rfl
  · exact exec_ldCode_of_fail (.inl ⟨hv, hc⟩)

/-- Settles O32: such a code is refused. -/
theorem ldBadCodeAborts : Obligations.LdBadCodeAborts := by
  unfold Obligations.LdBadCodeAborts
  intro c s hv hc
  exact exec_ldCode_of_fail (.inr ⟨hv, hc⟩)

/-- Settles O30: the entry inserted is read as the previous string and the first byte of the output. -/
theorem ldLaterCode : Obligations.LdLaterCode := by
  unfold Obligations.LdLaterCode
  intro c s prev hinv hv hprev bytes hc
  have hreads := hinv.reads hprev
  obtain ⟨f, hf, hstep, -⟩ := ldStep_later (bytes := bytes) hinv.next_lo hv hreads
    (hc.imp_left (fun ⟨hlt, hnames⟩ => ⟨hlt, hinv.reads hnames⟩))
  have hexec : exec (.ldCode c) s =
      .next (({ s with ld := (ldInsert f s.ld).accepted c bytes }.pushBytes .dbyte bytes).advance 1) := by
    rw [exec_eq_complete_body, body, hstep]; rfl
  refine ⟨_, hexec, rfl, ?_, rfl, rfl, ?_, fun hroom => ⟨ldInsert_next f hroom, ?_, fun j hj => ?_⟩, fun hfull => ?_⟩
  · simp only [State.advance_out, State.pushBytes_out, zext32_eq]
  · simp [LdUnit.accepted]
  · have hcode : (BitVec.ofNat 12 s.ld.next.toNat).toNat = s.ld.next.toNat := Nat.mod_eq_of_lt hroom
    have hnew := (hreads.inserted hinv.next_lo hcode f).names
    rw [hcode] at hnew
    rw [hf]
    exact hnew.extend ((ldInsert f s.ld).accepted_extends c bytes)
  · exact (ldInsert_entry f s.ld j).trans (if_neg (fun h => hj h.2))
  · simp [LdUnit.accepted, ldInsert_of_full f hfull]

/-- Settles O33: `bu_feed` completes a code on 4 bits or more, and `LD.BYTE` does `ld_step` on it. -/
theorem ldByteUnpacksAndDecodes : Obligations.LdByteUnpacksAndDecodes := by
  unfold Obligations.LdByteUnpacksAndDecodes
  refine fun b s c _ hc => ⟨fun hfew => ?_, fun hmany => ?_, fun hmany => ?_⟩
  · have hn : BitVec.ofNat 4 (s.bu.n.toNat + 8) = s.bu.n + 8 := by bv_omega
    rw [exec_eq_complete_body, body_ldByte_none (buFeed_few b s.bu hfew), hn]
    rfl
  · exact exec_ldByte_of_accepted (hc ▸ buFeed_code b s.bu hmany)
  · exact exec_ldByte_of_fail (hc ▸ buFeed_code b s.bu hmany)

theorem exec_ldEnd (s : State) : exec .ldEnd s = .next ((ldEnd s).advance 1) := rfl

/-- Settles O34: the report is pushed before LD is made fresh. -/
theorem ldEndReports : Obligations.LdEndReports := by
  unfold Obligations.LdEndReports
  intro s
  rw [exec_ldEnd, ldEnd, LdUnit.refresh]
  rfl

end Sys2Proof.Machine

/-! PROOF. A whole decode call (41_lzw_decoder.md R74 to R78): the decoder's dictionary holds the strings that `LZW_decode` has
learned, and each code takes one round of its loop. -/

namespace Sys2Proof.Machine

/-! ## The strings learned (R74) -/

/-- A code that names a string lies below the next code. -/
theorem lt_of_stringOfCode {learned : List (List Byte)} {c : Code} {t : List Byte} (h : stringOfCode learned c = some t) :
    c.toNat < 256 + learned.length := by
  rcases Nat.lt_or_ge c.toNat 256 with hsingle | hentry
  · omega
  · rw [stringOfCode_entry learned hentry] at h
    obtain ⟨hj, -⟩ := List.getElem?_eq_some_iff.mp h
    omega

/-- A code names one of the strings there were, or it is the next code and names the string learned (R74). -/
theorem stringOfCode_learn_cases {learned : List (List Byte)} {x t : List Byte} {c : Code}
    (h : stringOfCode (learn learned x) c = some t) :
    stringOfCode learned c = some t ∨ c.toNat = 256 + learned.length ∧ learned.length < 3840 ∧ t = x := by
  rcases Nat.lt_or_ge learned.length 3840 with hroom | hfull
  · rw [learn_of_room x hroom] at h
    rcases Nat.lt_or_ge c.toNat 256 with hsingle | hentry
    · rw [stringOfCode_singleton _ hsingle] at h ⊢
      exact .inl h
    · have hlt := lt_of_stringOfCode h
      rw [List.length_append, List.length_singleton] at hlt
      rw [stringOfCode_entry _ hentry] at h ⊢
      rcases Nat.lt_or_ge (c.toNat - 256) learned.length with hold | hnew
      · exact .inl (by rwa [List.getElem?_append_left hold] at h)
      · rw [show c.toNat - 256 = learned.length by omega, List.getElem?_concat_length] at h
        exact .inr ⟨by omega, hroom, (Option.some.inj h).symm⟩
  · rw [learn_of_full x hfull] at h
    exact .inl h

theorem length_learn_le {learned : List (List Byte)} (h : learned.length ≤ 3840) (x : List Byte) :
    (learn learned x).length ≤ 3840 := by
  rcases Nat.lt_or_ge learned.length 3840 with hroom | hfull
  · rw [learn_of_room x hroom]; simp; omega
  · rwa [learn_of_full x hfull]

theorem resolveCode_of_lt {learned : List (List Byte)} (prev : List Byte) {c : Code} (hc : c.toNat < 256 + learned.length) :
    resolveCode learned prev c = stringOfCode learned c := if_pos hc

/-- The self-referential code (R74). -/
theorem resolveCode_next {learned : List (List Byte)} (prev : List Byte) {c : Code} (hc : c.toNat = 256 + learned.length) :
    resolveCode learned prev c = some (prev ++ prev.take 1) :=
  (if_neg (Nat.not_lt.mpr hc.ge)).trans (if_pos hc)

/-- A round of `LZW_decode`'s loop that resolves its code (R74). -/
theorem lzwDecodeFrom_cons {learned : List (List Byte)} {prev entry : List Byte} {c : Code}
    (h : resolveCode learned prev c = some entry) (codes : List Code) : lzwDecodeFrom learned prev (c :: codes) =
      (lzwDecodeFrom (learn learned (prev ++ entry.take 1)) entry codes).map (fun out => entry ++ out) := by
  simp only [lzwDecodeFrom, h]

/-! ## The decoder's dictionary holds them -/

/-- The codes below LD's next one are read as the strings learned (R39). -/
structure LdHolds (u : LdUnit) (learned : List (List Byte)) : Prop where
  next : u.next.toNat = 256 + learned.length
  room : learned.length ≤ 3840
  reads : ∀ c t, stringOfCode learned c = some t → LdReads u c t

/-- A fresh decoder holds the singletons alone, whatever its memory holds (R28). -/
theorem LdHolds.of_fresh {u : LdUnit} (h : LdFresh u) : LdHolds u [] := by
  obtain ⟨-, -, hnext, -⟩ := h
  refine ⟨by rw [hnext]; rfl, by simp, fun c t hc => ?_⟩
  have hsingle : c.toNat < 256 := lt_of_stringOfCode hc
  rw [stringOfCode_singleton [] hsingle] at hc
  rw [← Option.some.inj hc]
  exact (LdString.singleton u hsingle).reads

theorem LdHolds.accepted {u : LdUnit} {learned : List (List Byte)} (h : LdHolds u learned) (c : Code) (bytes : List Byte) :
    LdHolds (u.accepted c bytes) learned :=
  ⟨h.next, h.room, fun d t hd => (h.reads d t hd).extend (u.accepted_extends c bytes)⟩

/-- The insertion is the learning of the previous string and the byte put after it (R74). -/
theorem LdHolds.insert {u : LdUnit} {learned : List (List Byte)} {prev : List Byte} (h : LdHolds u learned)
    (hprev : LdReads u u.prev prev) (f : Byte) : LdHolds (ldInsert f u) (learn learned (prev ++ [f])) := by
  have hnext := h.next
  refine ⟨?_, length_learn_le h.room _, fun c t hc => ?_⟩
  · rcases Nat.lt_or_ge learned.length 3840 with hroom | hfull
    · rw [ldInsert_next f (by omega), learn_of_room _ hroom, List.length_append, hnext]; rfl
    · rw [ldInsert_of_full f (by omega), learn_of_full _ hfull, hnext]
  · rcases stringOfCode_learn_cases hc with hold | ⟨hnew, -, rfl⟩
    · exact (h.reads c t hold).extend (ldInsert_extends f u)
    · exact hprev.inserted (by omega) (by omega) f

/-- A code that `LZW_decode` resolves is one that `ld_step` resolves (R74). -/
theorem LdHolds.resolves {u : LdUnit} {learned : List (List Byte)} {prev entry : List Byte} {c : Code} (h : LdHolds u learned)
    (hres : resolveCode learned prev c = some entry) : c.toNat < u.next.toNat ∧ LdReads u c entry ∨
      c.toNat = u.next.toNat ∧ entry = prev ++ prev.take 1 := by
  rw [h.next]
  unfold resolveCode at hres
  split_ifs at hres with hlt heq
  · exact .inl ⟨hlt, h.reads c entry hres⟩
  · exact .inr ⟨heq, (Option.some.inj hres).symm⟩

/-! ## Rounds of `LZW_decode` (R74) -/

/-- LD stands where `LZW_decode` still has to do `decode` on the codes to come: before the first code, or in a round of its loop
with the strings learned and the string of the previous code (R28, R74). -/
inductive LdAwaits (u : LdUnit) : (List Code → Except Code (List Byte)) → Prop where
  | first (hv : u.prevValid = false) (holds : LdHolds u []) : LdAwaits u lzwDecode
  | later (learned : List (List Byte)) (prev : List Byte) (hv : u.prevValid = true) (holds : LdHolds u learned)
      (hprev : LdReads u u.prev prev) : LdAwaits u (lzwDecodeFrom learned prev)

theorem LdAwaits.of_fresh {u : LdUnit} (h : LdFresh u) : LdAwaits u lzwDecode := .first h.1 (.of_fresh h)

/-- Without codes to come nothing is output. -/
theorem LdAwaits.decode_nil {u : LdUnit} {decode : List Code → Except Code (List Byte)} (h : LdAwaits u decode) :
    decode [] = .ok [] := by
  cases h <;> rfl

/-- Two parts of a decoding that both succeed. -/
theorem eq_append_of_map_eq_ok {entry bytes : List Byte} {r : Except Code (List Byte)}
    (h : r.map (fun out => entry ++ out) = .ok bytes) : ∃ rest, r = .ok rest ∧ bytes = entry ++ rest := by
  cases r with
  | error c => cases h
  | ok rest => exact ⟨rest, rfl, (Except.ok.inj h).symm⟩

/-- `ld_step` on a code that `LZW_decode` accepts outputs what the round of the loop outputs, counts it, and leaves LD in the next
round (R74). -/
theorem LdAwaits.ldStep {s : State} {decode : List Code → Except Code (List Byte)} {c : Code} {codes : List Code}
    {bytes : List Byte} (h : LdAwaits s.ld decode) (hok : decode (c :: codes) = .ok bytes) :
    ∃ ld entry rest decode', ldStep c s = .done ({ s with ld := ld }.pushBytes .dbyte entry) ∧
      ld.nbytes = s.ld.nbytes + BitVec.ofNat 32 entry.length ∧ bytes = entry ++ rest ∧ LdAwaits ld decode' ∧
      decode' codes = .ok rest := by
  cases h with
  | first hv holds =>
    rw [lzwDecode] at hok
    split at hok
    next hsingle =>
      obtain ⟨rest, hrest, rfl⟩ := eq_append_of_map_eq_ok (entry := [c.setWidth 8]) hok
      have hreads := (LdString.singleton (s.ld.accepted c [c.setWidth 8]) hsingle).reads
      exact ⟨_, _, rest, _, ldStep_first hv hsingle, rfl, rfl, .later [] _ rfl (holds.accepted _ _) hreads, hrest⟩
    next => cases hok
  | later learned prev hv holds hprev =>
    have hnext := holds.next
    cases hres : resolveCode learned prev c with
    | none => simp [lzwDecodeFrom, hres] at hok
    | some entry =>
      rw [lzwDecodeFrom_cons hres] at hok
      obtain ⟨rest, hrest, rfl⟩ := eq_append_of_map_eq_ok hok
      obtain ⟨f, hf, hstep, hreads⟩ := ldStep_later (by omega) hv hprev (holds.resolves hres)
      rw [hf] at hrest
      exact ⟨_, entry, rest, _, hstep, by simp [LdUnit.accepted], rfl,
        .later _ _ rfl ((holds.insert hprev f).accepted c entry) (hreads.extend (LdUnit.accepted_extends _ _ _)), hrest⟩

/-! ## What a call still outputs -/

/-- `t` is a state in which a call ends that, in `s`, has `n` commands and `bytes` to come: LD is fresh, the bytes and the report are
pushed, BU is cleared, and every other unit is as it was (R74, R78). -/
structure DecodeEnds (s : State) (n : Nat) (bytes : List Byte) (t : State) : Prop where
  fresh : LdFresh t.ld
  eq : t = { s with
    cp := s.cp + n
    bu := ⟨0, 0⟩
    ld := t.ld
    out := s.out ++ bytes.map (fun b => ⟨.dbyte, BitVec.ofNat 32 b.toNat⟩) ++
      [⟨.ldDone, s.ld.nbytes + BitVec.ofNat 32 bytes.length⟩] }

/-- `LD.END` pushes the report (R78). -/
theorem ldEnd_ends (s : State) : DecodeEnds s 1 [] ((ldEnd s).advance 1) :=
  ⟨⟨rfl, rfl, rfl, rfl⟩, by simp [ldEnd, State.push, State.advance]⟩

section
variable {s t : State} {n : Nat} {bytes : List Byte}

/-- A command that has moved the command pointer was one to come. -/
theorem DecodeEnds.of_advance (h : DecodeEnds (s.advance 1) n bytes t) : DecodeEnds s (n + 1) bytes t where
  fresh := h.fresh
  eq := by rw [h.eq]; simp [State.advance, Nat.add_assoc, Nat.add_comm 1]

/-- What the unpacker holds does not outlast the call. -/
theorem DecodeEnds.of_bu {bu : BuUnit} (h : DecodeEnds { s with bu := bu } n bytes t) : DecodeEnds s n bytes t :=
  ⟨h.fresh, h.eq⟩

/-- Bytes output and counted were the first to come (R75). -/
theorem DecodeEnds.of_output {ld : LdUnit} {entry : List Byte} (h : DecodeEnds ({ s with ld := ld }.pushBytes .dbyte entry) n bytes t)
    (hcount : ld.nbytes = s.ld.nbytes + BitVec.ofNat 32 entry.length) : DecodeEnds s n (entry ++ bytes) t where
  fresh := h.fresh
  eq := by
    rw [h.eq]
    simp [State.pushBytes, zext32_eq, hcount, BitVec.ofNat_add, BitVec.add_assoc]

end

/-! ## Calls on codes (R76) -/

/-- The rest of a call outputs what `LZW_decode` does with the codes to come (R74). -/
theorem execAll_lzwDecode (codes : List Code) {s : State} {decode : List Code → Except Code (List Byte)} {bytes : List Byte}
    (h : LdAwaits s.ld decode) (hok : decode codes = .ok bytes) :
    ∃ t, execAll (Pseudo.lzwDecode codes) s = .next t ∧ DecodeEnds s (codes.length + 1) bytes t := by
  induction codes generalizing s decode bytes with
  | nil =>
    obtain rfl := Except.ok.inj (h.decode_nil.symm.trans hok)
    exact ⟨_, rfl, ldEnd_ends s⟩
  | cons c codes ih =>
    obtain ⟨ld, entry, rest, decode', hstep, hcount, rfl, hawaits, hrest⟩ := h.ldStep hok
    have hexec : exec (.ldCode c) s = .next (({ s with ld := ld }.pushBytes .dbyte entry).advance 1) := by
      rw [exec_eq_complete_body, body, hstep]; rfl
    obtain ⟨t, hcall, hends⟩ := ih (s := ({ s with ld := ld }.pushBytes .dbyte entry).advance 1) hawaits hrest
    refine ⟨t, ?_, hends.of_advance.of_output hcount⟩
    show execAll (.ldCode c :: Pseudo.lzwDecode codes) s = _
    simp only [execAll, hexec, hcall]

/-- Settles O35: a fresh decoder awaits the first code of `LZW_decode`. -/
theorem decodeCallIsLzwDecode : Obligations.DecodeCallIsLzwDecode := by
  unfold Obligations.DecodeCallIsLzwDecode
  intro s codes bytes hfresh hok
  obtain ⟨t, hexec, hends⟩ := execAll_lzwDecode codes (LdAwaits.of_fresh hfresh) hok
  obtain ⟨-, -, -, hcount⟩ := hfresh
  have heq := hends.eq
  rw [hcount, zero_add] at heq
  exact ⟨t, hexec, congrArg State.out heq, hends.fresh, by rw [heq]; rfl⟩

end Sys2Proof.Machine

/-! PROOF. The dictionary codec's round trip (41_lzw_decoder.md R79): `LZW_decode` inverts `LZW_encode`, and the unpacker completes
the codes of a packed stream (42_bitpack.md R82, R87). -/

namespace Sys2Proof.Machine

/-! ## `LZW_decode` inverts `LZW_encode` (R68, R74) -/

/-- The code of a string, in 12 bits, names it (R68, R74). -/
theorem stringOfCode_codeOfString {learned : List (List Byte)} (hroom : learned.length ≤ 3840) {t : List Byte} (ht : t ≠ []) {n : Nat}
    (h : codeOfString learned t = some n) : stringOfCode learned (BitVec.ofNat 12 n) = some t := by
  match t, ht with
  | [b], _ =>
    rw [codeOfString_singleton] at h
    rw [← Option.some.inj h, BitVec.ofNat_toNat]
    exact stringOfCode_setWidth learned b
  | a :: b :: t, _ =>
    rw [codeOfString_long learned (by simp)] at h
    obtain ⟨j, hj, rfl⟩ := Option.map_eq_some_iff.mp h
    obtain ⟨hlt, heq, -⟩ := List.findIdx?_eq_some_iff_getElem.mp hj
    have hcode : (BitVec.ofNat 12 (256 + j)).toNat = 256 + j := Nat.mod_eq_of_lt (by omega)
    rw [stringOfCode_entry _ (by omega), hcode, Nat.add_sub_cancel_left, List.getElem?_eq_getElem hlt, beq_iff_eq.mp heq]

/-- The decoder is one string behind the encoder, and resolves the code of the accumulator `cur` all the same: the string it has not
learned yet is the previous string and the first byte of `cur`, and its code is the self-referential one (R79). -/
theorem resolveCode_codeOfString {learned : List (List Byte)} (hroom : learned.length ≤ 3840) {prev cur : List Byte}
    (hprev : prev ≠ []) (hcur : cur ≠ []) {n : Nat} (h : codeOfString (learn learned (prev ++ cur.take 1)) cur = some n) :
    resolveCode learned prev (BitVec.ofNat 12 n) = some cur := by
  have hnames := stringOfCode_codeOfString (length_learn_le hroom _) hcur h
  rcases stringOfCode_learn_cases hnames with hold | ⟨hnew, -, heq⟩
  · rw [resolveCode_of_lt prev (lt_of_stringOfCode hold), hold]
  · have hfirst : cur.take 1 = prev.take 1 := by
      rw [heq, List.take_append_of_le_length (List.length_pos_of_ne_nil hprev)]
    rw [resolveCode_next prev hnew, ← hfirst, ← heq]

/-- From any round of `LZW_encode`'s loop the codes to come decode to the accumulator and the rest of the input (R79). -/
theorem lzwDecodeFrom_lzwEncodeFrom (input : List Byte) {learned : List (List Byte)} {prev cur : List Byte}
    (hroom : learned.length ≤ 3840) (hprev : prev ≠ []) (hcur : cur ≠ [])
    (hkey : (codeOfString (learn learned (prev ++ cur.take 1)) cur).isSome) :
    lzwDecodeFrom learned prev (lzwEncodeFrom (learn learned (prev ++ cur.take 1)) cur input) = .ok (cur ++ input) := by
  induction input generalizing learned prev cur with
  | nil =>
    obtain ⟨n, hn⟩ := Option.isSome_iff_exists.mp hkey
    rw [lzwEncodeFrom, if_neg hcur, hn, Option.getD_some, lzwDecodeFrom_cons (resolveCode_codeOfString hroom hprev hcur hn)]
    rfl
  | cons x xs ih =>
    by_cases hlonger : (codeOfString (learn learned (prev ++ cur.take 1)) (cur ++ [x])).isSome
    · have hfirst : (cur ++ [x]).take 1 = cur.take 1 := List.take_append_of_le_length (List.length_pos_of_ne_nil hcur)
      have hrest := ih hroom hprev (cur := cur ++ [x]) (by simp) (by rwa [hfirst])
      rw [hfirst, List.append_assoc] at hrest
      rw [lzwEncodeFrom, if_pos hlonger, hrest]
      rfl
    · obtain ⟨n, hn⟩ := Option.isSome_iff_exists.mp hkey
      have hrest := ih (length_learn_le hroom (prev ++ cur.take 1)) hcur (cur := [x]) (by simp) rfl
      rw [lzwEncodeFrom, if_neg hlonger, hn, Option.getD_some,
        lzwDecodeFrom_cons (resolveCode_codeOfString hroom hprev hcur hn)]
      exact congrArg (Except.map _) hrest

/-- The first round of `LZW_decode` on the code of a byte (R74). -/
theorem lzwDecode_cons (b : Byte) (codes : List Code) :
    lzwDecode (BitVec.ofNat 12 b.toNat :: codes) = (lzwDecodeFrom [] [b] codes).map (fun out => b :: out) := by
  have hb := b.isLt
  have hcode : (b.setWidth 12).toNat = b.toNat := BitVec.toNat_setWidth_of_le (by decide)
  have hback : (b.setWidth 12).setWidth 8 = b := by simp [BitVec.setWidth_setWidth_of_le]
  rw [BitVec.ofNat_toNat, lzwDecode, if_pos (show _ < Config.nsym from hcode.trans_lt hb), hback]

/-- `LZW_decode(LZW_encode(B)) = B` (R79). -/
theorem lzwDecode_lzwEncode (input : List Byte) : lzwDecode (lzwEncode input) = .ok input := by
  match input with
  | [] => rfl
  | [b] => exact lzwDecode_cons b []
  | b :: x :: xs =>
    have hrest := lzwDecodeFrom_lzwEncodeFrom xs (learned := []) (prev := [b]) (cur := [x]) (by simp) (by simp) (by simp) rfl
    exact (lzwDecode_cons b _).trans (congrArg (Except.map _) hrest)

/-! ## Packed streams at the unpacker (R82, R87) -/

/-- The two things a byte can do at an unpacker, in numbers: with fewer than 4 bits held it joins them, with 4 or more it completes a
code of the 12 lowest bits (R82). -/
theorem buFeed_toNat_cases {u : BuUnit} (h : BuInv u) (b : Byte) {held : Nat}
    (hheld : u.buf.toNat + b.toNat * 2 ^ u.n.toNat = held) :
    (u.n.toNat < 4 ∧ (buFeed b u).1 = none ∧ (buFeed b u).2.n.toNat = u.n.toNat + 8 ∧ (buFeed b u).2.buf.toNat = held) ∨
      (4 ≤ u.n.toNat ∧ (buFeed b u).1 = some (BitVec.ofNat 12 held) ∧ (buFeed b u).2.n.toNat = u.n.toNat - 4 ∧
        (buFeed b u).2.buf.toNat = held / 2 ^ 12) := by
  have hn := h.n
  have hlt : held < 2 ^ (u.n.toNat + 8) := hheld ▸ append_lt_two_pow h.buf b.isLt
  rcases Nat.lt_or_ge u.n.toNat 4 with hfew | hmany
  · have hbuf : held < 2 ^ 12 := hlt.trans_le (Nat.pow_le_pow_right (by decide) (by omega))
    rw [buFeed_few b u hfew, hheld]
    exact .inl ⟨hfew, rfl, Nat.mod_eq_of_lt (by omega), Nat.mod_eq_of_lt hbuf⟩
  · have hbuf : held / 2 ^ 12 < 2 ^ 12 :=
      (div_lt_two_pow hlt (by omega)).trans_le (Nat.pow_le_pow_right (by decide) (by omega))
    rw [buFeed_code b u hmany, hheld]
    exact .inr ⟨hmany, rfl, Nat.mod_eq_of_lt (by omega), Nat.mod_eq_of_lt hbuf⟩

/-- The codes that bytes complete at an unpacker that holds `u` (R82). -/
def completedCodes (u : BuUnit) : List Byte → List Code
  | [] => []
  | b :: bytes => (buFeed b u).1.toList ++ completedCodes (buFeed b u).2 bytes

/-- The `k` lowest 12-bit groups of a number, lowest first. -/
def lowCodes : Nat → Nat → List Code
  | 0, _ => []
  | k + 1, v => BitVec.ofNat 12 v :: lowCodes k (v / 2 ^ 12)

/-- What lies above the lowest group does not change it. -/
theorem lowCodes_succ_add_mul (k v w : Nat) :
    lowCodes (k + 1) (v + 2 ^ 12 * w) = BitVec.ofNat 12 v :: lowCodes k (v / 2 ^ 12 + w) := by
  have hgroup : BitVec.ofNat 12 (v + 2 ^ 12 * w) = BitVec.ofNat 12 v := by
    apply BitVec.eq_of_toNat_eq
    rw [BitVec.toNat_ofNat, BitVec.toNat_ofNat, Nat.add_mul_mod_self_left]
  rw [lowCodes, hgroup, Nat.add_mul_div_left _ _ (by decide)]

/-- The codes completed are the groups of one number: the bits held, and above them the bytes fed (R44, R82). -/
theorem completedCodes_lowBytes (m v : Nat) {u : BuUnit} (h : BuInv u) :
    completedCodes u (lowBytes m v) = lowCodes ((u.n.toNat + 8 * m) / 12) (u.buf.toNat + 2 ^ u.n.toNat * v) := by
  induction m generalizing v u with
  | zero =>
    have hn := h.n
    rw [show (u.n.toNat + 8 * 0) / 12 = 0 by omega]
    rfl
  | succ m ih =>
    obtain ⟨held, hheld⟩ : ∃ held, u.buf.toNat + (BitVec.ofNat 8 v).toNat * 2 ^ u.n.toNat = held := ⟨_, rfl⟩
    have hvalue : u.buf.toNat + 2 ^ u.n.toNat * v = held + 2 ^ (u.n.toNat + 8) * (v / 256) := by
      rw [← hheld, BitVec.toNat_ofNat, Nat.pow_add]
      conv_lhs => rw [← Nat.mod_add_div v 256]
      ring
    rw [lowBytes, completedCodes, ih _ (h.buFeed _), hvalue]
    rcases buFeed_toNat_cases h _ hheld with ⟨-, hcode, hn, hbuf⟩ | ⟨hmany, hcode, hn, hbuf⟩
    · rw [hcode, hn, hbuf, show u.n.toNat + 8 + 8 * m = u.n.toNat + 8 * (m + 1) by ring]
      rfl
    · have hcount : (u.n.toNat + 8 * (m + 1)) / 12 = (u.n.toNat - 4 + 8 * m) / 12 + 1 := by omega
      have hpow : 2 ^ (u.n.toNat + 8) = 2 ^ 12 * 2 ^ (u.n.toNat - 4) := by
        rw [← Nat.pow_add]; congr 1; omega
      rw [hcode, hn, hbuf, hcount, hpow, Nat.mul_assoc, lowCodes_succ_add_mul]
      rfl

/-- The groups of the number that codes make are the codes (R44). -/
theorem lowCodes_bitsValue (codes : List Code) : lowCodes codes.length (bitsValue (codes.flatMap (lowBits 12))) = codes := by
  induction codes with
  | nil => rfl
  | cons c codes ih =>
    have hcode : BitVec.ofNat 12 c.toNat = c := by rw [BitVec.ofNat_toNat, BitVec.setWidth_eq]
    rw [bitsValue_flatMap_lowBits_cons, List.length_cons, lowCodes_succ_add_mul, hcode, Nat.div_eq_of_lt c.isLt, Nat.zero_add, ih]

/-- An empty unpacker completes exactly the codes of a packed stream: the padding is shorter than a code (R87). -/
theorem completedCodes_packedCodes (codes : List Code) : completedCodes ⟨0, 0⟩ (packedCodes codes) = codes := by
  have hcount : (0 + 8 * ((12 * codes.length + 7) / 8)) / 12 = codes.length := by omega
  have hvalue : ∀ v, 0 + 2 ^ 0 * v = v := by simp
  rw [packedCodes, bytesOfBits_eq_lowBytes, length_flatMap_lowBits, completedCodes_lowBytes _ _ BuInv.empty]
  exact (congrArg₂ lowCodes hcount (hvalue _)).trans (lowCodes_bitsValue codes)

/-! ## Calls on packed bytes (R77) -/

/-- The rest of a packed call outputs what `LZW_decode` does with the codes that the bytes to come complete (R77). -/
theorem execAll_lzwDecodePacked (packed : List Byte) {s : State} {decode : List Code → Except Code (List Byte)} {bytes : List Byte}
    (h : LdAwaits s.ld decode) (hok : decode (completedCodes s.bu packed) = .ok bytes) :
    ∃ t, execAll (Pseudo.lzwDecodePacked packed) s = .next t ∧ DecodeEnds s (packed.length + 1) bytes t := by
  induction packed generalizing s decode bytes with
  | nil =>
    obtain rfl := Except.ok.inj (h.decode_nil.symm.trans hok)
    exact ⟨_, rfl, ldEnd_ends s⟩
  | cons b packed ih =>
    show ∃ t, execAll (.ldByte b :: Pseudo.lzwDecodePacked packed) s = .next t ∧ _
    rw [completedCodes] at hok
    match hfed : buFeed b s.bu with
    | (none, u) =>
      rw [hfed] at hok
      have hexec : exec (.ldByte b) s = .next ({ s with bu := u }.advance 1) := by
        rw [exec_eq_complete_body, body_ldByte_none hfed]; rfl
      obtain ⟨t, hcall, hends⟩ := ih (s := { s with bu := u }.advance 1) h hok
      exact ⟨t, by simp only [execAll, hexec, hcall], hends.of_advance.of_bu⟩
    | (some c, u) =>
      rw [hfed] at hok
      obtain ⟨ld, entry, rest, decode', hstep, hcount, rfl, hawaits, hrest⟩ := LdAwaits.ldStep (s := { s with bu := u }) h hok
      have hexec : exec (.ldByte b) s = .next (({ s with bu := u, ld := ld }.pushBytes .dbyte entry).advance 1) := by
        rw [exec_eq_complete_body, body_ldByte_code hfed, hstep]; rfl
      obtain ⟨t, hcall, hends⟩ := ih (s := ({ s with bu := u, ld := ld }.pushBytes .dbyte entry).advance 1) hawaits hrest
      exact ⟨t, by simp only [execAll, hexec, hcall], (hends.of_advance.of_output hcount).of_bu⟩

/-- Settles O36: both calls decode the codes of `LZW_encode(B)`. -/
theorem lzwRoundTrip : Obligations.LzwRoundTrip := by
  unfold Obligations.LzwRoundTrip
  intro s B hfresh
  have hok := lzwDecode_lzwEncode B
  refine ⟨?_, fun hempty => ?_⟩
  · obtain ⟨t, hexec, hout, -⟩ := decodeCallIsLzwDecode s _ _ hfresh hok
    exact ⟨t, hexec, hout⟩
  · obtain ⟨t, hexec, hends⟩ := execAll_lzwDecodePacked (packedCodes (lzwEncode B)) (LdAwaits.of_fresh hfresh)
      (by rw [hempty, completedCodes_packedCodes]; exact hok)
    obtain ⟨-, -, -, hcount⟩ := hfresh
    have heq := hends.eq
    rw [hcount, zero_add] at heq
    exact ⟨t, hexec, congrArg State.out heq⟩

end Sys2Proof.Machine

/-! PROOF. The packer's and the unpacker's own commands (42_bitpack.md R80 to R87). -/

namespace Sys2Proof.Machine

theorem exec_bpPut (c : Code) (s : State) : exec (.bpPut c) s = .next ((bpPut c s).advance 1) := rfl

theorem exec_bpFlush (s : State) : exec .bpFlush s = .next ((bpFlush s).advance 1) := rfl

theorem exec_buEnd (s : State) : exec .buEnd s = .next ({ s with bu := ⟨0, 0⟩ }.advance 1) := rfl

/-- `BU.PUT b` writes the unpacker, and outputs the code that `b` completes, if any (R85). -/
theorem exec_buPut (b : Byte) (s : State) : exec (.buPut b) s = .next { s with
    cp := s.cp + 1
    bu := (buFeed b s.bu).2
    out := s.out ++ (buFeed b s.bu).1.toList.map (fun c => ⟨.ucode, zext32 c⟩) } := by
  rw [exec_eq_complete_body, body]
  match buFeed b s.bu with
  | (none, u) => simp [State.advance, Instr.length_eq, encode]
  | (some c, u) => rfl

/-- The `k` lowest bits of a number, as the data of an output word. -/
theorem zext32_ofNat (k v : Nat) : zext32 (BitVec.ofNat k v) = BitVec.ofNat 32 (v % 2 ^ k) := by
  rw [zext32_eq, BitVec.toNat_ofNat]

/-- Settles O37: the 12 bits of `c` complete one byte above fewer than 4 bits, and two above more. -/
theorem bpPutOutputsCompleteBytes : Obligations.BpPutOutputsCompleteBytes := by
  unfold Obligations.BpPutOutputsCompleteBytes
  rintro c s buf n rfl rfl
  refine ⟨fun hfew => ?_, fun hmany => ?_⟩
  · simp only [exec_bpPut, bpPut_few c s hfew, State.pushBytes, List.map, zext32_ofNat]
    rfl
  · simp only [exec_bpPut, bpPut_many c s hmany, State.pushBytes, List.map, zext32_ofNat]
    rfl

/-- With no bits held there is no partial byte (R81). -/
theorem bpFlush_of_none {s : State} (h : s.bp.n = 0) : bpFlush s = s := if_neg (by simp [h])

/-- With bits held, the buffer is the partial byte (R81). -/
theorem bpFlush_of_some {s : State} (h : s.bp.n ≠ 0) : bpFlush s = { s with bp := ⟨0, 0⟩ }.push .lbyte (zext32 s.bp.buf) :=
  if_pos (by bv_omega)

/-- Settles O38: `bp_flush` asks only whether any bits remain, and `BU.END` asks nothing. -/
theorem bpFlushAndBuEndEmptyTheBuffers : Obligations.BpFlushAndBuEndEmptyTheBuffers := by
  unfold Obligations.BpFlushAndBuEndEmptyTheBuffers
  refine fun s => ⟨fun hnone => ?_, fun hsome => ?_, exec_buEnd s⟩
  · rw [exec_bpFlush, bpFlush_of_none hnone]
    rfl
  · rw [exec_bpFlush, bpFlush_of_some hsome, zext32_eq]
    rfl

/-- Settles O39: a byte completes a code where at least 4 bits are held. -/
theorem buPutOutputsCompleteCodes : Obligations.BuPutOutputsCompleteCodes := by
  unfold Obligations.BuPutOutputsCompleteCodes
  rintro b s buf rfl
  refine ⟨fun hfew => ?_, fun hmany => ?_⟩
  · rw [exec_buPut, buFeed_few b s.bu hfew]
    simp
  · rw [exec_buPut, buFeed_code b s.bu hmany]
    simp [zext32_ofNat]

/-- Putting bytes into the unpacker and ending it pushes the codes they complete and leaves the unpacker empty (R82, R86). -/
theorem execAll_unpack (bytes : List Byte) (s : State) :
    execAll (Pseudo.unpack bytes) s = .next { s with
      cp := s.cp + bytes.length + 1
      bu := ⟨0, 0⟩
      out := s.out ++ (completedCodes s.bu bytes).map (fun c => ⟨.ucode, zext32 c⟩) } := by
  induction bytes generalizing s with
  | nil =>
    show execAll [.buEnd] s = _
    simp [execAll, exec_buEnd, State.advance, completedCodes]
  | cons b bytes ih =>
    show execAll (.buPut b :: Pseudo.unpack bytes) s = _
    simp only [execAll, exec_buPut, ih]
    simp [completedCodes, Nat.add_assoc, Nat.add_comm 1]

/-- Settles O41: the codes that a packed stream completes at an empty unpacker are the codes packed. -/
theorem unpackInvertsPack : Obligations.UnpackInvertsPack := by
  unfold Obligations.UnpackInvertsPack
  intro s codes hempty
  rw [execAll_unpack, hempty, completedCodes_packedCodes, ← hempty]
  simp only [zext32_eq]

end Sys2Proof.Machine

/-! PROOF. The commands on the frequencies and the reads (43_huffman_tree.md R88 to R90, R94 to R96). -/

namespace Sys2Proof.Machine

/-! ## The frequency commands (R88 to R90) -/

theorem exec_hfClear (s : State) : exec .hfClear s = .next ((hfClear s).advance 1) := rfl

theorem exec_hfSetfreq (b : Byte) (count : Word) (s : State) :
    exec (.hfSetfreq b count) s = .next ((setFreq b count s).advance 2) := rfl

/-- Writing a frequency sets that symbol's and leaves the others (R89, R90). -/
theorem freqOf_setFreq (b : Byte) (v : Word) (s : State) (a : Byte) :
    (setFreq b v s).ht.freqOf a.toNat = if a = b then v else s.ht.freqOf a.toNat := by
  simp [setFreq, HtUnit.freqOf, Memory.read_write, BitVec.toNat_inj]

/-- Settles O42: an empty frequency memory reads as zero everywhere, and a write to it changes one symbol. -/
theorem hfClearAndSetfreqWriteFrequencies : Obligations.HfClearAndSetfreqWriteFrequencies := by
  unfold Obligations.HfClearAndSetfreqWriteFrequencies
  exact ⟨fun s => ⟨_, exec_hfClear s, fun _ => rfl, rfl⟩,
    fun b count s => ⟨_, exec_hfSetfreq b count s, freqOf_setFreq b count s, rfl⟩⟩

/-- The end of a one-word command that raises an error (R62, R111). -/
theorem complete_error_of_word {i : Instr} {e : ErrorKind} {info : BitVec 16} {word : Word} (hlen : i.length = 1)
    (hword : errorWord e info i.opcode = word) (s : State) : complete i (.error e info s) = .next { s with
      cp := s.cp + 1
      hi := s.hi.record word
      out := s.out ++ [⟨.err, word⟩] } := by
  rw [complete_error, hlen, raise, hword]
  rfl

/-- `HF.COUNT b` counts below the largest count, and at it raises an error (R89). -/
theorem exec_hfCount (b : Byte) (s : State) : exec (.hfCount b) s = complete (.hfCount b)
    (if (s.ht.freqOf b.toNat).toNat = 2 ^ 32 - 1 then .error .overflow (0x0100#16 + b.setWidth 16) s
    else .done (setFreq b (s.ht.freqOf b.toNat + 1) s)) := rfl

/-- Settles O43: below the largest count the sum does not wrap, and at it nothing but the error is written. -/
theorem hfCountCountsOrOverflows : Obligations.HfCountCountsOrOverflows := by
  unfold Obligations.HfCountCountsOrOverflows
  refine fun b s => ⟨fun h => ?_, fun h => ?_⟩
  · rw [exec_hfCount, if_neg h]
    refine ⟨_, rfl, ?_, fun a ha => (freqOf_setFreq b _ s a).trans (if_neg ha), rfl⟩
    show ((setFreq b _ s).ht.freqOf b.toNat).toNat = _
    rw [freqOf_setFreq, if_pos rfl]
    bv_omega
  · have hinfo : (0x0100#16 + b.setWidth 16).toNat = 0x0100 + b.toNat := by bv_omega
    have hword := errorWord_eq .overflow (0x0100#16 + b.setWidth 16) (Instr.hfCount b).opcode
      ((0x0100 + b.toNat) * 2 ^ 16 + 0x3106) (by simp only [hinfo, Instr.opcode, ErrorKind.code]; rw [Nat.add_assoc]; rfl)
    rw [exec_hfCount, if_pos h, complete_error_of_word rfl hword]

/-! ## The reads (R94 to R96) -/

theorem exec_hfRdfreq (b : Byte) (s : State) :
    exec (.hfRdfreq b) s = .next ((s.push .reg (s.ht.freqOf b.toNat)).advance 1) := rfl

/-- The bits of a code from bit `32w` up, as a word (R96). -/
theorem codeSlice_eq (bits : BitVec 256) (w : BitVec 3) :
    codeSlice bits w = BitVec.ofNat 32 (bits.toNat / 2 ^ (32 * w.toNat)) := by
  rw [codeSlice, BitVec.extractLsb', Nat.shiftRight_eq_div_pow]

/-- Settles O44: with a valid tree each read pushes one word, and without one the codebook reads raise `E_NOTREE`. -/
theorem hfReadsPushAndChangeNothing : Obligations.HfReadsPushAndChangeNothing := by
  unfold Obligations.HfReadsPushAndChangeNothing
  refine fun b w s => ⟨exec_hfRdfreq b s, fun h => ?_, fun h => ?_⟩
  · rw [← zext32_eq, ← codeSlice_eq, exec_eq_complete_body, body, if_pos h, exec_eq_complete_body, body, if_pos h]
    exact ⟨rfl, rfl⟩
  · have hoff : ¬ s.ht.treeValid = true := by simp [h]
    rw [exec_eq_complete_body, body, if_neg hoff, exec_eq_complete_body, body, if_neg hoff]
    have hlen : errorWord .noTree 0 (Instr.hfRdlen b).opcode = 0x00003904 := by simp only [Instr.opcode]; decide
    have hcode : errorWord .noTree 0 (Instr.hfRdcode b w).opcode = 0x00003A04 := by simp only [Instr.opcode]; decide
    exact ⟨complete_error_of_word rfl hlen s, complete_error_of_word rfl hcode s⟩

end Sys2Proof.Machine

/-! PROOF. The loop of `build_tree` (43_huffman_tree.md R91): what a round does, what every round keeps, and the nodes it builds. -/

namespace Sys2Proof.Machine

/-! ## The rounds of the loop -/

/-- `x` and then `y` are the two least of the live nodes, and `rest` are the others (R91). -/
structure TwoLeast (live : List LiveNode) (x y : LiveNode) (rest : List LiveNode) : Prop where
  perm : live.Perm (x :: y :: rest)
  first : ∀ z ∈ y :: rest, z.before x = false
  second : ∀ z ∈ rest, z.before y = false

/-- The node that a round builds at index `k` (R91). -/
def LiveNode.join (x y : LiveNode) (k : Nat) : LiveNode := ⟨x.weight + y.weight, BitVec.ofNat 9 k⟩

/-- The arena after that round (R91). -/
def joinAt (arena : Memory Node) (x y : LiveNode) (k : Nat) : Memory Node := arena.write Node.blank k ⟨some x.idx, some y.idx⟩

theorem read_joinAt (arena : Memory Node) (x y : LiveNode) (k j : Nat) :
    (joinAt arena x y k).read Node.blank j = if j = k then ⟨some x.idx, some y.idx⟩ else arena.read Node.blank j :=
  Memory.read_write ..

/-- With two live nodes or more a round combines the two least (R91). -/
theorem combine_round (rounds k : Nat) (arena : Memory Node) {live : List LiveNode} (h : 2 ≤ live.length) :
    ∃ x y rest, TwoLeast live x y rest ∧
      combine (rounds + 1) live k arena = combine rounds (x.join y k :: rest) (k + 1) (joinAt arena x y k) := by
  cases hx : takeLeast live with
  | none => simp [takeLeast_none.mp hx] at h
  | some p =>
    obtain ⟨x, others⟩ := p
    have hpx := takeLeast_perm hx
    cases hy : takeLeast others with
    | none => simp [hpx.length_eq, takeLeast_none.mp hy] at h
    | some q =>
      obtain ⟨y, rest⟩ := q
      have hpy := takeLeast_perm hy
      refine ⟨x, y, rest, ⟨hpx.trans (hpy.cons x), fun z hz => ?_, takeLeast_least hy⟩, by simp only [combine, hx, hy]; rfl⟩
      exact takeLeast_least hx z (hpy.mem_iff.mpr hz)

/-- One live node ends the loop (R91). -/
theorem combine_singleton (rounds k : Nat) (arena : Memory Node) (z : LiveNode) :
    combine rounds [z] k arena = ([z], arena) := by
  cases rounds <;> rfl

section
variable {P : List LiveNode → Nat → Memory Node → Prop}
  (hround : ∀ {live k arena x y rest}, P live k arena → TwoLeast live x y rest →
    P (x.join y k :: rest) (k + 1) (joinAt arena x y k))
include hround

/-- What every round keeps holds of the one node left, each round having taken one live node away (R91). -/
theorem combine_ends (rounds : Nat) {live : List LiveNode} {k : Nat} {arena : Memory Node} (h : P live k arena)
    (hpos : 0 < live.length) (hrounds : live.length ≤ rounds + 1) :
    ∃ z, (combine rounds live k arena).1 = [z] ∧ P [z] (k + live.length - 1) (combine rounds live k arena).2 := by
  induction rounds generalizing live k arena with
  | zero =>
    obtain ⟨z, rfl⟩ := List.length_eq_one_iff.mp (by omega : live.length = 1)
    exact ⟨z, rfl, h⟩
  | succ rounds ih =>
    rcases Nat.lt_or_ge live.length 2 with hone | htwo
    · obtain ⟨z, rfl⟩ := List.length_eq_one_iff.mp (by omega : live.length = 1)
      rw [combine_singleton]
      exact ⟨z, rfl, h⟩
    · obtain ⟨x, y, rest, hleast, heq⟩ := combine_round rounds k arena htwo
      have hlen : live.length = rest.length + 2 := hleast.perm.length_eq
      obtain ⟨z, hz, hP⟩ := ih (hround h hleast) (by simp) (by simp; omega)
      rw [heq]
      refine ⟨z, hz, ?_⟩
      convert hP using 1
      simp only [List.length_cons]
      omega

end

/-! ## The built tree by its number of leaves -/

theorem mem_leavesOf {u : HtUnit} {b : Nat} : b ∈ leavesOf u ↔ b < 256 ∧ u.freqOf b ≠ 0 := by
  simp [leavesOf, Config.nsym]

theorem nodup_leavesOf (u : HtUnit) : (leavesOf u).Nodup := List.nodup_range.filter _

@[simp] theorem length_liveLeaves (u : HtUnit) : (liveLeaves u).length = (leavesOf u).length := List.length_map ..

/-- The first live nodes have the leaves as their indices (R91). -/
theorem map_idx_liveLeaves (u : HtUnit) : (liveLeaves u).map (fun x => x.idx.toNat) = leavesOf u := by
  rw [liveLeaves, List.map_map]
  refine (List.map_congr_left fun b hb => ?_).trans (List.map_id _)
  exact Nat.mod_eq_of_lt (Nat.lt_trans (mem_leavesOf.mp hb).1 (by decide))


/-- The number of leaves as the unit holds it (R91). -/
theorem toNat_nleaves (u : HtUnit) : (BitVec.ofNat 9 (leavesOf u).length).toNat = (leavesOf u).length :=
  Nat.mod_eq_of_lt (Nat.lt_of_le_of_lt (length_leavesOf_le u) (by decide))

theorem buildTree_of_none {u : HtUnit} (h : leavesOf u = []) : (buildTree u).root = none := by
  simp [buildTree, liveLeaves, h]

theorem buildTree_of_one {u : HtUnit} {b : Nat} (h : leavesOf u = [b]) : (buildTree u).root = some 256 ∧
    (buildTree u).node = u.node.write Node.blank 256 ⟨some (BitVec.ofNat 9 b), none⟩ := by
  simp [buildTree, liveLeaves, h]

theorem buildTree_of_many {u : HtUnit} (h : 2 ≤ (leavesOf u).length) :
    (buildTree u).root = (combine (leavesOf u).length (liveLeaves u) 256 u.node).1.head?.map (fun z => z.idx) ∧
      (buildTree u).node = (combine (leavesOf u).length (liveLeaves u) 256 u.node).2 := by
  rw [← length_liveLeaves] at h ⊢
  unfold buildTree
  match liveLeaves u, h with
  | x :: y :: live, _ => exact ⟨rfl, rfl⟩

/-- With two leaves or more, what holds of the leaves and what every round keeps holds of the root and the arena built (R91). -/
theorem buildTree_ends {P : List LiveNode → Nat → Memory Node → Prop} {u : HtUnit} (hinit : P (liveLeaves u) 256 u.node)
    (hround : ∀ {live k arena x y rest}, P live k arena → TwoLeast live x y rest →
      P (x.join y k :: rest) (k + 1) (joinAt arena x y k)) (h : 2 ≤ (leavesOf u).length) :
    ∃ z, (buildTree u).root = some z.idx ∧ P [z] (255 + (leavesOf u).length) (buildTree u).node := by
  obtain ⟨hroot, hnode⟩ := buildTree_of_many h
  obtain ⟨z, hz, hP⟩ := combine_ends hround (leavesOf u).length hinit (by simp; omega) (by simp)
  rw [hroot, hnode, hz]
  refine ⟨z, rfl, ?_⟩
  convert hP using 1
  simp only [length_liveLeaves]
  omega

/-- The root is the last internal node built (R91). -/
theorem buildTree_root {u : HtUnit} (h : 2 ≤ (leavesOf u).length) :
    (buildTree u).root = some (BitVec.ofNat 9 (254 + (leavesOf u).length)) := by
  obtain ⟨z, hroot, hlast⟩ := buildTree_ends (u := u)
    (P := fun live k _ => 256 < k → live.head?.map (fun z => z.idx) = some (BitVec.ofNat 9 (k - 1)))
    (fun hk => absurd hk (by decide)) (fun _ _ _ => rfl) h
  rw [hroot, ← show 255 + (leavesOf u).length - 1 = 254 + (leavesOf u).length by omega]
  exact hlast (by omega)

/-! ## `HF.BUILD` (R93) -/

theorem exec_hfBuild (s : State) : exec .hfBuild s = .next ((hfBuild s).advance 1) := rfl

theorem hfBuild_freq (s : State) : (hfBuild s).ht.freq = s.ht.freq := by
  show (genCodebook (buildTree s.ht)).freq = _
  rw [genCodebook_frame, buildTree_frame]

theorem hfBuild_root (s : State) : (hfBuild s).ht.root = (buildTree s.ht).root := by
  show (genCodebook (buildTree s.ht)).root = _
  rw [genCodebook_frame]

theorem hfBuild_node (s : State) : (hfBuild s).ht.node = (buildTree s.ht).node := by
  show (genCodebook (buildTree s.ht)).node = _
  rw [genCodebook_frame]

theorem toNat_hfBuild_nleaves (s : State) : (hfBuild s).ht.nleaves.toNat = (leavesOf s.ht).length := by
  rw [hfBuild_nleaves, toNat_nleaves]

/-- Settles O45: the codebook walk leaves the tree alone, and the tree is built by the number of leaves. -/
theorem hfBuildMakesTheTreeValid : Obligations.HfBuildMakesTheTreeValid := by
  unfold Obligations.HfBuildMakesTheTreeValid
  refine fun s => ⟨_, exec_hfBuild s, rfl, rfl, hfBuild_freq s, toNat_hfBuild_nleaves s, fun h => ?_, fun h => ?_, fun h => ?_⟩
  all_goals simp only [State.advance_ht, toNat_hfBuild_nleaves, hfBuild_root] at h ⊢
  · exact buildTree_of_none (List.eq_nil_of_length_eq_zero h)
  · obtain ⟨b, hb⟩ := List.length_eq_one_iff.mp h
    obtain ⟨hroot, hnode⟩ := buildTree_of_one hb
    obtain ⟨hlt, hfreq⟩ := mem_leavesOf.mp (hb ▸ List.mem_singleton_self b)
    have hbyte : (BitVec.ofNat 8 b).toNat = b := Nat.mod_eq_of_lt hlt
    refine ⟨hroot, BitVec.ofNat 8 b, by rwa [hbyte], ?_⟩
    rw [hbyte, HtUnit.nodeAt, if_pos (by decide), hfBuild_node, hnode]
    simp
  · exact buildTree_root h

/-! ## The nodes built -/

theorem lt_of_liveAt {u : HtUnit} {k j : Nat} (h : liveAt u k j) (hk : 256 ≤ k) : j < k := by
  rcases h.1 with ⟨hj, -⟩ | ⟨-, hj⟩ <;> omega

/-- Whether a node is live when node `k` is built depends on the frequencies and the nodes before `k`. -/
theorem liveAt_congr {u v : HtUnit} {k j : Nat} (hfreq : v.freq = u.freq)
    (hnode : ∀ i < k, v.node.read Node.blank i = u.node.read Node.blank i) (h : liveAt u k j) : liveAt v k j := by
  refine ⟨by simpa only [HtUnit.freqOf, hfreq] using h.1, fun i hlo hhi => ?_⟩
  rw [hnode i hhi]
  exact h.2 i hlo hhi

/-- Node `k` is the two least live nodes combined, by the weights given (R91). -/
def CombinesTheTwoLeast (u : HtUnit) (weight : Nat → Nat) (k : Nat) : Prop :=
  ∃ l r, l < k ∧ r < k ∧ l ≠ r ∧
    u.node.read Node.blank k = ⟨some (BitVec.ofNat 9 l), some (BitVec.ofNat 9 r)⟩ ∧
    weight k = weight l + weight r ∧ liveAt u k l ∧ liveAt u k r ∧
    (weight l < weight r ∨ weight l = weight r ∧ l < r) ∧
    ∀ j, liveAt u k j → j ≠ l → j ≠ r → weight r < weight j ∨ weight r = weight j ∧ r < j

/-- How node `k` was built depends on the frequencies and on what is known of the nodes up to `k`. -/
theorem CombinesTheTwoLeast.congr {u v : HtUnit} {weight weight' : Nat → Nat} {k : Nat} (h : CombinesTheTwoLeast u weight k)
    (hk : 256 ≤ k) (hfreq : v.freq = u.freq) (hnode : ∀ i ≤ k, v.node.read Node.blank i = u.node.read Node.blank i)
    (hweight : ∀ i ≤ k, weight' i = weight i) : CombinesTheTwoLeast v weight' k := by
  obtain ⟨l, r, hl, hr, hne, hread, hsum, hlivel, hliver, horder, hleast⟩ := h
  refine ⟨l, r, hl, hr, hne, (hnode k le_rfl).trans hread, ?_, liveAt_congr hfreq (fun i hi => hnode i hi.le) hlivel,
    liveAt_congr hfreq (fun i hi => hnode i hi.le) hliver, ?_, fun j hj hjl hjr => ?_⟩
  · rwa [hweight k le_rfl, hweight l hl.le, hweight r hr.le]
  · rwa [hweight l hl.le, hweight r hr.le]
  · rw [hweight r hr.le, hweight j (lt_of_liveAt hj hk).le]
    exact hleast j (liveAt_congr hfreq.symm (fun i hi => (hnode i hi.le).symm) hj) hjl hjr

/-- Before node `k` is built the list holds exactly the nodes that are live, once each and by their weights, and every node
below `k` is the two least of its time combined (R91). -/
structure LoopInv (u : HtUnit) (weight : Nat → Nat) (live : List LiveNode) (k : Nat) (arena : Memory Node) : Prop where
  lo : 256 ≤ k
  room : k + live.length ≤ 512
  leaf : ∀ b < 256, weight b = (u.freqOf b).toNat
  mem_iff : ∀ j, (∃ x ∈ live, x.idx.toNat = j) ↔ liveAt { u with node := arena } k j
  distinct : (live.map (fun x => x.idx.toNat)).Nodup
  weighs : ∀ x ∈ live, x.weight = weight x.idx.toNat
  built : ∀ i, 256 ≤ i → i < k → CombinesTheTwoLeast { u with node := arena } weight i

/-- The leaves are live when the first internal node is built (R91). -/
theorem LoopInv.init (u : HtUnit) : LoopInv u (fun b => (u.freqOf b).toNat) (liveLeaves u) 256 u.node := by
  have hidx := map_idx_liveLeaves u
  have hcount := length_leavesOf_le u
  exact {
    lo := le_rfl
    room := by rw [length_liveLeaves]; omega
    leaf := fun _ _ => rfl
    mem_iff := fun j => by
      refine List.mem_map.symm.trans ?_
      rw [hidx, mem_leavesOf]
      exact ⟨fun hj => ⟨.inl hj, fun i _ _ => by omega⟩, fun hj => hj.1.resolve_right (by omega)⟩
    distinct := hidx ▸ nodup_leavesOf u
    weighs := fun x hx => by
      obtain ⟨b, hb, rfl⟩ := List.mem_map.mp hx
      have hb : (BitVec.ofNat 9 b).toNat = b := Nat.mod_eq_of_lt (Nat.lt_trans (mem_leavesOf.mp hb).1 (by decide))
      simp only [hb]
    built := fun i _ _ => by omega }

theorem LoopInv.perm {u : HtUnit} {weight : Nat → Nat} {live live' : List LiveNode} {k : Nat} {arena : Memory Node}
    (h : LoopInv u weight live k arena) (hperm : live.Perm live') : LoopInv u weight live' k arena where
  lo := h.lo
  room := hperm.length_eq ▸ h.room
  leaf := h.leaf
  mem_iff j := by simpa only [hperm.mem_iff] using h.mem_iff j
  distinct := (hperm.map _).nodup_iff.mp h.distinct
  weighs x hx := h.weighs x (hperm.mem_iff.mpr hx)
  built := h.built

section
variable {u : HtUnit} {weight : Nat → Nat} {x y : LiveNode} {rest : List LiveNode} {k : Nat} {arena : Memory Node}

theorem LoopInv.idx_lt {live : List LiveNode} (h : LoopInv u weight live k arena) {z : LiveNode} (hz : z ∈ live) :
    z.idx.toNat < k :=
  lt_of_liveAt ((h.mem_iff _).mp ⟨z, hz, rfl⟩) h.lo

/-- The two least live nodes are two, and the others are others. -/
theorem LoopInv.idx_ne (h : LoopInv u weight (x :: y :: rest) k arena) :
    x.idx.toNat ≠ y.idx.toNat ∧ ∀ z ∈ rest, z.idx.toNat ≠ x.idx.toNat ∧ z.idx.toNat ≠ y.idx.toNat := by
  obtain ⟨hx, hdistinct⟩ := List.nodup_cons.mp h.distinct
  obtain ⟨hy, -⟩ := List.nodup_cons.mp hdistinct
  exact ⟨fun heq => hx (List.mem_map.mpr ⟨y, by simp, heq.symm⟩), fun z hz =>
    ⟨fun heq => hx (List.mem_map.mpr ⟨z, by simp [hz], heq⟩), fun heq => hy (List.mem_map.mpr ⟨z, hz, heq⟩)⟩⟩

/-- The node about to be built is no node's child yet. -/
theorem LoopInv.fresh {live : List LiveNode} (h : LoopInv u weight live k arena) (hk : k < 512) {i : Nat}
    (hlo : 256 ≤ i) (hi : i < k) : (arena.read Node.blank i).left ≠ some (BitVec.ofNat 9 k) ∧
      (arena.read Node.blank i).right ≠ some (BitVec.ofNat 9 k) := by
  obtain ⟨l, r, hl, hr, -, hread, -⟩ := h.built i hlo hi
  have hne : ∀ j < i, some (BitVec.ofNat 9 j) ≠ some (BitVec.ofNat 9 k) := fun j hj heq => by
    have := congrArg BitVec.toNat (Option.some.inj heq)
    simp only [BitVec.toNat_ofNat] at this
    omega
  have hread : arena.read Node.blank i = _ := hread
  rw [hread]
  exact ⟨hne l hl, hne r hr⟩

/-- A node is live after a round if the round built it, or it was live and the round did not take it (R91). -/
theorem LoopInv.liveAt_succ_iff (h : LoopInv u weight (x :: y :: rest) k arena) (j : Nat) :
    liveAt { u with node := joinAt arena x y k } (k + 1) j ↔
      j = k ∨ liveAt { u with node := arena } k j ∧ j ≠ x.idx.toNat ∧ j ≠ y.idx.toNat := by
  have hlo := h.lo
  have hroom : k + (rest.length + 2) ≤ 512 := h.room
  have hx := h.idx_lt (z := x) (by simp)
  have hy := h.idx_lt (z := y) (by simp)
  have hchild : ∀ (z : LiveNode) (i : Nat), i < 512 → (some z.idx ≠ some (BitVec.ofNat 9 i) ↔ i ≠ z.idx.toNat) :=
      fun z i hi => by
    rw [Ne, Option.some.injEq, ← BitVec.toNat_inj, BitVec.toNat_ofNat, Nat.mod_eq_of_lt hi, eq_comm]
  have hold : ∀ i < k, (joinAt arena x y k).read Node.blank i = arena.read Node.blank i := fun i hi => by
    rw [read_joinAt, if_neg hi.ne]
  have hnew : (joinAt arena x y k).read Node.blank k = ⟨some x.idx, some y.idx⟩ := by rw [read_joinAt, if_pos rfl]
  constructor
  · intro hj
    have hjk := lt_of_liveAt hj (by omega)
    rcases Nat.lt_succ_iff_lt_or_eq.mp hjk with hjk | rfl
    · obtain ⟨hkind, hfree⟩ := hj
      have hk := hfree k hlo (by omega)
      simp only [hnew, hchild _ j (by omega)] at hk
      refine .inr ⟨⟨hkind.imp_right fun hlow => ⟨hlow.1, hjk⟩, fun i hi1 hi2 => ?_⟩, hk⟩
      have := hfree i hi1 (by omega)
      simpa only [hold i hi2] using this
    · exact .inl rfl
  · rintro (rfl | ⟨⟨hkind, hfree⟩, hjx, hjy⟩)
    · refine ⟨.inr ⟨hlo, by omega⟩, fun i hi1 hi2 => ?_⟩
      rcases Nat.lt_succ_iff_lt_or_eq.mp hi2 with hi | rfl
      · simpa only [hold i hi] using h.fresh (by omega) hi1 hi
      · simp only [hnew, hchild _ i (by omega)]
        omega
    · have hjk : j < k := lt_of_liveAt ⟨hkind, hfree⟩ hlo
      refine ⟨hkind.imp_right fun hlow => ⟨hlow.1, by omega⟩, fun i hi1 hi2 => ?_⟩
      rcases Nat.lt_succ_iff_lt_or_eq.mp hi2 with hi | rfl
      · simpa only [hold i hi] using hfree i hi1 hi
      · simp only [hnew, hchild _ j (by omega)]
        exact ⟨hjx, hjy⟩

/-- A round builds its node from the two least live nodes (R91). -/
theorem LoopInv.combines {live : List LiveNode} (h : LoopInv u weight (x :: y :: rest) k arena) (hleast : TwoLeast live x y rest) :
    CombinesTheTwoLeast { u with node := joinAt arena x y k } (Function.update weight k (x.weight + y.weight)) k := by
  obtain ⟨hxy, hothers⟩ := h.idx_ne
  have hweight : ∀ z ∈ x :: y :: rest, Function.update weight k (x.weight + y.weight) z.idx.toNat = z.weight := fun z hz => by
    rw [Function.update_of_ne (h.idx_lt hz).ne, h.weighs z hz]
  have hlive : ∀ j, liveAt { u with node := joinAt arena x y k } k j ↔ ∃ z ∈ x :: y :: rest, z.idx.toNat = j := fun j => by
    rw [h.mem_iff]
    constructor <;> refine liveAt_congr rfl fun i hi => ?_ <;> simp only [read_joinAt, if_neg hi.ne]
  have horder : ∀ {z w : LiveNode}, w.before z = false → z.idx.toNat ≠ w.idx.toNat →
      z.weight < w.weight ∨ z.weight = w.weight ∧ z.idx.toNat < w.idx.toNat := fun {z w} hbefore hne => by
    simp only [LiveNode.before, decide_eq_false_iff_not] at hbefore
    omega
  refine ⟨x.idx.toNat, y.idx.toNat, h.idx_lt (by simp), h.idx_lt (by simp), hxy, ?_, ?_,
    (hlive _).mpr ⟨x, by simp, rfl⟩, (hlive _).mpr ⟨y, by simp, rfl⟩, ?_, fun j hj hjx hjy => ?_⟩
  · simp [read_joinAt]
  · rw [hweight x (by simp), hweight y (by simp), Function.update_self]
  · rw [hweight x (by simp), hweight y (by simp)]
    exact horder (hleast.first y (by simp)) hxy
  · obtain ⟨z, hz, rfl⟩ := (hlive j).mp hj
    rw [hweight y (by simp), hweight z hz]
    rcases List.mem_cons.mp hz with rfl | hz
    · exact absurd rfl hjx
    rcases List.mem_cons.mp hz with rfl | hz
    · exact absurd rfl hjy
    exact horder (hleast.second z hz) (hothers z hz).2.symm

/-- A round keeps the invariant (R91). -/
theorem LoopInv.round {live : List LiveNode} (h : LoopInv u weight live k arena) (hleast : TwoLeast live x y rest) :
    LoopInv u (Function.update weight k (x.weight + y.weight)) (x.join y k :: rest) (k + 1) (joinAt arena x y k) := by
  replace h := h.perm hleast.perm
  obtain ⟨-, hothers⟩ := h.idx_ne
  have hrest := h.distinct.of_cons.of_cons
  have hlo := h.lo
  have hroom : k + (rest.length + 2) ≤ 512 := h.room
  have hidx : (x.join y k).idx.toNat = k := Nat.mod_eq_of_lt (by omega)
  have hweight : ∀ j < k, Function.update weight k (x.weight + y.weight) j = weight j :=
    fun j hj => Function.update_of_ne hj.ne _ _
  have hlt : ∀ z ∈ rest, z.idx.toNat < k := fun z hz => h.idx_lt (by simp [hz])
  exact {
    lo := by omega
    room := by rw [List.length_cons]; omega
    leaf := fun b hb => (hweight b (by omega)).trans (h.leaf b hb)
    mem_iff := fun j => by
      rw [h.liveAt_succ_iff, ← h.mem_iff]
      simp only [List.mem_cons, exists_eq_or_imp, hidx]
      refine or_congr eq_comm ⟨?_, ?_⟩
      · rintro ⟨z, hz, rfl⟩
        exact ⟨.inr (.inr ⟨z, hz, rfl⟩), hothers z hz⟩
      · rintro ⟨rfl | rfl | hz, hjx, hjy⟩
        · exact absurd rfl hjx
        · exact absurd rfl hjy
        · exact hz
    distinct := by
      refine List.nodup_cons.mpr ⟨fun hmem => ?_, hrest⟩
      obtain ⟨z, hz, heq⟩ := List.mem_map.mp hmem
      exact (hlt z hz).ne (heq.trans hidx)
    weighs := fun z hz => by
      rcases List.mem_cons.mp hz with rfl | hz
      · rw [hidx, Function.update_self]; rfl
      · rw [hweight _ (hlt z hz), h.weighs z (by simp [hz])]
    built := fun i hi1 hi2 => by
      rcases Nat.lt_succ_iff_lt_or_eq.mp hi2 with hi | rfl
      · refine (h.built i hi1 hi).congr hi1 rfl (fun j hj => ?_) (fun j hj => hweight j (by omega))
        simp only [read_joinAt, if_neg (show j ≠ k by omega)]
      · exact h.combines hleast }

end

/-- Settles O46: every round keeps `LoopInv`, and the last round has built every node. -/
theorem hfBuildCombinesTheTwoLeast : Obligations.HfBuildCombinesTheTwoLeast := by
  unfold Obligations.HfBuildCombinesTheTwoLeast
  rintro s _ ⟨⟩
  show ∃ weight : Nat → Nat, (∀ b, b < 256 → weight b = (s.ht.freqOf b).toNat) ∧
    ∀ k, 256 ≤ k → k < 255 + (hfBuild s).ht.nleaves.toNat → CombinesTheTwoLeast (hfBuild s).ht weight k
  rw [toNat_hfBuild_nleaves]
  rcases Nat.lt_or_ge (leavesOf s.ht).length 2 with hfew | hmany
  · exact ⟨_, fun _ _ => rfl, fun k _ _ => by omega⟩
  · obtain ⟨z, -, weight, h⟩ := buildTree_ends (P := fun live k arena => ∃ weight, LoopInv s.ht weight live k arena)
      ⟨_, LoopInv.init s.ht⟩ (fun ⟨_, h⟩ hleast => ⟨_, h.round hleast⟩) hmany
    refine ⟨weight, h.leaf, fun k hlo hhi => (h.built k hlo hhi).congr hlo (hfBuild_freq s) (fun i _ => ?_) (fun _ _ => rfl)⟩
    rw [hfBuild_node]

end Sys2Proof.Machine

/-! PROOF. The codebook (43_huffman_tree.md R92, R97): the loop builds full binary trees, the walk stores the path of every leaf,
and a path leads back to its leaf. -/

namespace Sys2Proof.Machine

/-! ## Lists of codes -/

/-- Symbols and their codes, first bit first. -/
abbrev CodeList := List (Nat × List Bool)

/-- The codes with a path put before each. -/
def CodeList.under (path : List Bool) (codes : CodeList) : CodeList := codes.map (fun e => (e.1, path ++ e.2))

/-- The codes below a node whose children have the codes `left` and `right` below them: 0 on the left edge, 1 on the right (R92). -/
def CodeList.join (left right : CodeList) : CodeList := left.under [false] ++ right.under [true]

/-- The symbols of a list of codes. -/
def CodeList.symbols (codes : CodeList) : List Nat := codes.map Prod.fst

@[simp] theorem CodeList.under_nil (codes : CodeList) : codes.under [] = codes := List.map_id _

theorem CodeList.under_join (path : List Bool) (left right : CodeList) :
    CodeList.under path (left.join right) = left.under (path ++ [false]) ++ right.under (path ++ [true]) := by
  simp [CodeList.join, CodeList.under, Function.comp_def]

theorem CodeList.symbols_join (left right : CodeList) : (left.join right).symbols = left.symbols ++ right.symbols := by
  simp [CodeList.join, CodeList.under, CodeList.symbols, Function.comp_def]

theorem CodeList.length_join (left right : CodeList) : (left.join right).length = left.length + right.length := by
  simp [CodeList.join, CodeList.under]

/-- A code below a node is a bit and then a code below that child. -/
theorem CodeList.mem_join {left right : CodeList} {e : Nat × List Bool} :
    e ∈ left.join right ↔ ∃ bit, ∃ e' ∈ (if bit then right else left), e = (e'.1, bit :: e'.2) := by
  simp [CodeList.join, CodeList.under, eq_comm (a := e)]

/-- The terms of Kraft's sum as numbers, in units of `2^(-depth)` (R97). -/
def CodeList.kraft (depth : Nat) (codes : CodeList) : Nat := (codes.map (fun e => 2 ^ (depth - e.2.length))).sum

theorem CodeList.kraft_join (depth : Nat) (left right : CodeList) :
    (left.join right).kraft (depth + 1) = left.kraft depth + right.kraft depth := by
  simp [CodeList.join, CodeList.under, CodeList.kraft, Function.comp_def]

/-! ## The codebook that a list of codes makes -/

/-- Store every code of the list (R92). -/
def HtUnit.setCodes (u : HtUnit) (codes : CodeList) : HtUnit := codes.foldl (fun v e => v.setCode e.1 e.2) u

theorem HtUnit.setCodes_append (u : HtUnit) (codes codes' : CodeList) :
    u.setCodes (codes ++ codes') = (u.setCodes codes).setCodes codes' := List.foldl_append ..

theorem HtUnit.setCodes_node (u : HtUnit) (codes : CodeList) : (u.setCodes codes).node = u.node := by
  induction codes generalizing u with
  | nil => rfl
  | cons e codes ih => exact ih _

/-- Storing codes leaves every other symbol's alone. -/
theorem HtUnit.setCodes_of_notMem {u : HtUnit} {codes : CodeList} {b : Nat} (h : b ∉ codes.symbols) :
    (u.setCodes codes).lenOf b = u.lenOf b ∧ (u.setCodes codes).bitsOf b = u.bitsOf b := by
  induction codes generalizing u with
  | nil => exact ⟨rfl, rfl⟩
  | cons e codes ih =>
    obtain ⟨hne, hnot⟩ : b ≠ e.1 ∧ b ∉ CodeList.symbols codes := by simpa [CodeList.symbols] using h
    obtain ⟨hlen, hbits⟩ := ih (u := u.setCode e.1 e.2) hnot
    exact ⟨hlen.trans (Memory.read_write_other _ _ _ hne), hbits.trans (Memory.read_write_other _ _ _ hne)⟩

/-- With one code per symbol every code of the list is stored: its length and its bits (R92). -/
theorem HtUnit.setCodes_of_mem {u : HtUnit} {codes : CodeList} (hdistinct : codes.symbols.Nodup) {e : Nat × List Bool}
    (h : e ∈ codes) : (u.setCodes codes).lenOf e.1 = BitVec.ofNat 8 e.2.length ∧
      (u.setCodes codes).bitsOf e.1 = BitVec.ofNat 256 (bitsValue e.2) := by
  induction codes generalizing u with
  | nil => cases h
  | cons f codes ih =>
    obtain ⟨hnew, hdistinct⟩ := List.nodup_cons.mp hdistinct
    rcases List.mem_cons.mp h with rfl | h
    · obtain ⟨hlen, hbits⟩ := HtUnit.setCodes_of_notMem (u := u.setCode e.1 e.2) hnew
      exact ⟨hlen.trans (Memory.read_write_same ..), hbits.trans (Memory.read_write_same ..)⟩
    · exact ih hdistinct h

theorem eq_of_toNat_eq_toNat : ∀ x y : Bool, x.toNat = y.toNat → x = y := by decide

/-- Paths of one length with one value are one path. -/
theorem bitsValue_inj {xs ys : List Bool} (hlen : xs.length = ys.length) (h : bitsValue xs = bitsValue ys) : xs = ys := by
  induction xs generalizing ys with
  | nil => exact (List.eq_nil_of_length_eq_zero hlen.symm).symm
  | cons x xs ih =>
    match ys, hlen with
    | y :: ys, hlen =>
      simp only [bitsValue] at h
      have hx := Bool.toNat_lt x
      have hy := Bool.toNat_lt y
      have hhead : x = y := eq_of_toNat_eq_toNat x y (by omega)
      rw [hhead, ih (Nat.succ.inj hlen) (by omega)]

/-- A code of at most 255 bits is read back as it was stored (R32). -/
theorem codeOf_of_stored {u : HtUnit} {b : Nat} {path : List Bool} (hshort : path.length ≤ 255)
    (hlen : u.lenOf b = BitVec.ofNat 8 path.length) (hbits : u.bitsOf b = BitVec.ofNat 256 (bitsValue path)) :
    u.codeOf b = path := by
  have hn : (u.lenOf b).toNat = path.length := by rw [hlen]; exact Nat.mod_eq_of_lt (by omega)
  have hfits : 2 ^ path.length ≤ 2 ^ 256 := Nat.pow_le_pow_right (by decide) (by omega)
  have hvalue := bitsValue_lt path
  refine bitsValue_inj (by rw [HtUnit.codeOf, length_lowBits, hn]) ?_
  rw [HtUnit.codeOf, bitsValue_lowBits, hn, hbits, BitVec.toNat_ofNat, Nat.mod_eq_of_lt (hvalue.trans_le hfits),
    Nat.mod_eq_of_lt hvalue]

/-! ## Full binary trees in the arena -/

/-- A full binary tree hangs at node `i` of the arena, with these codes below it; every child was built before its parent (R91). -/
inductive Spans (m : Memory Node) : NodeIdx → CodeList → Prop where
  | leaf (i : NodeIdx) (h : i.toNat < 256) : Spans m i [(i.toNat, [])]
  | node (i l r : NodeIdx) {left right : CodeList} (lo : 256 ≤ i.toNat) (hi : i.toNat ≤ 510)
      (hread : m.read Node.blank i.toNat = ⟨some l, some r⟩) (hl : l.toNat < i.toNat) (hr : r.toNat < i.toNat)
      (hleft : Spans m l left) (hright : Spans m r right) : Spans m i (left.join right)

/-- Writing a later node leaves a tree alone. -/
theorem Spans.write {m : Memory Node} {i : NodeIdx} {codes : CodeList} (h : Spans m i codes) {k : Nat} (hk : i.toNat < k)
    (e : Node) : Spans (m.write Node.blank k e) i codes := by
  induction h with
  | leaf i h => exact .leaf i h
  | node i l r lo hi hread hl hr _ _ ihl ihr =>
    refine .node i l r lo hi ?_ hl hr (ihl (hl.trans hk)) (ihr (hr.trans hk))
    rw [Memory.read_write_other _ _ _ hk.ne, hread]

/-- A round puts two trees below a new node (R91). -/
theorem Spans.joinAt {m : Memory Node} {x y : LiveNode} {left right : CodeList} {k : Nat} (hlo : 256 ≤ k) (hhi : k ≤ 510)
    (hx : x.idx.toNat < k) (hy : y.idx.toNat < k) (hleft : Spans m x.idx left) (hright : Spans m y.idx right) :
    Spans (joinAt m x y k) (x.join y k).idx (left.join right) := by
  have hidx : (x.join y k).idx.toNat = k := Nat.mod_eq_of_lt (by omega)
  refine .node _ x.idx y.idx ?_ ?_ ?_ ?_ ?_ (hleft.write hx _) (hright.write hy _) <;> rw [hidx]
  · exact hlo
  · exact hhi
  · rw [read_joinAt, if_pos rfl]
  · exact hx
  · exact hy

/-- Every tree has a leaf. -/
theorem Spans.length_pos {m : Memory Node} {i : NodeIdx} {codes : CodeList} (h : Spans m i codes) : 0 < codes.length := by
  induction h with
  | leaf => exact Nat.one_pos
  | node _ _ _ _ _ _ _ _ _ _ ihl _ => rw [CodeList.length_join]; omega

/-- A leaf lies less deep than there are leaves (R92). -/
theorem Spans.length_lt {m : Memory Node} {i : NodeIdx} {codes : CodeList} (h : Spans m i codes) :
    ∀ e ∈ codes, e.2.length < codes.length := by
  induction h with
  | leaf => simp
  | node i l r _ _ _ _ _ hleft hright ihl ihr =>
    have := hleft.length_pos
    have := hright.length_pos
    intro e he
    obtain ⟨bit, e', he', rfl⟩ := CodeList.mem_join.mp he
    rw [CodeList.length_join, List.length_cons]
    cases bit with
    | false => have := ihl e' he'; omega
    | true => have := ihr e' he'; omega

/-- Kraft's equality: the terms of a full binary tree add up to 1 (R97). -/
theorem Spans.kraft {m : Memory Node} {i : NodeIdx} {codes : CodeList} (h : Spans m i codes) (depth : Nat)
    (hdepth : codes.length ≤ depth + 1) : codes.kraft depth = 2 ^ depth := by
  induction h generalizing depth with
  | leaf => simp [CodeList.kraft]
  | node i l r _ _ _ _ _ hleft hright ihl ihr =>
    have := hleft.length_pos
    have := hright.length_pos
    rw [CodeList.length_join] at hdepth
    obtain ⟨d, rfl⟩ : ∃ d, depth = d + 1 := ⟨depth - 1, by omega⟩
    rw [CodeList.kraft_join, ihl d (by omega), ihr d (by omega)]
    ring

theorem walk_leaf (depth : Nat) {i : NodeIdx} (hi : i.toNat < 256) (path : List Bool) (u : HtUnit) :
    walk (depth + 1) (some i) path u = u.setCode i.toNat path := if_pos hi

theorem walk_internal (depth : Nat) {i : NodeIdx} (hi : 256 ≤ i.toNat) (path : List Bool) {u : HtUnit} {e : Node}
    (hread : u.node.read Node.blank i.toNat = e) : walk (depth + 1) (some i) path u =
      walk depth e.right (path ++ [true]) (walk depth e.left (path ++ [false]) u) := by
  subst hread
  exact if_neg (show ¬ i.toNat < 256 by omega)

/-- A unit with an empty codebook, as the walk finds it (R92). -/
def HtUnit.withoutCodes (u : HtUnit) : HtUnit := { u with codeLen := [], codeBits := [] }

theorem genCodebook_of_root {u : HtUnit} {root : Option NodeIdx} (h : u.root = root) :
    genCodebook u = walk 256 root [] u.withoutCodes := by
  subst h; rfl

/-- The walk stores the codes of the tree below the node, each after the path that led there (R92). -/
theorem Spans.walk {m : Memory Node} {i : NodeIdx} {codes : CodeList} (h : Spans m i codes) {depth : Nat}
    (hdepth : codes.length ≤ depth) (path : List Bool) {u : HtUnit} (hu : u.node = m) :
    walk depth (some i) path u = u.setCodes (codes.under path) := by
  induction h generalizing depth path u with
  | leaf i hi =>
    obtain ⟨d, rfl⟩ : ∃ d, depth = d + 1 := ⟨depth - 1, by simp at hdepth; omega⟩
    simp [walk_leaf d hi, CodeList.under, HtUnit.setCodes]
  | node i l r lo _ hread _ _ hleft hright ihl ihr =>
    have := hleft.length_pos
    have := hright.length_pos
    rw [CodeList.length_join] at hdepth
    obtain ⟨d, rfl⟩ : ∃ d, depth = d + 1 := ⟨depth - 1, by omega⟩
    rw [walk_internal d lo path (hu ▸ hread), ihl (by omega) _ hu, ihr (by omega) _ (by rw [HtUnit.setCodes_node, hu]),
      CodeList.under_join, HtUnit.setCodes_append]

theorem traverse_to_leaf {u : HtUnit} {pos : Option NodeIdx} {bit : Bool} {i : NodeIdx} (hpos : childOf u pos bit = some i)
    (hi : i.toNat < 256) (bits : List Bool) : traverse u pos (bit :: bits) =
      (traverse u u.root bits).map (fun r => (BitVec.ofNat 8 i.toNat :: r.1, r.2)) := by
  rw [traverse, hpos, BitVec.ofNat_toNat]
  exact if_pos hi

theorem traverse_to_internal {u : HtUnit} {pos : Option NodeIdx} {bit : Bool} {i : NodeIdx} (hpos : childOf u pos bit = some i)
    (hi : 256 ≤ i.toNat) (bits : List Bool) : traverse u pos (bit :: bits) = traverse u (some i) bits := by
  rw [traverse, hpos]
  exact if_neg (show ¬ i.toNat < 256 by omega)

theorem childOf_internal {u : HtUnit} {i : NodeIdx} (lo : 256 ≤ i.toNat) (hi : i.toNat ≤ 510) {e : Node}
    (hread : u.node.read Node.blank i.toNat = e) (bit : Bool) :
    childOf u (some i) bit = if bit then e.right else e.left := by
  rw [childOf, Option.bind_some, HtUnit.nodeAt, if_pos ⟨lo, hi⟩, hread, Option.bind_some]

/-- From a node's parent, the bit of its edge and then a code below it lead to the code's leaf and to no leaf before (R92, R102). -/
theorem Spans.traverse {u : HtUnit} {i : NodeIdx} {codes : CodeList} (h : Spans u.node i codes) {pos : Option NodeIdx} {bit : Bool}
    (hpos : childOf u pos bit = some i) :
    ∀ e ∈ codes, traverse u pos (bit :: e.2) = some ([BitVec.ofNat 8 e.1], u.root) := by
  induction h generalizing pos bit with
  | leaf i hi =>
    rintro e he
    obtain rfl := List.mem_singleton.mp he
    exact traverse_to_leaf hpos hi []
  | node i l r lo hi hread _ _ _ _ ihl ihr =>
    intro e he
    obtain ⟨bit', e', he', rfl⟩ := CodeList.mem_join.mp he
    rw [traverse_to_internal hpos lo]
    have hchild := childOf_internal lo hi hread bit'
    cases bit' with
    | false => exact ihl hchild e' he'
    | true => exact ihr hchild e' he'

/-- From an internal node a code below it is at least one edge, and leads to the code's leaf (R92, R102). -/
theorem Spans.traverse_internal {u : HtUnit} {i : NodeIdx} {codes : CodeList} (h : Spans u.node i codes) (hi : 256 ≤ i.toNat) :
    ∀ e ∈ codes, e.2 ≠ [] ∧ Machine.traverse u (some i) e.2 = some ([BitVec.ofNat 8 e.1], u.root) := by
  cases h with
  | leaf _ hleaf => omega
  | node _ l r lo hi hread _ _ hleft hright =>
    intro e he
    obtain ⟨bit, e', he', rfl⟩ := CodeList.mem_join.mp he
    have hchild := childOf_internal lo hi hread bit
    refine ⟨List.cons_ne_nil _ _, ?_⟩
    cases bit with
    | false => exact hleft.traverse hchild e' he'
    | true => exact hright.traverse hchild e' he'

/-! ## The trees of the loop -/

/-- Before node `k` is built a tree hangs at every live node, and the symbols of the trees are the leaves (R91). -/
structure ForestInv (u : HtUnit) (live : List LiveNode) (k : Nat) (arena : Memory Node) (trees : List CodeList) : Prop where
  lo : 256 ≤ k
  room : k + live.length ≤ 512
  spans : List.Forall₂ (fun x codes => x.idx.toNat < k ∧ Spans arena x.idx codes) live trees
  leaves : (trees.flatMap CodeList.symbols).Perm (leavesOf u)

/-- The first trees are the leaves (R91). -/
theorem ForestInv.init (u : HtUnit) :
    ForestInv u (liveLeaves u) 256 u.node ((liveLeaves u).map (fun x => [(x.idx.toNat, [])])) where
  lo := le_rfl
  room := by have := length_leavesOf_le u; rw [length_liveLeaves]; omega
  spans := by
    rw [List.forall₂_map_right_iff, List.forall₂_same]
    exact fun x hx => ⟨idx_liveLeaves_lt hx, .leaf _ (idx_liveLeaves_lt hx)⟩
  leaves := by
    rw [← map_idx_liveLeaves, List.flatMap_map]
    exact .of_eq (List.flatMap_pure_eq_map _ _)

/-- A round puts the trees of the two nodes it takes below the node it builds (R91). -/
theorem ForestInv.round {u : HtUnit} {live : List LiveNode} {k : Nat} {arena : Memory Node} {trees : List CodeList}
    (h : ForestInv u live k arena trees) {x y : LiveNode} {rest : List LiveNode} (hleast : TwoLeast live x y rest) :
    ∃ trees', ForestInv u (x.join y k :: rest) (k + 1) (joinAt arena x y k) trees' := by
  have hroom := h.room
  rw [hleast.perm.length_eq, List.length_cons, List.length_cons] at hroom
  obtain ⟨trees', hspans, hperm⟩ := List.perm_comp_forall₂ hleast.perm.symm h.spans
  obtain ⟨left, _, ⟨hx, hleft⟩, htail, rfl⟩ := List.forall₂_cons_left_iff.mp hspans
  obtain ⟨right, others, ⟨hy, hright⟩, hrest, rfl⟩ := List.forall₂_cons_left_iff.mp htail
  have hlo := h.lo
  have hidx : (x.join y k).idx.toNat = k := Nat.mod_eq_of_lt (by omega)
  refine ⟨left.join right :: others, by omega, by rw [List.length_cons]; omega, .cons ⟨by omega, ?_⟩ ?_, ?_⟩
  · exact .joinAt hlo (by omega) hx hy hleft hright
  · exact hrest.imp fun z codes hz => ⟨by omega, hz.2.write hz.1 _⟩
  · refine List.Perm.trans ?_ ((hperm.flatMap_right _).trans h.leaves)
    simp [CodeList.symbols_join]

/-- With two leaves or more one full binary tree is built, with the leaves as its symbols (R91). -/
theorem buildTree_spans {u : HtUnit} (h : 2 ≤ (leavesOf u).length) :
    ∃ root codes, (buildTree u).root = some root ∧ 256 ≤ root.toNat ∧ Spans (buildTree u).node root codes ∧
      codes.symbols.Perm (leavesOf u) := by
  obtain ⟨z, hz, trees, hforest⟩ := buildTree_ends (P := fun live k arena => ∃ trees, ForestInv u live k arena trees)
    ⟨_, ForestInv.init u⟩ (fun ⟨_, hforest⟩ hleast => hforest.round hleast) h
  have hcount := length_leavesOf_le u
  obtain ⟨-, -, hspans, hleaves⟩ := hforest
  obtain ⟨codes, _, ⟨-, htree⟩, hnil, rfl⟩ := List.forall₂_cons_left_iff.mp hspans
  obtain rfl := List.forall₂_nil_left_iff.mp hnil
  refine ⟨z.idx, codes, hz, ?_, htree, by simpa using hleaves⟩
  rw [Option.some.inj (hz.symm.trans (buildTree_root h)), BitVec.toNat_ofNat, Nat.mod_eq_of_lt (by omega)]
  omega

/-! ## The codebook of a built tree -/

/-- The list of codes that `HF.BUILD` makes: one for each leaf; it is what the codebook stores, its codes lead from the root to
their leaves, and the terms of Kraft's sum are those of a full binary tree, or of the single leaf (R92, R97). -/
structure IsCodebook (s : State) (codes : CodeList) : Prop where
  symbols : codes.symbols.Perm (leavesOf s.ht)
  stored : genCodebook (buildTree s.ht) = (buildTree s.ht).withoutCodes.setCodes codes
  nonempty : ∀ e ∈ codes, e.2 ≠ []
  short : ∀ e ∈ codes, e.2.length ≤ 255
  leads : ∀ e ∈ codes, traverse (hfBuild s).ht (hfBuild s).ht.root e.2 = some ([BitVec.ofNat 8 e.1], (hfBuild s).ht.root)
  many : 2 ≤ codes.length → codes.kraft 255 = 2 ^ 255
  one : codes.length = 1 → codes.kraft 255 = 2 ^ 254

theorem IsCodebook.empty {s : State} (h : leavesOf s.ht = []) : IsCodebook s [] where
  symbols := by rw [h]; exact .refl _
  stored := by rw [genCodebook_of_root (buildTree_of_none h)]; rfl
  nonempty := by simp
  short := by simp
  leads := by simp
  many := by simp
  one := by simp

/-- The single leaf has the code 0 (R91, R92). -/
theorem IsCodebook.single {s : State} {b : Nat} (h : leavesOf s.ht = [b]) : IsCodebook s [(b, [false])] := by
  obtain ⟨hroot, hnode⟩ := buildTree_of_one h
  have hb : b < 256 := (mem_leavesOf.mp (h ▸ List.mem_singleton_self b)).1
  have hidx : (BitVec.ofNat 9 b).toNat = b := Nat.mod_eq_of_lt (by omega)
  have hread : (buildTree s.ht).node.read Node.blank (256 : NodeIdx).toNat = ⟨some (BitVec.ofNat 9 b), none⟩ := by
    rw [hnode]; exact Memory.read_write_same ..
  refine ⟨by rw [h]; exact .refl _, ?_, by simp, by simp, ?_, by simp, by simp [CodeList.kraft]⟩
  · rw [genCodebook_of_root hroot, walk_internal 255 (by decide) [] (u := (buildTree s.ht).withoutCodes) hread,
      walk_leaf 254 (by omega), hidx]
    rfl
  · rintro e he
    obtain rfl := List.mem_singleton.mp he
    have hchild : childOf (hfBuild s).ht (some 256) false = some (BitVec.ofNat 9 b) := by
      rw [← hfBuild_node] at hread
      exact childOf_internal (by decide) (by decide) hread false
    have hleaf : Spans (hfBuild s).ht.node (BitVec.ofNat 9 b) [((BitVec.ofNat 9 b).toNat, [])] := .leaf _ (by omega)
    have hleads := hleaf.traverse hchild _ (List.mem_singleton_self _)
    rw [hfBuild_root, hroot] at hleads ⊢
    rwa [hidx] at hleads

/-- With two leaves or more the codes are the paths of the tree built (R91, R92). -/
theorem IsCodebook.of_many {s : State} (h : 2 ≤ (leavesOf s.ht).length) : ∃ codes, IsCodebook s codes := by
  obtain ⟨root, codes, hroot, hinternal, htree, hsymbols⟩ := buildTree_spans h
  have hlength : codes.length = (leavesOf s.ht).length := by rw [← hsymbols.length_eq, CodeList.symbols, List.length_map]
  have hcount := length_leavesOf_le s.ht
  have hbuilt : Spans (hfBuild s).ht.node root codes := by rwa [hfBuild_node]
  have hpaths := hbuilt.traverse_internal hinternal
  exact ⟨codes, {
    symbols := hsymbols
    stored := by
      rw [genCodebook_of_root hroot, htree.walk (by omega) [] (u := (buildTree s.ht).withoutCodes) rfl, CodeList.under_nil]
    nonempty := fun e he => (hpaths e he).1
    short := fun e he => by have := htree.length_lt e he; omega
    leads := fun e he => by rw [hfBuild_root, hroot, (hpaths e he).2, hfBuild_root, hroot]
    many := fun _ => htree.kraft 255 (by omega)
    one := fun _ => by omega }⟩

/-- `HF.BUILD` makes a codebook in every state (R92, R93). -/
theorem exists_isCodebook (s : State) : ∃ codes, IsCodebook s codes := by
  match h : leavesOf s.ht with
  | [] => exact ⟨_, .empty h⟩
  | [b] => exact ⟨_, .single h⟩
  | _ :: _ :: _ => exact IsCodebook.of_many (by simp [h])

section
variable {s : State} {codes : CodeList}

theorem IsCodebook.lenOf_eq (h : IsCodebook s codes) (b : Nat) :
    (hfBuild s).ht.lenOf b = ((buildTree s.ht).withoutCodes.setCodes codes).lenOf b := congrArg (fun u => u.lenOf b) h.stored

theorem IsCodebook.bitsOf_eq (h : IsCodebook s codes) (b : Nat) :
    (hfBuild s).ht.bitsOf b = ((buildTree s.ht).withoutCodes.setCodes codes).bitsOf b := congrArg (fun u => u.bitsOf b) h.stored

/-- A symbol that is not counted has length 0 and no bits (R92). -/
theorem IsCodebook.of_notMem (h : IsCodebook s codes) {b : Nat} (hb : b ∉ leavesOf s.ht) :
    (hfBuild s).ht.lenOf b = 0 ∧ (hfBuild s).ht.bitsOf b = 0 := by
  rw [h.lenOf_eq, h.bitsOf_eq]
  exact HtUnit.setCodes_of_notMem (mt h.symbols.mem_iff.mp hb)

/-- A code of the list is stored for its symbol (R92). -/
theorem IsCodebook.of_mem (h : IsCodebook s codes) {e : Nat × List Bool} (he : e ∈ codes) :
    ((hfBuild s).ht.lenOf e.1).toNat = e.2.length ∧ (hfBuild s).ht.codeOf e.1 = e.2 ∧
      ((hfBuild s).ht.bitsOf e.1).toNat < 2 ^ e.2.length := by
  have hshort := h.short e he
  obtain ⟨hlen, hbits⟩ := HtUnit.setCodes_of_mem (u := (buildTree s.ht).withoutCodes)
    (h.symbols.nodup_iff.mpr (nodup_leavesOf s.ht)) he
  rw [← h.lenOf_eq] at hlen
  rw [← h.bitsOf_eq] at hbits
  refine ⟨by rw [hlen]; exact Nat.mod_eq_of_lt (by omega), codeOf_of_stored hshort hlen hbits, ?_⟩
  rw [hbits]
  exact toNat_ofNat_lt_two_pow 256 (bitsValue_lt e.2)

/-- Every counted symbol has a code of the list (R92). -/
theorem IsCodebook.exists_code (h : IsCodebook s codes) {b : Byte} (hb : s.ht.freqOf b.toNat ≠ 0) :
    ∃ path, (b.toNat, path) ∈ codes := by
  obtain ⟨e, he, heq⟩ := List.mem_map.mp (h.symbols.mem_iff.mpr (mem_leavesOf.mpr ⟨b.isLt, hb⟩))
  exact ⟨e.2, by rwa [← heq]⟩

/-- The sum of the statement over the counted symbols is Kraft's sum over the codes (R97). -/
theorem IsCodebook.sum_eq (h : IsCodebook s codes) :
    ((leavesOf s.ht).map (fun b => 2 ^ (255 - ((hfBuild s).ht.lenOf b).toNat))).sum = codes.kraft 255 := by
  rw [← (h.symbols.map _).sum_eq, CodeList.symbols, List.map_map]
  refine congrArg List.sum (List.map_congr_left fun e he => ?_)
  simp only [Function.comp_apply, (h.of_mem he).1]

theorem IsCodebook.length_eq (h : IsCodebook s codes) : (hfBuild s).ht.nleaves.toNat = codes.length := by
  rw [toNat_hfBuild_nleaves, ← h.symbols.length_eq, CodeList.symbols, List.length_map]

end

/-! ## The statements about the codebook -/

/-- The code of a counted symbol leads from the root to its leaf and to no leaf before (R92). -/
theorem traverse_codeOf_hfBuild {s : State} {b : Byte} (hb : s.ht.freqOf b.toNat ≠ 0) :
    traverse (hfBuild s).ht (hfBuild s).ht.root ((hfBuild s).ht.codeOf b.toNat) = some ([b], (hfBuild s).ht.root) := by
  obtain ⟨codes, h⟩ := exists_isCodebook s
  obtain ⟨path, hpath⟩ := h.exists_code hb
  rw [(h.of_mem hpath).2.1, h.leads _ hpath, BitVec.ofNat_toNat, BitVec.setWidth_eq]

/-- Settles O47: the codebook stores one path per leaf, of at least one and at most 255 bits, and each path leads to its leaf. -/
theorem codesAreRootToLeafPaths : Obligations.CodesAreRootToLeafPaths := by
  unfold Obligations.CodesAreRootToLeafPaths
  rintro s _ ⟨⟩ b
  obtain ⟨codes, h⟩ := exists_isCodebook s
  simp only [State.advance_ht]
  by_cases hb : s.ht.freqOf b.toNat = 0
  · obtain ⟨hlen, hbits⟩ := h.of_notMem (fun hmem => (mem_leavesOf.mp hmem).2 hb)
    exact ⟨iff_of_true (by rw [hlen]; rfl) hb, absurd hb, by rw [hlen, hbits]; decide⟩
  · obtain ⟨path, hpath⟩ := h.exists_code hb
    obtain ⟨hlen, -, hbits⟩ := h.of_mem hpath
    have hpos : path.length ≠ 0 := mt List.eq_nil_of_length_eq_zero (h.nonempty _ hpath)
    exact ⟨iff_of_false (by rwa [hlen]) hb, traverse_codeOf_hfBuild, by rwa [hlen]⟩

/-- A path that leads to its end goes on with the bits after it (R102). -/
theorem traverse_append (u : HtUnit) (xs ys : List Bool) {pos pos' : Option NodeIdx} {out : List Byte}
    (h : traverse u pos xs = some (out, pos')) :
    traverse u pos (xs ++ ys) = (traverse u pos' ys).map (fun r => (out ++ r.1, r.2)) := by
  induction xs generalizing pos out with
  | nil =>
    cases h
    simp
  | cons bit xs ih =>
    cases hchild : childOf u pos bit with
    | none => simp [traverse, hchild] at h
    | some i =>
      rcases Nat.lt_or_ge i.toNat 256 with hleaf | hinternal
      · rw [traverse_to_leaf hchild hleaf] at h
        obtain ⟨r, hr, heq⟩ := Option.map_eq_some_iff.mp h
        cases heq
        rw [List.cons_append, traverse_to_leaf hchild hleaf, ih hr, Option.map_map]
        rfl
      · rw [traverse_to_internal hchild hinternal] at h
        rw [List.cons_append, traverse_to_internal hchild hinternal, ih h]

/-- Settles O48: a code leads to one symbol and back to the root, so what is longer leads to that symbol first. -/
theorem codebookIsPrefixFree : Obligations.CodebookIsPrefixFree := by
  unfold Obligations.CodebookIsPrefixFree
  rintro s _ ⟨⟩ a b hne ha hb ⟨more, hmore⟩
  have hleads := traverse_codeOf_hfBuild hb
  simp only [State.advance_ht] at hmore
  rw [← hmore, traverse_append _ _ _ (traverse_codeOf_hfBuild ha)] at hleads
  obtain ⟨r, -, hr⟩ := Option.map_eq_some_iff.mp hleads
  simp at hr
  exact hne hr.1.1

/-- Settles O49: the lengths stored are those of the codes, whose terms add up as Kraft's equality says. -/
theorem codebookIsComplete : Obligations.CodebookIsComplete := by
  unfold Obligations.CodebookIsComplete
  rintro s _ ⟨⟩
  obtain ⟨codes, h⟩ := exists_isCodebook s
  have hsum := h.sum_eq
  simp only [State.advance_ht, h.length_eq]
  exact ⟨fun hmany => hsum.trans (h.many hmany), fun hone => hsum.trans (h.one hone)⟩

end Sys2Proof.Machine

/-! PROOF. The Huffman coder (44_huffman_coder.md R98, R99): what it holds and pushes is the bit string put in, eight bits to a byte
(20_memory.md R45). -/

namespace Sys2Proof.Machine

/-! ## One code at the coder (R98) -/

/-- The bits that the coder holds, first bit first (R33). -/
def HeUnit.held (u : HeUnit) : List Bool := lowBits u.n.toNat u.buf

/-- Bits are the lowest bits of a number with their value. -/
theorem lowBits_eq_of_bitsValue {m n : Nat} {v : BitVec m} {bits : List Bool} (hlen : bits.length = n)
    (h : v.toNat = bitsValue bits) : lowBits n v = bits := by
  refine bitsValue_inj (by rw [length_lowBits, hlen]) ?_
  rw [bitsValue_lowBits, h, Nat.mod_eq_of_lt (hlen ▸ bitsValue_lt bits)]

/-- Putting a bit above those held appends it to them (R98). -/
theorem lowBits_append_bit {u : HeUnit} (h : HeInv u) (bit : Bool) :
    lowBits (u.n.toNat + 1) (BitVec.ofNat 8 (u.buf.toNat + bit.toNat * 2 ^ u.n.toNat)) = u.held ++ [bit] := by
  have hn := u.n.isLt
  have hlt : u.buf.toNat + bit.toNat * 2 ^ u.n.toNat < 2 ^ 8 :=
    (append_lt_two_pow (k := 1) h.buf (Bool.toNat_lt bit)).trans_le (Nat.pow_le_pow_right (by decide) hn)
  refine lowBits_eq_of_bitsValue (by simp [HeUnit.held]) ?_
  rw [BitVec.toNat_ofNat, Nat.mod_eq_of_lt hlt, bitsValue_append, HeUnit.held, bitsValue_lowBits, Nat.mod_eq_of_lt h.buf,
    length_lowBits]
  simp [bitsValue, Nat.mul_comm]

/-- The coder took in `bits`: the bits held before and `bits` are the bits of the bytes pushed and the bits held after (R98, R45). -/
structure CoderTakes (before : HeUnit) (bits : List Bool) (bytes : List Byte) (after : HeUnit) : Prop where
  inv : HeInv after
  bits : before.held ++ bits = bytes.flatMap (lowBits 8) ++ after.held

/-- One bit is held, or completes a byte (R98). -/
theorem heBit_takes {s : State} (h : HeInv s.he) (bit : Bool) : ∃ he bytes,
    heBit s bit = { s with he := he }.pushBytes .hbyte bytes ∧ CoderTakes s.he [bit] bytes he ∧
      he.bitcount = s.he.bitcount := by
  have hbits := lowBits_append_bit h bit
  have hinv := h.heBit bit
  rcases heBit_cases s bit with ⟨hn, hbyte⟩ | ⟨hn, hheld⟩
  · rw [hn] at hbits
    rw [hbyte] at hinv
    exact ⟨_, [_], hbyte, ⟨hinv, by rw [← hbits, hn]; simp [HeUnit.held, lowBits]⟩, rfl⟩
  · rw [hheld] at hinv ⊢
    have hcount : (s.he.n + 1).toNat = s.he.n.toNat + 1 := by bv_omega
    refine ⟨_, [], by simp [State.pushBytes], ⟨hinv, ?_⟩, rfl⟩
    rw [← hbits, ← hcount]
    rfl

/-- A string of bits is held but for the bytes it completes (R98). -/
theorem heBits_takes (bits : List Bool) {s : State} (h : HeInv s.he) : ∃ he bytes,
    bits.foldl heBit s = { s with he := he }.pushBytes .hbyte bytes ∧ CoderTakes s.he bits bytes he ∧
      he.bitcount = s.he.bitcount := by
  induction bits generalizing s with
  | nil => exact ⟨s.he, [], by simp [State.pushBytes], ⟨h, by simp⟩, rfl⟩
  | cons bit bits ih =>
    obtain ⟨he, bytes, hbit, htakes, hcount⟩ := heBit_takes h bit
    obtain ⟨he', bytes', hrest, htakes', hcount'⟩ := ih (s := { s with he := he }.pushBytes .hbyte bytes) htakes.inv
    refine ⟨he', bytes ++ bytes', ?_, ⟨htakes'.inv, ?_⟩, hcount'.trans hcount⟩
    · rw [List.foldl_cons, hbit, hrest]
      simp [State.pushBytes]
    · have hbits := htakes'.bits
      simp only [State.pushBytes_he] at hbits
      rw [List.append_cons, htakes.bits, List.append_assoc, hbits, List.flatMap_append, List.append_assoc]

/-- `HF.ENC b` takes in the code of `b` and counts its bits (R98). -/
theorem exec_hfEnc {b : Byte} {s : State} (h : HeInv s.he) (hvalid : s.ht.treeValid = true) (hcode : s.ht.lenOf b.toNat ≠ 0)
    (hfits : s.he.bitcount.toNat + (s.ht.lenOf b.toNat).toNat ≤ 2 ^ 32 - 1) : ∃ he bytes,
    exec (.hfEnc b) s = .next (({ s with he := he }.pushBytes .hbyte bytes).advance 1) ∧
      CoderTakes s.he (s.ht.codeOf b.toNat) bytes he ∧
      he.bitcount.toNat = s.he.bitcount.toNat + (s.ht.lenOf b.toNat).toNat := by
  obtain ⟨he, bytes, hbits, htakes, hcount⟩ := heBits_takes (s.ht.codeOf b.toNat) h
  have hsome : (s.ht.lenOf b.toNat).toNat ≠ 0 := fun h0 => hcode (BitVec.eq_of_toNat_eq h0)
  have hroom : ¬ Config.countMax < s.he.bitcount.toNat + (s.ht.lenOf b.toNat).toNat := Nat.not_lt.mpr hfits
  refine ⟨{ he with bitcount := he.bitcount + BitVec.ofNat 32 (s.ht.lenOf b.toNat).toNat }, bytes, ?_,
    ⟨⟨htakes.inv.buf⟩, htakes.bits⟩, ?_⟩
  · rw [exec_eq_complete_body, body]
    simp [hfEnc, hvalid, hsome, hroom, hbits, State.pushBytes, Instr.length_eq, encode]
  · rw [BitVec.toNat_add, hcount, BitVec.toNat_ofNat]
    omega

/-- Settles O51: the code goes in bit by bit, and eight bits held are a byte pushed. -/
theorem hfEncAppendsTheCode : Obligations.HfEncAppendsTheCode := by
  unfold Obligations.HfEncAppendsTheCode
  intro b s h hvalid hcode hfits
  obtain ⟨he, bytes, hexec, htakes, hcount⟩ := exec_hfEnc h hvalid hcode hfits
  refine ⟨_, bytes, hexec, ?_, htakes.bits, htakes.inv.buf, hcount⟩
  simp only [← zext32_eq]
  rfl

/-! ## Errors and the end of a call (R98, R99) -/

/-- The word of an error whose INFO is a number in its upper half (R111). -/
theorem errorWord_of_info {e : ErrorKind} {info : BitVec 16} {opc : BitVec 8} {n low : Nat} (h : info.toNat = n)
    (hlow : opc.toNat * 2 ^ 8 + e.code.toNat = low) : errorWord e info opc = BitVec.ofNat 32 (n * 2 ^ 16 + low) := by
  rw [errorWord, h, Nat.add_assoc, hlow]

/-- A one-word command whose body ends at a `raise` (R62, R111). -/
theorem exec_of_error {i : Instr} {s u : State} {e : ErrorKind} {info : BitVec 16} {word : Word} (opc : BitVec 8)
    (h : body i s = .error e info u) (hlen : i.length = 1) (hopc : i.opcode = opc) (hword : errorWord e info opc = word) :
    exec i s = .next { u with cp := u.cp + 1, hi := u.hi.record word, out := u.out ++ [⟨.err, word⟩] } := by
  rw [exec_eq_complete_body, h]
  exact complete_error_of_word hlen (hopc ▸ hword) u

/-- Settles O50: the error is that of the first check that fails, raised in the state that `he_abort` left. -/
theorem hfEncErrorsAbortTheCall : Obligations.HfEncErrorsAbortTheCall := by
  unfold Obligations.HfEncErrorsAbortTheCall
  refine fun b s => ⟨fun hoff => ?_, fun hvalid hnone => ?_, fun hvalid hcode hover => ?_⟩
  · have herror : body (.hfEnc b) s = .error .noTree 0 (heAbort s) := if_pos hoff
    exact exec_of_error 0x34 herror rfl rfl (by decide)
  · have herror : body (.hfEnc b) s = .error .noCode (b.setWidth 16) (heAbort s) := by simp [body, hfEnc, hvalid, hnone]
    exact exec_of_error 0x34 herror rfl rfl (errorWord_of_info (by bv_omega) (by decide))
  · have hsome : (s.ht.lenOf b.toNat).toNat ≠ 0 := fun h0 => hcode (BitVec.eq_of_toNat_eq h0)
    have herror : body (.hfEnc b) s = .error .overflow (0x0200#16 + b.setWidth 16) (heAbort s) := by
      rw [body, hfEnc, if_neg (by simp [hvalid]), if_neg hsome]
      exact if_pos hover
    exact exec_of_error 0x34 herror rfl rfl (errorWord_of_info (by bv_omega) (by decide))

theorem exec_hfEncend (s : State) : exec .hfEncend s = .next ((hfEncend s).advance 1) := rfl

/-- With no bits held there is no partial byte (R99). -/
theorem hfEncend_of_none {s : State} (h : s.he.n = 0) :
    hfEncend s = { s with he := HeUnit.fresh }.push .hbits s.he.bitcount := by simp [hfEncend, h]

/-- With bits held, the buffer is the partial byte (R99). -/
theorem hfEncend_of_some {s : State} (h : s.he.n ≠ 0) :
    hfEncend s = ({ s with he := HeUnit.fresh }.push .hbyte (zext32 s.he.buf)).push .hbits s.he.bitcount := by
  have hheld : 0 < s.he.n.toNat := by bv_omega
  simp [hfEncend, hheld, State.push]

/-- Settles O52: the end of a call asks only whether any bits are held. -/
theorem hfEncendReports : Obligations.HfEncendReports := by
  unfold Obligations.HfEncendReports
  refine fun s => ⟨fun hnone => ?_, fun hsome => ?_⟩
  · rw [exec_hfEncend, hfEncend_of_none hnone]
    rfl
  · rw [exec_hfEncend, hfEncend_of_some hsome, zext32_eq]
    simp [State.push, State.advance, HeUnit.fresh]

end Sys2Proof.Machine

/-! PROOF. The Huffman decoder (44_huffman_coder.md R100, R101): the bits of a byte move the traversal engine as `traverse` says. -/

namespace Sys2Proof.Machine

/-! ## Bits at the traversal engine (R100) -/

/-- A bit that leads to a node moves the engine there (R100). -/
theorem hdBit_of_child {s : State} {bit : Bool} {i : NodeIdx} (h : childOf s.ht s.hd.pos bit = some i) :
    hdBit bit s = .done (hdMove i s) := by
  obtain ⟨k, hpos, hk⟩ := Option.bind_eq_some_iff.mp h
  obtain ⟨e, hnode, hchild⟩ := Option.bind_eq_some_iff.mp hk
  simp only [hdBit, hpos, hnode, hchild]

/-- A bit that leads to no node is malformed, unless the engine stands at no entry (R100). -/
theorem hdBit_of_no_child {s : State} {bit : Bool} (hpos : internalOrNone s.hd.pos) (h : childOf s.ht s.hd.pos bit = none) :
    hdBit bit s = .error .malformed 1 (hdAbort s) := by
  rcases hdBit_cases bit s with ⟨-, hr⟩ | ⟨i, hi, hnode, -⟩ | ⟨i, e, -, -, -, hr⟩ | ⟨i, e, child, hi, hnode, hchild, -⟩
  · exact hr
  · cases (if_pos (hpos i hi)).symm.trans hnode
  · exact hr
  · simp [childOf, hi, hnode, hchild] at h

/-- At a leaf the engine pushes its symbol, counts it and returns to the root (R100). -/
theorem hdMove_leaf (s : State) {i : NodeIdx} (hi : i.toNat < 256) : hdMove i s =
    { s with hd := ⟨s.ht.root, s.hd.nsyms + 1⟩ }.pushBytes .hsym [BitVec.ofNat 8 i.toNat] := by
  have hsym : zext32 (BitVec.ofNat 8 i.toNat) = zext32 i := by
    rw [zext32_eq, zext32_eq, BitVec.toNat_ofNat, Nat.mod_eq_of_lt hi]
  rw [hdMove, if_pos (show i.toNat < Config.nsym from hi), ← hsym]
  rfl

/-- At an internal node the engine stays (R100). -/
theorem hdMove_internal (s : State) {i : NodeIdx} (hi : 256 ≤ i.toNat) : hdMove i s = { s with hd := ⟨some i, s.hd.nsyms⟩ } :=
  if_neg (Nat.not_lt.mpr hi)

/-- Where bits lead, the first leads to a leaf, whose symbol is the first, or to an internal node (R102). -/
theorem traverse_cons_cases {u : HtUnit} {pos pos' : Option NodeIdx} {bit : Bool} {bits : List Bool} {syms : List Byte}
    (h : traverse u pos (bit :: bits) = some (syms, pos')) : ∃ i, childOf u pos bit = some i ∧
      ((i.toNat < 256 ∧ ∃ syms', syms = BitVec.ofNat 8 i.toNat :: syms' ∧ traverse u u.root bits = some (syms', pos')) ∨
        (256 ≤ i.toNat ∧ traverse u (some i) bits = some (syms, pos'))) := by
  cases hchild : childOf u pos bit with
  | none => simp [traverse, hchild] at h
  | some i =>
    refine ⟨i, rfl, ?_⟩
    rcases Nat.lt_or_ge i.toNat 256 with hleaf | hinternal
    · rw [traverse_to_leaf hchild hleaf] at h
      obtain ⟨r, hr, heq⟩ := Option.map_eq_some_iff.mp h
      cases heq
      exact .inl ⟨hleaf, r.1, rfl, hr⟩
    · exact .inr ⟨hinternal, traverse_to_internal hchild hinternal bits ▸ h⟩

/-- Bits that all lead to nodes push the symbols of the leaves reached, and leave the engine where they end (R100, R102). -/
theorem hdBits_of_traverse {bits : List Bool} {s : State} {syms : List Byte} {pos : Option NodeIdx}
    (h : traverse s.ht s.hd.pos bits = some (syms, pos)) :
    hdBits bits s = .done ({ s with hd := ⟨pos, s.hd.nsyms + BitVec.ofNat 32 syms.length⟩ }.pushBytes .hsym syms) := by
  induction bits generalizing s syms with
  | nil =>
    cases h
    simp [hdBits, State.pushBytes]
  | cons bit bits ih =>
    obtain ⟨i, hchild, hcase⟩ := traverse_cons_cases h
    rw [hdBits, hdBit_of_child hchild, Effect.bind_done]
    rcases hcase with ⟨hleaf, syms', rfl, hrest⟩ | ⟨hinternal, hrest⟩
    · rw [hdMove_leaf s hleaf, ih hrest]
      simp [State.pushBytes, BitVec.ofNat_add, BitVec.add_assoc, BitVec.add_comm 1#32]
    · rw [hdMove_internal s hinternal, ih hrest]

/-- The bits after a string of bits come after it (R100). -/
theorem hdBits_append (xs ys : List Bool) (s : State) : hdBits (xs ++ ys) s = (hdBits xs s).bind (hdBits ys) := by
  induction xs generalizing s with
  | nil => rfl
  | cons x xs ih =>
    simp only [List.cons_append, hdBits]
    cases hdBit x s with
    | done u => exact ih u
    | error e info u => rfl
    | stop f => rfl

/-- A child is NONE or an index of the arena (R31). -/
theorem HtInv.childOf_inArena {u : HtUnit} (h : HtInv u) {pos : Option NodeIdx} {bit : Bool} : inArena (childOf u pos bit) := by
  intro i hi
  obtain ⟨k, -, hk⟩ := Option.bind_eq_some_iff.mp hi
  obtain ⟨e, hnode, hchild⟩ := Option.bind_eq_some_iff.mp hk
  rw [eq_read_of_nodeAt hnode] at hchild
  cases bit with
  | false => exact h.left _ i hchild
  | true => exact h.right _ i hchild

/-- Bits that all lead to nodes end at an internal node, or at NONE (R31, R100). -/
theorem HtInv.traverse_ends {u : HtUnit} (h : HtInv u) {bits : List Bool} {pos pos' : Option NodeIdx} {syms : List Byte}
    (hpos : internalOrNone pos) (hbits : traverse u pos bits = some (syms, pos')) : internalOrNone pos' := by
  induction bits generalizing pos syms with
  | nil => cases hbits; exact hpos
  | cons bit bits ih =>
    obtain ⟨i, hchild, ⟨-, syms', -, hrest⟩ | ⟨hinternal, hrest⟩⟩ := traverse_cons_cases hbits
    · exact ih h.root hrest
    · exact ih (internalOrNone_some ⟨hinternal, h.childOf_inArena i hchild⟩) hrest

/-! ## The commands (R100, R101) -/

/-- With a valid tree and a bit count in range, `HF.DECBITS` consumes the bits (R100). -/
theorem hfDecbits_of_valid {n : BitVec 4} (b : Byte) {s : State} (hvalid : s.ht.treeValid = true) (hn : n.toNat ≤ 8) :
    hfDecbits n b s = hdBits (lowBits n.toNat b) s := by
  rw [hfDecbits, if_neg hn.not_gt, if_neg (by simp [hvalid])]

/-- `HF.DECBITS` on bits that all lead to nodes (R100). -/
theorem exec_hfDecbits_of_traverse {n : BitVec 4} {b : Byte} {s : State} {syms : List Byte} {pos : Option NodeIdx}
    (hvalid : s.ht.treeValid = true) (hn : n.toNat ≤ 8) (h : traverse s.ht s.hd.pos (lowBits n.toNat b) = some (syms, pos)) :
    exec (.hfDecbits n b) s = .next (({ s with
      hd := ⟨pos, s.hd.nsyms + BitVec.ofNat 32 syms.length⟩ }.pushBytes .hsym syms).advance 1) := by
  rw [exec_eq_complete_body, body, hfDecbits_of_valid b hvalid hn, hdBits_of_traverse h]
  rfl

/-- Settles O53: the loop over the bits is `traverse` on them. -/
theorem hfDecbitsFollowsTheTree : Obligations.HfDecbitsFollowsTheTree := by
  unfold Obligations.HfDecbitsFollowsTheTree
  intro n b s syms pos hvalid hn h
  simp only [exec_hfDecbits_of_traverse hvalid hn h, ← zext32_eq]
  rfl

/-- The bits of a byte up to bit `m`, bit `m`, and the bits after it. -/
theorem lowBits_eq_append_of_lt {m n : Nat} (h : m < n) {k : Nat} (v : BitVec k) :
    ∃ rest, lowBits n v = lowBits m v ++ v.getLsbD m :: rest := by
  obtain ⟨d, rfl⟩ := Nat.exists_eq_add_of_lt h
  exact ⟨_, by rw [lowBits, Nat.add_assoc, List.range_add, List.map_append, List.range_succ_eq_map]; rfl⟩

/-- Settles O54: each check is the first that fails; the bits up to the failing one are followed as `traverse` says, and at an
internal node or NONE a bit without a child is malformed. -/
theorem hfDecbitsErrorsAbortTheCall : Obligations.HfDecbitsErrorsAbortTheCall := by
  unfold Obligations.HfDecbitsErrorsAbortTheCall
  refine fun n b s => ⟨fun hn => ?_, fun hn hoff => ?_, fun m syms pos hn hvalid htree hengine hm h hstuck => ?_⟩
  · have herror : body (.hfDecbits n b) s = .error .illegal 2 s := if_pos hn
    exact exec_of_error 0x36 herror rfl rfl (by decide)
  · have herror : body (.hfDecbits n b) s = .error .noTree 0 (hdAbort s) := by rw [body, hfDecbits, if_neg hn.not_gt, if_pos hoff]
    exact exec_of_error 0x36 herror rfl rfl (by decide)
  · obtain ⟨rest, hbits⟩ := lowBits_eq_append_of_lt hm b
    have herror : body (.hfDecbits n b) s = .error .malformed 1 ({ s with hd := ⟨s.ht.root, 0⟩ }.pushBytes .hsym syms) := by
      rw [body, hfDecbits_of_valid b hvalid hn, hbits, hdBits_append, hdBits_of_traverse h, Effect.bind_done, hdBits,
        hdBit_of_no_child (htree.traverse_ends hengine.pos h) hstuck]
      rfl
    simp only [← zext32_eq]
    exact exec_of_error 0x36 herror rfl rfl (by decide)

/-- At the root `HF.DECEND` pushes the number of symbols and clears it (R101). -/
theorem exec_hfDecend_of_root {s : State} (hroot : s.hd.pos = s.ht.root) : exec .hfDecend s = .next { s with
    cp := s.cp + 1, hd := ⟨s.ht.root, 0⟩, out := s.out ++ [⟨.hdDone, s.hd.nsyms⟩] } := by
  rw [exec_eq_complete_body, body, hfDecend, if_pos hroot, ← hroot]
  rfl

/-- Settles O56: `HF.DECEND` asks only whether the engine stands at the root. -/
theorem hfDecendChecksTheBoundary : Obligations.HfDecendChecksTheBoundary := by
  unfold Obligations.HfDecendChecksTheBoundary
  refine fun s => ⟨fun hroot => ?_, fun hoff => ?_⟩
  · exact exec_hfDecend_of_root hroot
  · have herror : body .hfDecend s = .error .malformed 0 (hdAbort s) := if_neg hoff
    exact exec_of_error 0x37 herror rfl rfl (by decide)

end Sys2Proof.Machine

/-! PROOF. The entropy codec's round trip (44_huffman_coder.md R102): a call of the coder pushes the packed bits of `HF_encode`, and
the decoder follows them through the tree that gave them. -/

namespace Sys2Proof.Machine

/-! ## Packed bits (R45) -/

/-- Whole bytes in front of bits are packed as they stand (R45). -/
theorem bytesOfBits_append (bytes : List Byte) (bits : List Bool) :
    bytesOfBits (bytes.flatMap (lowBits 8) ++ bits) = bytes ++ bytesOfBits bits := by
  induction bytes with
  | nil => rfl
  | cons b bytes ih =>
    have hcount (n : Nat) : (8 + n + 7) / 8 = (n + 7) / 8 + 1 := by omega
    have hbyte (v : Nat) : BitVec.ofNat 8 (b.toNat + 2 ^ 8 * v) = b ∧ (b.toNat + 2 ^ 8 * v) / 256 = v := by
      have hb := b.isLt
      exact ⟨by apply BitVec.eq_of_toNat_eq; rw [BitVec.toNat_ofNat]; omega, by omega⟩
    rw [List.flatMap_cons, List.append_assoc, bytesOfBits_eq_lowBytes, bitsValue_append, bitsValue_lowBits,
      Nat.mod_eq_of_lt b.isLt, List.length_append, length_lowBits, hcount, lowBytes, (hbyte _).1, (hbyte _).2,
      ← bytesOfBits_eq_lowBytes, ih, List.cons_append]

/-- The bits of a number's bytes have its value, but for what lies above the bytes. -/
theorem bitsValue_flatMap_lowBytes (k v : Nat) : bitsValue ((lowBytes k v).flatMap (lowBits 8)) = v % 256 ^ k := by
  induction k generalizing v with
  | zero => simp [lowBytes, bitsValue, Nat.mod_one]
  | succ k ih =>
    rw [lowBytes, List.flatMap_cons, bitsValue_append, ih, bitsValue_lowBits, length_lowBits, BitVec.toNat_ofNat, Nat.mod_mod,
      Nat.pow_succ' (m := 256), Nat.mod_mul]
    rfl

/-- The bits of a packed stream begin with the bits packed; the padding comes after them (R45). -/
theorem take_flatMap_bytesOfBits (bits : List Bool) : ((bytesOfBits bits).flatMap (lowBits 8)).take bits.length = bits := by
  have hlength : ((bytesOfBits bits).flatMap (lowBits 8)).length = 8 * ((bits.length + 7) / 8) := by
    simp [List.length_flatMap, bytesOfBits, Function.comp_def, Nat.mul_comm]
  refine bitsValue_inj (List.length_take_of_le (by omega)) ?_
  have hlt : bitsValue bits < 2 ^ bits.length := bitsValue_lt bits
  have hwhole : bitsValue bits < 256 ^ ((bits.length + 7) / 8) := by
    rw [show (256 : Nat) = 2 ^ 8 from rfl, ← Nat.pow_mul]
    exact hlt.trans_le (Nat.pow_le_pow_right (by decide) (by omega))
  rw [(bitsValue_split _ _).2, bytesOfBits_eq_lowBytes, bitsValue_flatMap_lowBytes, Nat.mod_eq_of_lt hwhole, Nat.mod_eq_of_lt hlt]

/-! ## A call of the coder (R98, R99) -/

/-- Fewer than eight bits are packed into one byte, or none (R45). -/
theorem HeInv.bytesOfBits_held {u : HeUnit} (h : HeInv u) : bytesOfBits u.held = if u.n = 0 then [] else [u.buf] := by
  have hn := u.n.isLt
  rw [bytesOfBits_eq_lowBytes, HeUnit.held, bitsValue_lowBits, Nat.mod_eq_of_lt h.buf, length_lowBits]
  split_ifs with h0
  · rw [h0]
    rfl
  · rw [show (u.n.toNat + 7) / 8 = 1 by bv_omega]
    simp [lowBytes]

/-- `HF.ENCEND` pushes the bits held, packed, and the bit count (R99). -/
theorem hfEncend_eq {s : State} (h : HeInv s.he) : hfEncend s =
    ({ s with he := HeUnit.fresh }.pushBytes .hbyte (bytesOfBits s.he.held)).push .hbits s.he.bitcount := by
  rw [h.bytesOfBits_held]
  split_ifs with hn
  · rw [hfEncend_of_none hn]
    simp [State.pushBytes]
  · exact hfEncend_of_some hn

/-- A call of the coder on symbols with codes pushes the packed bits, those held before and the message's, then their number. -/
theorem execAll_hfEncode (message : List Byte) {s : State} (h : HeInv s.he) (hvalid : s.ht.treeValid = true)
    (hcodes : ∀ b ∈ message, s.ht.lenOf b.toNat ≠ 0)
    (hfits : s.he.bitcount.toNat + (hfEncodeBits s.ht message).length < 2 ^ 32) :
    execAll (Pseudo.hfEncode message) s = .next (({ s with
      cp := s.cp + message.length + 1, he := HeUnit.fresh
    }.pushBytes .hbyte (bytesOfBits (s.he.held ++ hfEncodeBits s.ht message))).push .hbits
      (BitVec.ofNat 32 (s.he.bitcount.toNat + (hfEncodeBits s.ht message).length))) := by
  induction message generalizing s with
  | nil =>
    show execAll [.hfEncend] s = _
    simp [execAll, exec_hfEncend, hfEncend_eq h, hfEncodeBits, State.advance, State.push, State.pushBytes]
  | cons b message ih =>
    obtain ⟨hcode, hcodes⟩ := List.forall_mem_cons.mp hcodes
    have hbits : hfEncodeBits s.ht (b :: message) = s.ht.codeOf b.toNat ++ hfEncodeBits s.ht message := List.flatMap_cons
    have hlength : (hfEncodeBits s.ht (b :: message)).length =
        (s.ht.lenOf b.toNat).toNat + (hfEncodeBits s.ht message).length := by
      rw [hbits, List.length_append, HtUnit.codeOf, length_lowBits]
    rw [hlength] at hfits ⊢
    obtain ⟨he, bytes, hexec, htakes, hcount⟩ := exec_hfEnc h hvalid hcode (by omega)
    have hrest := ih (s := ({ s with he := he }.pushBytes .hbyte bytes).advance 1) htakes.inv hvalid hcodes
      (by simp only [State.advance_he, State.pushBytes_he, State.advance_ht, State.pushBytes_ht, hcount]; omega)
    show execAll (.hfEnc b :: Pseudo.hfEncode message) s = _
    simp only [execAll, hexec, hrest, hbits]
    rw [← List.append_assoc, htakes.bits, List.append_assoc, bytesOfBits_append]
    simp [State.advance, State.push, State.pushBytes, hcount, Nat.add_assoc, Nat.add_comm 1]

/-! ## A call of the decoder (R100, R101) -/

/-- Bits that lead on lead to the end of any first part, and from there on (R102). -/
theorem traverse_append_cases {u : HtUnit} {xs ys : List Bool} {pos pos' : Option NodeIdx} {syms : List Byte}
    (h : traverse u pos (xs ++ ys) = some (syms, pos')) : ∃ mid first later,
      traverse u pos xs = some (first, mid) ∧ traverse u mid ys = some (later, pos') ∧ syms = first ++ later := by
  induction xs generalizing pos syms with
  | nil => exact ⟨pos, [], syms, rfl, h, rfl⟩
  | cons bit xs ih =>
    obtain ⟨i, hchild, ⟨hleaf, syms', rfl, hrest⟩ | ⟨hinternal, hrest⟩⟩ := traverse_cons_cases h
    · obtain ⟨mid, first, later, hfirst, hlater, rfl⟩ := ih hrest
      exact ⟨mid, _ :: first, later, by rw [traverse_to_leaf hchild hleaf, hfirst]; rfl, hlater, rfl⟩
    · obtain ⟨mid, first, later, hfirst, hlater, rfl⟩ := ih hrest
      exact ⟨mid, first, later, by rw [traverse_to_internal hchild hinternal, hfirst], hlater, rfl⟩

/-- The commands of a decode call follow the bits through the tree, eight to a byte and the last byte's first bits (R67, R100). -/
theorem execAll_hfDecodeBits (bytes : List Byte) (rest : List Instr) {nbits : Nat} {s : State} {syms : List Byte}
    {pos : Option NodeIdx} (hvalid : s.ht.treeValid = true) (hbytes : bytes.length = (nbits + 7) / 8)
    (h : traverse s.ht s.hd.pos ((bytes.flatMap (lowBits 8)).take nbits) = some (syms, pos)) :
    execAll (Pseudo.hfDecodeBits nbits bytes ++ rest) s = execAll rest ({ s with
      cp := s.cp + bytes.length
      hd := ⟨pos, s.hd.nsyms + BitVec.ofNat 32 syms.length⟩ }.pushBytes .hsym syms) := by
  induction bytes generalizing nbits s syms with
  | nil =>
    rw [List.flatMap_nil, List.take_nil] at h
    cases h
    simp [Pseudo.hfDecodeBits, State.pushBytes]
  | cons b bytes ih =>
    rw [List.length_cons] at hbytes
    rw [List.flatMap_cons, List.take_append, length_lowBits] at h
    rw [Pseudo.hfDecodeBits]
    split_ifs with hmany
    · rw [List.take_of_length_le (by rwa [length_lowBits])] at h
      obtain ⟨mid, first, later, hfirst, hlater, rfl⟩ := traverse_append_cases h
      have hexec := exec_hfDecbits_of_traverse (n := 8) hvalid (by decide) hfirst
      rw [List.cons_append, execAll, hexec]
      refine (ih (s := ({ s with hd := ⟨mid, s.hd.nsyms + BitVec.ofNat 32 first.length⟩
        }.pushBytes .hsym first).advance 1) hvalid (by omega) hlater).trans ?_
      simp [State.advance, State.pushBytes, BitVec.ofNat_add, BitVec.add_assoc, Nat.add_assoc, Nat.add_comm 1]
    · obtain rfl : bytes = [] := List.eq_nil_of_length_eq_zero (by omega)
      have hn : (BitVec.ofNat 4 nbits).toNat = nbits := Nat.mod_eq_of_lt (by omega)
      have hlow : (lowBits 8 b).take nbits = lowBits nbits b := by
        rw [lowBits, ← List.map_take, List.take_range, Nat.min_eq_left (by omega), lowBits]
      rw [hlow, List.flatMap_nil, List.take_nil, List.append_nil, ← hn] at h
      have hexec := exec_hfDecbits_of_traverse hvalid (by omega) h
      rw [List.cons_append, execAll, hexec]
      simp [State.advance, State.pushBytes]

/-- A call of the decoder from the root on packed bits that lead back to the root pushes the symbols reached, then their number. -/
theorem execAll_hfDecode {bits : List Bool} {s : State} {syms : List Byte} (hvalid : s.ht.treeValid = true)
    (hroot : s.hd = ⟨s.ht.root, 0⟩) (h : traverse s.ht s.ht.root bits = some (syms, s.ht.root)) : ∃ cmds t,
      Pseudo.hfDecode bits.length (bytesOfBits bits) = some cmds ∧ execAll cmds s = .next t ∧
      t.out = s.out ++ syms.map (fun b => ⟨.hsym, zext32 b⟩) ++ [⟨.hdDone, BitVec.ofNat 32 syms.length⟩] := by
  have hbytes : (bytesOfBits bits).length = (bits.length + 7) / 8 := by rw [bytesOfBits_eq_lowBytes, length_lowBytes]
  have hbits : traverse s.ht s.hd.pos (((bytesOfBits bits).flatMap (lowBits 8)).take bits.length) = some (syms, s.ht.root) := by
    rw [take_flatMap_bytesOfBits, hroot, h]
  have hcall := execAll_hfDecodeBits _ [.hfDecend] hvalid hbytes hbits
  rw [execAll, exec_hfDecend_of_root rfl] at hcall
  exact ⟨_, _, if_pos hbytes, hcall, by simp [hroot]⟩

/-! ## The round trip (R102) -/

/-- The bits of a message of counted symbols lead from the root through its symbols and back to the root (R102). -/
theorem traverse_hfEncodeBits {s : State} {message : List Byte} (h : ∀ b ∈ message, s.ht.freqOf b.toNat ≠ 0) :
    traverse (hfBuild s).ht (hfBuild s).ht.root (hfEncodeBits (hfBuild s).ht message) =
      some (message, (hfBuild s).ht.root) := by
  induction message with
  | nil => rfl
  | cons b message ih =>
    obtain ⟨hb, hmessage⟩ := List.forall_mem_cons.mp h
    have hbits : hfEncodeBits (hfBuild s).ht (b :: message) =
        (hfBuild s).ht.codeOf b.toNat ++ hfEncodeBits (hfBuild s).ht message := List.flatMap_cons
    rw [hbits, traverse_append _ _ _ (traverse_codeOf_hfBuild hb), ih hmessage]
    rfl

/-- A counted symbol has a code (R92). -/
theorem lenOf_hfBuild_ne_zero {s : State} {b : Byte} (h : s.ht.freqOf b.toNat ≠ 0) : (hfBuild s).ht.lenOf b.toNat ≠ 0 := by
  obtain ⟨hzero, -, -⟩ := codesAreRootToLeafPaths s _ (exec_hfBuild s) b
  exact fun h0 => h (hzero.mp (congrArg BitVec.toNat h0))

/-- After `HF.BUILD` a call of the coder on counted symbols pushes the packed bits of the message, then their number, and leaves the
tree valid and the decoder at its root (R98, R102). -/
theorem execAll_hfEncode_hfBuild {s : State} {message : List Byte} (hcounted : ∀ b ∈ message, s.ht.freqOf b.toNat ≠ 0)
    {bits : List Bool} (hbits : hfEncodeBits (hfBuild s).ht message = bits) (hfits : bits.length < 2 ^ 32) :
    ∃ t, execAll (Pseudo.hfEncode message) ((hfBuild s).advance 1) = .next t ∧
      t.ht = (hfBuild s).ht ∧ t.hd = ⟨(hfBuild s).ht.root, 0⟩ ∧
      t.out = (hfBuild s).out ++ (bytesOfBits bits).map (fun b => ⟨.hbyte, zext32 b⟩) ++
        [⟨.hbits, BitVec.ofNat 32 bits.length⟩] := by
  subst hbits
  refine ⟨_, execAll_hfEncode message HeInv.fresh rfl (fun b hb => lenOf_hfBuild_ne_zero (hcounted b hb))
    ((Nat.zero_add _).trans_lt hfits), rfl, rfl, ?_⟩
  rw [← Nat.zero_add (hfEncodeBits (hfBuild s).ht message).length]
  rfl

/-- Settles O57: the coder pushes the packed bits of the codes, and the decoder is led by each code to its symbol and back to the
root. -/
theorem huffmanRoundTrip : Obligations.HuffmanRoundTrip := by
  unfold Obligations.HuffmanRoundTrip
  rintro s _ message ⟨⟩ hcounted hfits
  obtain ⟨encoded, hencode, htree, hengine, hout⟩ := execAll_hfEncode_hfBuild hcounted rfl hfits
  have hleads := traverse_hfEncodeBits hcounted
  rw [← htree] at hengine hleads
  obtain ⟨cmds, decoded, hcmds, hdecode, hsyms⟩ := execAll_hfDecode (htree ▸ rfl) hengine hleads
  simp only [zext32_eq] at hout hsyms
  rw [htree] at hcmds
  exact ⟨encoded, cmds, decoded, hencode, hout, hcmds, hdecode, hsyms⟩

end Sys2Proof.Machine

/-! PROOF. The host-interface commands (45_control.md R104 to R108), with the registers of R26 as numbers. -/

namespace Sys2Proof.Machine

/-! ## The commands without a case (R104, R106 to R108) -/

theorem exec_nop (s : State) : exec .nop s = .next (s.advance 1) := rfl

theorem exec_wrctrl (v : BitVec 2) (s : State) : exec (.wrctrl v) s =
    .next ({ s with hi := { s.hi with leRaw := v.getLsbD 0, irqEn := v.getLsbD 1 } }.advance 1) := rfl

theorem exec_clrerr (s : State) : exec .clrerr s = .next ((acknowledge s).advance 1) := rfl

theorem exec_softreset (s : State) : exec .softreset s = .next ((softReset s).advance 1) := rfl

/-- Settles O14: the body of `NOP` leaves the state, and the end of a one-word command moves only the command pointer. -/
theorem nopOnlyAdvances : Obligations.NopOnlyAdvances := by
  unfold Obligations.NopOnlyAdvances
  exact exec_nop

/-- Settles O16: the level of `irq` is read from the field just written. -/
theorem wrctrlWritesControl : Obligations.WrctrlWritesControl := by
  unfold Obligations.WrctrlWritesControl
  exact fun v s => ⟨_, exec_wrctrl v s, rfl, rfl⟩

/-- With no error pending `irq` is low (R115). -/
theorem irq_of_not_errPending {s : State} (h : s.hi.errPending = false) : irq s = false := by simp [irq, h]

/-- Settles O17: the acknowledgement writes the error state alone, and `irq` needs a pending error. -/
theorem clrerrAcknowledges : Obligations.ClrerrAcknowledges := by
  unfold Obligations.ClrerrAcknowledges
  exact fun s => ⟨_, exec_clrerr s, rfl, irq_of_not_errPending rfl⟩

/-- The reset state has the reset values of R127; an empty frequency memory reads as zero everywhere. -/
theorem ResetValues.reset : ResetValues State.reset where
  hi := rfl
  le := ⟨rfl, rfl, rfl, rfl⟩
  ld := ⟨rfl, rfl, rfl, rfl⟩
  bp := rfl
  bu := rfl
  freq _ := rfl
  treeValid := rfl
  nleaves := rfl
  root := rfl
  he := rfl
  hd := rfl

/-- Reset values are a matter of the units: neither the command pointer, the queue nor the host's half enters (R127). -/
theorem ResetValues.withInterface {s : State} (h : ResetValues s) (cp : Nat) (out : List OutWord) (cmds : List Word)
    (host : List HostAct) : ResetValues { s with cp := cp, out := out, cmds := cmds, host := host } := { h with }

/-- Settles O18: the units are those of the reset state, and the rest is kept. -/
theorem softresetKeepsTheQueue : Obligations.SoftresetKeepsTheQueue := by
  unfold Obligations.SoftresetKeepsTheQueue
  exact fun s => ⟨_, exec_softreset s, ResetValues.reset.withInterface (s.cp + 1) s.out s.cmds s.host, rfl, rfl, rfl, rfl⟩

/-! ## Words of flags as numbers (R22, R23) -/

/-- A word is the number it holds. -/
theorem word_eq_ofNat (w : Word) : w = BitVec.ofNat 32 w.toNat := by rw [BitVec.ofNat_toNat, BitVec.setWidth_eq]

/-- A flag as a number: its weight where it is set. -/
theorem flagBit_toNat (b : Bool) {i : Nat} (hi : i < 32) : (flagBit b i).toNat = 2 ^ i * b.toNat := by
  cases b with
  | false => rfl
  | true => simpa [flagBit, Nat.shiftLeft_eq] using Nat.mod_eq_of_lt (Nat.pow_lt_pow_right Nat.one_lt_two hi)

/-- `w` is the number `n`, in its bits below `i`: what flags 0 to `i - 1` amount to. -/
def FlagsBelow (i : Nat) (w : Word) (n : Nat) : Prop := w.toNat = n ∧ n < 2 ^ i

/-- Flag 0 by itself. -/
theorem FlagsBelow.first (b : Bool) : FlagsBelow 1 (flagBit b 0) b.toNat :=
  ⟨by simp [flagBit_toNat], b.toNat_lt⟩

/-- The next flag adds its weight: no bit of the flags below it is there. -/
theorem FlagsBelow.next {i : Nat} {w : Word} {n : Nat} (h : FlagsBelow i w n) (hi : i < 32) (b : Bool) :
    FlagsBelow (i + 1) (w ||| flagBit b i) (n + 2 ^ i * b.toNat) := by
  obtain ⟨rfl, hlt⟩ := h
  have hweight : 2 ^ i * b.toNat ≤ 2 ^ i * 1 := Nat.mul_le_mul_left _ b.toNat_le
  refine ⟨?_, by omega⟩
  rw [BitVec.toNat_or, flagBit_toNat b hi, Nat.or_comm, ← Nat.two_pow_add_eq_or_of_lt hlt, Nat.add_comm]

theorem FlagsBelow.eq_ofNat {i : Nat} {w : Word} {n : Nat} (h : FlagsBelow i w n) : w = BitVec.ofNat 32 n :=
  h.1 ▸ word_eq_ofNat w

/-- The weight of a flag that is the truth of `p`. -/
theorem mul_toNat_decide (k : Nat) (p : Prop) [Decidable p] : k * (decide p).toNat = if p then k else 0 := by
  split <;> simp [*]

/-- CTRL as a number (R22). -/
theorem ctrlWord_eq (s : State) : ctrlWord s = BitVec.ofNat 32 (specRegister s 0x01) :=
  ((FlagsBelow.first s.hi.leRaw).next (by decide) s.hi.irqEn).eq_ofNat

/-- STATUS as a number (R23): nine flags, each above those before it. -/
theorem statusWord_eq (s : State) : statusWord s = BitVec.ofNat 32 (specRegister s 0x02) := by
  have flags := FlagsBelow.first s.hi.errPending
    |>.next (by decide) s.hi.errMulti
    |>.next (by decide) (irq s)
    |>.next (by decide) s.le.curValid
    |>.next (by decide) s.ld.prevValid
    |>.next (by decide) s.ht.treeValid
    |>.next (by decide) (hdAtRoot s)
    |>.next (by decide) (leFull s)
    |>.next (by decide) (ldFull s)
  rw [hdAtRoot, leFull, ldFull, mul_toNat_decide, mul_toNat_decide, mul_toNat_decide] at flags
  exact flags.eq_ofNat

/-! ## `RDREG` (R26, R105) -/

/-- `HF_ROOT` and `HD_NODE` (R26) as a number. -/
theorem nodeWord_eq (i : Option NodeIdx) : nodeWord i = BitVec.ofNat 32 (i.elim 0 (2 ^ 31 + ·.toNat)) := by
  cases i with
  | none => rfl
  | some v => exact validWord_eq true v (by decide)

/-- The table of R26, register by register. -/
theorem regValue_of_le {r : BitVec 8} (h : r.toNat ≤ 0x11) (s : State) :
    regValue r s = some (BitVec.ofNat 32 (specRegister s r.toNat)) := by
  unfold regValue
  generalize r.toNat = k at h
  match k with
  | 0x00 => rfl
  | 0x01 => exact congrArg some (ctrlWord_eq s)
  | 0x02 => exact congrArg some (statusWord_eq s)
  | 0x03 => exact congrArg some (word_eq_ofNat s.hi.errinfo)
  | 0x04 => exact congrArg some (zext32_eq s.le.next)
  | 0x05 => exact congrArg some (validWord_eq s.le.curValid s.le.cur (by decide))
  | 0x06 => exact congrArg some (word_eq_ofNat s.le.ncodes)
  | 0x07 => exact congrArg some (zext32_eq s.ld.next)
  | 0x08 => exact congrArg some (validWord_eq s.ld.prevValid s.ld.prev (by decide))
  | 0x09 => exact congrArg some (word_eq_ofNat s.ld.nbytes)
  | 0x0A => exact congrArg some (bufferWord_eq s.bp.buf s.bp.n (by decide) (by decide))
  | 0x0B => exact congrArg some (bufferWord_eq s.bu.buf s.bu.n (by decide) (by decide))
  | 0x0C => exact congrArg some (zext32_eq s.ht.nleaves)
  | 0x0D =>
    simp only [nodeWord_eq, specRegister]
    cases s.ht.root <;> rfl
  | 0x0E => exact congrArg some (word_eq_ofNat s.he.bitcount)
  | 0x0F => exact congrArg some (bufferWord_eq s.he.buf s.he.n (by decide) (by decide))
  | 0x10 =>
    simp only [nodeWord_eq, specRegister]
    cases s.hd.pos <;> rfl
  | 0x11 => exact congrArg some (word_eq_ofNat s.hd.nsyms)
  | k + 0x12 => omega

/-- An assigned register is pushed, and nothing else happens (R105). -/
theorem exec_rdreg_of_regValue {r : BitVec 8} {s : State} {v : Word} (h : regValue r s = some v) :
    exec (.rdreg r) s = .next ((s.push .reg v).advance 1) := by
  have hbody : body (.rdreg r) s = .done (s.push .reg v) := by simp only [body, h]
  rw [exec_eq_complete_body, hbody]
  rfl

/-- Settles O15: an assigned number reads the table, and an unassigned one is a field out of range. -/
theorem rdregPushesTheRegister : Obligations.RdregPushesTheRegister := by
  unfold Obligations.RdregPushesTheRegister
  refine fun r s => ⟨fun hassigned => ?_, fun hunassigned => ?_⟩
  · exact exec_rdreg_of_regValue (regValue_of_le hassigned s)
  · have hwf : (Instr.rdreg r).wf = false := decide_eq_false (Nat.not_le.mpr hunassigned)
    exact exec_of_error 0x01 (body_of_not_wf hwf s) rfl rfl (by decide)

end Sys2Proof.Machine

/-! PROOF. Nothing ends a run (60_exceptions.md R113, 70_reset_and_hazards.md R133): under the machine's invariant every string of
the decoder's dictionary fits its stack (R75) and the traversal engine never stands at an index without an entry (R31), so no body
stops. -/

namespace Sys2Proof.Machine

/-! ## Bodies that do not stop -/

/-- The body ends at its last line or at a `raise`, not at an access to an entry that does not exist (log 9). -/
def Effect.Ends (r : Effect) : Prop :=
  match r with
  | .done _ => True
  | .error _ _ _ => True
  | .stop _ => False

/-- Two parts in a row end if the first does, and the second from what the first leaves. -/
theorem Effect.Ends.bind {r : Effect} {f : State → Effect} {P : State → Prop} (h : r.Ends) (hP : r.Leaves P)
    (hf : ∀ u, P u → (f u).Ends) : (r.bind f).Ends := by
  cases r with
  | done u => exact hf u hP
  | error e info u => trivial
  | stop flt => exact h

/-- A command whose body ends answers a next state (R62, R113). -/
theorem Effect.Ends.complete_next {r : Effect} (h : r.Ends) (i : Instr) : ∃ t, complete i r = .next t := by
  cases r with
  | done u => exact ⟨_, complete_done i u⟩
  | error e info u => exact ⟨_, complete_error i e info u⟩
  | stop flt => exact h.elim

/-! ## The dictionary decoder (R74, R75) -/

/-- The string of a code below the next one fits the stack, so accepting it ends (R75). -/
theorem ldAccept_ends {s : State} (h : LdInv s.ld) {c : Code} (hc : c.toNat < s.ld.next.toNat) : (ldAccept c s).Ends := by
  obtain ⟨bytes, hbytes⟩ := h.exists_string c hc
  rw [ldAccept_of_reads hbytes.reads]
  trivial

/-- A code that is not refused is below the next one once the entry is inserted (R74). -/
theorem ldStep_ends {s : State} (h : LdInv s.ld) (c : Code) : (ldStep c s).Ends := by
  rcases ldStep_cases c s with hfail | ⟨hc, hfirst⟩ | ⟨f, hv, hc, hlater⟩
  · rw [hfail]
    trivial
  · rw [hfirst]
    exact ldAccept_ends h (Nat.lt_of_lt_of_le hc h.next_lo)
  · rw [hlater]
    exact ldAccept_ends (s := { s with ld := ldInsert f s.ld }) (h.insert hv f) (lt_ldInsert_next f hc)

/-! ## The Huffman coder and decoder (R98, R100, R101) -/

theorem hfEnc_ends (b : Byte) (s : State) : (hfEnc b s).Ends := by
  unfold hfEnc
  dsimp only
  split_ifs <;> trivial

/-- At NONE or an internal node one bit moves the engine or is malformed (R100). -/
theorem hdBit_ends {s : State} (hpos : internalOrNone s.hd.pos) (bit : Bool) : (hdBit bit s).Ends := by
  cases hchild : childOf s.ht s.hd.pos bit with
  | none => rw [hdBit_of_no_child hpos hchild]; trivial
  | some i => rw [hdBit_of_child hchild]; trivial

/-- Each bit leaves the engine where the next one can be read (R34, R100). -/
theorem hdBits_ends {s : State} (h : MachineInv s) (bits : List Bool) : (hdBits bits s).Ends := by
  induction bits generalizing s with
  | nil => trivial
  | cons bit bits ih => exact (hdBit_ends h.hd.pos bit).bind (h.hdBit bit) fun u hu => ih hu

theorem hfDecbits_ends {s : State} (h : MachineInv s) (n : BitVec 4) (b : Byte) : (hfDecbits n b s).Ends := by
  unfold hfDecbits
  split_ifs
  · trivial
  · trivial
  · exact hdBits_ends h _

theorem hfDecend_ends (s : State) : (hfDecend s).Ends := by
  unfold hfDecend
  split_ifs <;> trivial

/-! ## Commands and steps -/

/-- Under the invariant the body of every command ends: only `LD.CODE`, `LD.BYTE` and `HF.DECBITS` read an entry that might not
exist (log 9). -/
theorem body_ends {s : State} (h : MachineInv s) (i : Instr) : (body i s).Ends := by
  cases i with
  | nop | wrctrl | clrerr | softreset | leByte | leEnd | ldEnd | bpPut | bpFlush | buEnd | hfClear | hfSetfreq | hfBuild
  | hfEncend | hfRdfreq => trivial
  | rdreg | buPut | hfCount | hfRdlen | hfRdcode => simp only [body]; split <;> trivial
  | ldCode c => exact ldStep_ends h.ld c
  | ldByte b =>
    simp only [body]
    split
    · trivial
    · next c u _ => exact ldStep_ends (s := { s with bu := u }) h.ld c
  | hfEnc b => exact hfEnc_ends b s
  | hfDecbits n b => exact hfDecbits_ends h n b
  | hfDecend => exact hfDecend_ends s

/-- Under the invariant every command answers a next state (R113). -/
theorem exec_completes {s : State} (h : MachineInv s) (i : Instr) : ∃ t, exec i s = .next t := by
  rw [exec_eq_complete_body]
  exact (body_ends h i).complete_next i

/-- Settles O4: the host's turn and an illegal word always answer a next state, and a command does since its body ends. -/
theorem stepNeverStopsUnderInvariant : Obligations.StepNeverStopsUnderInvariant := by
  unfold Obligations.StepNeverStopsUnderInvariant
  intro s h
  rcases step_cases s with ⟨-, hstep⟩ | ⟨i, rest, -, hstep⟩ | ⟨why, opc, rest, -, hstep⟩
  · exact ⟨_, hstep⟩
  · have hwords : MachineInv { s with cmds := rest } := { h with }
    rw [hstep]
    exact exec_completes hwords i
  · exact ⟨_, hstep⟩

end Sys2Proof.Machine

/-! PROOF. Error entry (60_exceptions.md R110 to R112): the end of a command that raises, and the one error word it pushes. -/

namespace Sys2Proof.Machine

/-- Settles O19: the word of the statement is that of `raise`, and the length is that of the encoding. -/
theorem raiseRecordsTheError : Obligations.RaiseRecordsTheError := by
  unfold Obligations.RaiseRecordsTheError
  rintro i e info s _ rfl
  rw [complete_error, Instr.length_eq]
  rfl

/-! ## The fields of an error word (R111) -/

/-- The error word carries the opcode of the command that raised in its second byte. -/
theorem extractLsb'_errorWord_opcode (e : ErrorKind) (info : BitVec 16) (opc : BitVec 8) :
    (errorWord e info opc).extractLsb' 8 8 = opc := by
  have hopc := opc.isLt
  have hcode := e.code.isLt
  have hinfo := info.isLt
  apply BitVec.eq_of_toNat_eq
  simp only [errorWord, BitVec.extractLsb'_toNat, BitVec.toNat_ofNat, Nat.shiftRight_eq_div_pow]
  omega

/-- The codes of R110 are 1 to 6. -/
theorem ErrorKind.code_range (e : ErrorKind) : 1 ≤ e.code.toNat ∧ e.code.toNat ≤ 6 := by cases e <;> decide

/-! ## What a body does to the error words and flags -/

/-- `after` is the queue `before` with words behind it, none of them an error word (R49, R63). -/
def GrowsWithoutError (before after : List OutWord) : Prop := ∃ ws, after = before ++ ws ∧ ∀ o ∈ ws, o.tag ≠ .err

/-- A body that takes no word from the queue and ends with the same error words in it pushed none. -/
theorem Effect.LegalEnd.growsWithoutError {before : List OutWord} {r : Effect} (h : r.LegalEnd (errWords before))
    (hgrows : r.Leaves (fun u => before <+: u.out)) : r.Leaves (fun u => GrowsWithoutError before u.out) := by
  cases r with
  | done u => exact exists_append_of_errWords_eq hgrows h
  | error e info u => exact exists_append_of_errWords_eq hgrows h.2
  | stop f => trivial

/-- No body pushes an error word: only the end of a command does (R111, R112). -/
theorem body_growsWithoutError (i : Instr) (s : State) : (body i s).Leaves (fun u => GrowsWithoutError s.out u.out) := by
  cases hwf : i.wf with
  | true => exact (body_legalEnd hwf s).growsWithoutError (body_out_prefix i s)
  | false =>
    rw [body_of_not_wf hwf]
    exact ⟨[], by simp⟩

/-- A body that raises leaves `ERR_PENDING` as it was: the commands that clear it raise nothing (R107, R108). -/
theorem errPending_of_body_error {i : Instr} {s u : State} {e : ErrorKind} {info : BitVec 16} (h : body i s = .error e info u) :
    u.hi.errPending = s.hi.errPending := by
  have hw := body_writes i s
  rw [h] at hw
  have hclr : i ≠ .clrerr := by rintro rfl; cases h
  have hreset : i ≠ .softreset := by rintro rfl; cases h
  exact (Writes.errors hw hclr hreset).1

/-- Settles O21: the body pushes no error word and leaves the flags alone, and the end of the command records and pushes at most
one. -/
theorem atMostOneErrorWordAndLast : Obligations.AtMostOneErrorWordAndLast := by
  unfold Obligations.AtMostOneErrorWordAndLast
  intro i s t h
  have hgrows := body_growsWithoutError i s
  have hw := body_writes i s
  rw [exec_eq_complete_body] at h
  rcases complete_next h with ⟨u, hu, rfl⟩ | ⟨e, info, u, hu, rfl⟩ <;> rw [hu] at hgrows hw
  · obtain ⟨ws, hws, hnone⟩ := hgrows
    have hkept := Writes.errors (u := u) hw
    exact .inl ⟨ws, hws, hnone, hkept⟩
  · obtain ⟨ws, hws, hnone⟩ := hgrows
    obtain ⟨hlo, hhi⟩ := extractLsb'_errorWord e info i.opcode ▸ e.code_range
    refine .inr ⟨ws, errorWord e info i.opcode, by simp [hws], hnone, extractLsb'_errorWord_opcode e info i.opcode, hlo, hhi,
      HiUnit.record_errPending .., fun hp => ?_⟩
    have hpending := (errPending_of_body_error hu).trans hp
    simp [HiUnit.record_errMulti, hpending]

end Sys2Proof.Machine

/-! PROOF. The reset state (70_reset_and_hazards.md R127) and the example words of 95_test_vectors.md. -/

namespace Sys2Proof.Machine

/-- The table of R26 at reset values, whatever the entries that R127 leaves unspecified hold. -/
theorem ResetValues.specRegisters {s : State} (h : ResetValues s) :
    (List.range 18).map (specRegister s) = [0x41454432, 0, 0x40, 0, 256, 0, 0, 256, 0, 0, 0, 0, 0, 0, 0, 0, 0, 0] := by
  obtain ⟨hcurValid, -, hleNext, hncodes⟩ := h.le
  obtain ⟨hprevValid, -, hldNext, hnbytes⟩ := h.ld
  simp [List.range_succ, specRegister, h.hi, hcurValid, hleNext, hncodes, hprevValid, hldNext, hnbytes, h.bp, h.bu,
    h.treeValid, h.nleaves, h.root, h.he, h.hd]

/-- The registers of R26 together, as numbers. -/
theorem regValue_range (s : State) : (List.range 18).map (fun r => regValue (BitVec.ofNat 8 r) s) =
    ((List.range 18).map (specRegister s)).map (fun v => some (BitVec.ofNat 32 v)) := by
  rw [List.map_map]
  refine List.map_congr_left fun r hr => ?_
  have hlt : r < 18 := List.mem_range.mp hr
  have hnumber : (BitVec.ofNat 8 r).toNat = r := Nat.mod_eq_of_lt (by omega)
  exact (regValue_of_le (by omega) s).trans (by rw [hnumber]; rfl)

/-- Settles O1: the registers read the table of R26, which is fixed by the reset values, and `irq` needs a pending error. -/
theorem resetStateIsTheSpecs : Obligations.ResetStateIsTheSpecs := by
  unfold Obligations.ResetStateIsTheSpecs
  refine ⟨ResetValues.reset, rfl, rfl, irq_of_not_errPending rfl, ?_⟩
  rw [regValue_range, ResetValues.reset.specRegisters]
  rfl

end Sys2Proof.Machine

namespace Sys2Proof

/-- Settles O7: each command of the table is encoded as the words beside it, and an encoding decodes to its command. -/
theorem specWordsDecode : Obligations.SpecWordsDecode := by
  unfold Obligations.SpecWordsDecode
  exact ⟨decode_encode .nop [], decode_encode (.rdreg 2) [], decode_encode (.wrctrl 3) [], decode_encode (.leByte 0x41) [],
    decode_encode (.ldCode 0x100) [], decode_encode (.bpPut 0xABC) [], decode_encode (.buPut 0xBC) [],
    decode_encode (.hfSetfreq 0x66 45) [], decode_encode (.hfDecbits 2 0x01) [], decode_encode (.hfRdcode 0x61 1) []⟩

end Sys2Proof
